-- ==== Sys2Proof/Word.lean ====
section
/-! DEFINITION. The word, byte and port-address types of the Chunk framer/parser (CFP).
10_state.md R22 (registers of 32 bits), 00_scope.md R8 (a byte is a u8), 20_memory.md R61 (the
register port carries offset bits 12:2). -/

namespace Sys2Proof

/-- A register value or a u32 (R7, R22). -/
abbrev Word := BitVec 32

/-- A u8: one cell of the buffer memory (R8, R60). -/
abbrev Byte := BitVec 8

/-- A register-port word address, that is bits 12:2 of a register offset (R61). A misaligned or
narrower register access cannot be expressed. -/
abbrev RegAddr := BitVec 11

end Sys2Proof
end

