-- ==== Sys2Proof/Config.lean ====
section
/-! DEFINITION. The implementation parameters of the CFP and its free values (the spec's "draws").
The parameters are plain data that State carries, so that a claim over all states is a claim over
every CFP; the free values are constants without a body, so that no proof can see one. -/

namespace Sys2Proof

/-- The two open parameters of a CFP (00_scope.md R5, R6; 93 U8, U9). Which values are allowed is
`Params.wf`. -/
structure Params where
  /-- BUF_AW, the buffer address width (R5). -/
  bufAw : Nat
  /-- RES_DEPTH, the number of records of the result table (R6). -/
  resDepth : Nat
deriving DecidableEq, Repr

/-- FREE VALUE (R231, 93 U1): the byte at address `a` of the buffer memory at power-on. -/
opaque Config.powerOnByte : Nat → Byte

/-- FREE VALUE (R231, 93 U2): word `w` of record `i` of the result table at power-on. -/
opaque Config.powerOnResWord : Nat → Nat → Word

/-- FREE VALUE (R233, R238; 93 U3, U4): the `n`-th drawn byte. The step numbers its draws with a
counter of State, so that each draw is a fresh one. -/
opaque Config.drawByte : Nat → Byte

/-- FREE VALUE (R235, R238; 93 U3, U4, U5): the `n`-th drawn word. -/
opaque Config.drawWord : Nat → Word

/-- DESIGN CHOICE (assumption 1): the CFP that `State.reset` powers on. The spec leaves both
parameters open; these are the values of the conventions of 95_test_vectors.md. No statement rests
on them. -/
def Config.defaultParams : Params := { bufAw := 8, resDepth := 8 }

end Sys2Proof
end

