-- ==== Sys2Proof/Syntax.lean ====
section
/-! DEFINITION. The operations of CFP command set 1: one constructor per row of
spec/opcode_table.json. Nine are command words written to CMD (30_encoding.md R81, R82); three are
register-port operations, whose operand is the written word (R86). -/

namespace Sys2Proof

/-- The instructions of the CFP. A command word has no operand field: a command reads its operands
from the operand registers (R84). -/
inductive Instr where
  /-- CRC_RANGE (R103): integrate `BUF[SRC, SRC+LEN)` into CRC_ACC. -/
  | crcRange
  /-- FRAME (R120): build a chunk from a tag and a data range. -/
  | frame
  /-- FRAME_HDR (R122): build the header chunk. -/
  | frameHdr
  /-- FRAME_END (R123): build the terminal chunk. -/
  | frameEnd
  /-- EMIT_SIG (R124): write the container signature. -/
  | emitSig
  /-- PARSE_AT (R150, S = 0): examine the chunk at OFFSET, leniently. -/
  | parseAt
  /-- PARSE_AT.S (R150, S = 1): examine the chunk at OFFSET, strictly. -/
  | parseAtS
  /-- SCAN (R171): find and validate every recognised chunk tag in the window. -/
  | scan
  /-- DECODE (R180): validate a whole container strictly. -/
  | decode
  /-- CRC_FEED (R104): a host write of the word to CRC_DATA. -/
  | crcFeed (v : Word)
  /-- CRC_LOAD (R105): a host write of the word to CRC_ACC. -/
  | crcLoad (v : Word)
  /-- STATUS_ACK (R26): a host write of the word to STATUS. -/
  | statusAck (v : Word)
deriving DecidableEq, Repr

end Sys2Proof
end

