-- ==== Sys2Proof/WellFormed.lean ====
section
/-! DEFINITION. Which instructions and which parameters are well formed. -/

namespace Sys2Proof

/-- Every instruction is well formed: a command has no operand field (R80), and a register-port
operation takes any word (R86, "any word v"). -/
def Instr.wf : Instr → Bool
  | .crcRange => true
  | .frame => true
  | .frameHdr => true
  | .frameEnd => true
  | .emitSig => true
  | .parseAt => true
  | .parseAtS => true
  | .scan => true
  | .decode => true
  | .crcFeed _ => true
  | .crcLoad _ => true
  | .statusAck _ => true

/-- 00_scope.md R5 and R6: `4 <= BUF_AW <= 31` and `1 <= RES_DEPTH <= 128`. -/
def Params.wf (p : Params) : Bool :=
  decide (4 ≤ p.bufAw) && decide (p.bufAw ≤ 31) &&
    decide (1 ≤ p.resDepth) && decide (p.resDepth ≤ 128)

end Sys2Proof
end

