-- ==== Sys2Proof/Decode.lean ====
section
/-! DEFINITION. Decoding and encoding (30_encoding.md R80 to R83, R86, R87).

An instruction reaches the CFP as one host write on the register port: a word address and a word
of data. The REG space has no byte order (20_memory.md R71): a register access moves a whole word,
so the decoder reads words, not bytes (DEDUCED, assumption 6). It is total: a write is one of the
twelve operations or is rejected by name. -/

namespace Sys2Proof

/-- One host write on the register port (R61): the word address and the data word. -/
structure PortWrite where
  /-- The word address, bits 12:2 of the register offset. -/
  addr : RegAddr
  /-- The 32-bit data word. -/
  data : Word
deriving DecidableEq, Repr

/-- Why a register-port write is not an instruction. The first three are the cases of R83. -/
inductive DecodeError where
  /-- CMD word: a bit of 31:5 is set. -/
  | reservedBits
  /-- CMD word: OP is 0x0 or 0x9 .. 0xF. -/
  | illegalOpcode
  /-- CMD word: S = 1 with an OP other than 0x6. -/
  | strictNotAllowed
  /-- The write goes to a register whose write is a plain store or is ignored (R86). -/
  | notAnOperation
deriving DecidableEq, Repr

/-- The word address of a register offset (R61: offset bits 12:2). -/
def regAddr (offset : Nat) : RegAddr := BitVec.ofNat 11 (offset / 4)

/-- Field OP of a command word, bits 3:0 (R80). -/
def cmdOp (v : Word) : BitVec 4 := v.extractLsb' 0 4

/-- Field S of a command word, bit 4 (R80). -/
def cmdStrict (v : Word) : Bool := v.getLsbD 4

/-- The reserved field of a command word, bits 31:5 (R80). -/
def cmdReserved (v : Word) : BitVec 27 := v.extractLsb' 5 27

/-- A command whose OP admits no S bit (R80: S is "legal only with OP = 0x6"). -/
def plainCommand (strict : Bool) (i : Instr) : Except DecodeError Instr :=
  if strict then .error .strictNotAllowed else .ok i

/-- The command of an opcode and an S bit (R81). -/
def decodeFields (op : BitVec 4) (strict : Bool) : Except DecodeError Instr :=
  match op.toNat with
  | 0x1 => plainCommand strict .crcRange
  | 0x2 => plainCommand strict .frame
  | 0x3 => plainCommand strict .frameHdr
  | 0x4 => plainCommand strict .frameEnd
  | 0x5 => plainCommand strict .emitSig
  | 0x6 => .ok (if strict then .parseAtS else .parseAt)
  | 0x7 => plainCommand strict .scan
  | 0x8 => plainCommand strict .decode
  | _ => .error .illegalOpcode

/-- The command a word written to CMD stands for (R82), or why it is illegal (R83). -/
def decodeCommand (v : Word) : Except DecodeError Instr :=
  if cmdReserved v ≠ 0 then .error .reservedBits else decodeFields (cmdOp v) (cmdStrict v)

/-- The instruction a register-port write stands for (R80, R86). -/
def decode (w : PortWrite) : Except DecodeError Instr :=
  if w.addr = regAddr 0x000 then decodeCommand w.data
  else if w.addr = regAddr 0x004 then .ok (.statusAck w.data)
  else if w.addr = regAddr 0x038 then .ok (.crcLoad w.data)
  else if w.addr = regAddr 0x03C then .ok (.crcFeed w.data)
  else .error .notAnOperation

/-- The register-port write of an instruction: the words of R82, the offsets of R86. -/
def encode : Instr → PortWrite
  | .crcRange => ⟨regAddr 0x000, 0x00000001⟩
  | .frame => ⟨regAddr 0x000, 0x00000002⟩
  | .frameHdr => ⟨regAddr 0x000, 0x00000003⟩
  | .frameEnd => ⟨regAddr 0x000, 0x00000004⟩
  | .emitSig => ⟨regAddr 0x000, 0x00000005⟩
  | .parseAt => ⟨regAddr 0x000, 0x00000006⟩
  | .parseAtS => ⟨regAddr 0x000, 0x00000016⟩
  | .scan => ⟨regAddr 0x000, 0x00000007⟩
  | .decode => ⟨regAddr 0x000, 0x00000008⟩
  | .crcFeed v => ⟨regAddr 0x03C, v⟩
  | .crcLoad v => ⟨regAddr 0x038, v⟩
  | .statusAck v => ⟨regAddr 0x004, v⟩

/-- The command word of an opcode and an S bit, with the reserved bits 0 (R80). -/
def cmdWord (op : BitVec 4) (strict : Bool) : Word :=
  op.setWidth 32 ||| (if strict then 0x10#32 else 0#32)

/-- Whether an instruction is one of the nine commands the engine performs (R82), as against a
register-port operation, which completes within the host write (R86). -/
def isCommand : Instr → Bool
  | .crcRange => true
  | .frame => true
  | .frameHdr => true
  | .frameEnd => true
  | .emitSig => true
  | .parseAt => true
  | .parseAtS => true
  | .scan => true
  | .decode => true
  | .crcFeed _ => false
  | .crcLoad _ => false
  | .statusAck _ => false

/-- The port write of a word numbered as spec/opcode_table.json numbers it (assumption 4). A row of
format `cmd32` is the 32-bit word written to CMD. A row of format `regwrite` is the port offset,
of which bits 12:2 count; the data word is the operand word above those 16 bits. -/
def tableWrite (nbits w : Nat) : PortWrite :=
  if nbits = 32 then ⟨regAddr 0x000, BitVec.ofNat 32 w⟩
  else ⟨BitVec.ofNat 11 (w / 4), BitVec.ofNat 32 (w / 65536)⟩

/-- The instruction the decoder reads from a table row's bits, none where it refuses. -/
def decodeTableWord (nbits w : Nat) : Option Instr :=
  match decode (tableWrite nbits w) with
  | .ok i => some i
  | .error _ => none

end Sys2Proof
end

