-- ==== Sys2Proof/Machine/State.lean ====
section
/-! DEFINITION. The state of the CFP as plain data (10_state.md R20 to R50), its reset value
(70_reset_and_hazards.md R230 to R232), and the types the machine's operations use. -/

namespace Sys2Proof.Machine

/-- The buffer memory BUF (20_memory.md R60): the listed cells, addresses strictly rising. An
address that is not listed holds its power-on draw (assumption 2). -/
abbrev Memory := List Host.Cell

/-- STATUS (R25), field by field. Bits 31:12 are reserved and read 0. -/
structure Status where
  /-- bit 0: a legal command is accepted and not yet performed. -/
  busy : Bool
  /-- bit 1: the last issued command has completed. -/
  done : Bool
  /-- bit 2: the last completed command ended with an error. -/
  err : Bool
  /-- bit 3: the last completed command's validity verdict. -/
  valid : Bool
  /-- bit 4: SCAN or DECODE latched a header record. -/
  hdrFound : Bool
  /-- bit 5: SCAN or DECODE found a valid terminal chunk. -/
  termFound : Bool
  /-- bit 6: a record was dropped because the result table was full. -/
  resOvf : Bool
  /-- bit 7: a host write was dropped because BUSY was 1. -/
  viol : Bool
  /-- bits 11:8: the error code of the last completed command, 0 if none (R200). -/
  errcode : BitVec 4
deriving DecidableEq, Repr

/-- The operand registers (R28 to R38, R50): written by the host, read by the commands. -/
structure OperandRegs where
  /-- SRC (0x00C, R28). -/
  src : Word
  /-- LEN (0x010, R29). -/
  len : Word
  /-- DST (0x014, R30). -/
  dst : Word
  /-- TYPE (0x018, R31). -/
  type : Word
  /-- WIDTH (0x01C, R32). -/
  width : Word
  /-- HEIGHT (0x020, R33). -/
  height : Word
  /-- HPARAM (0x024, R34). -/
  hparam : Word
  /-- HILACE (0x028, R35); bits 31:8 are reserved. -/
  hilace : Word
  /-- BASE (0x02C, R36). -/
  base : Word
  /-- LIMIT (0x030, R37). -/
  limit : Word
  /-- OFFSET (0x034, R38). -/
  offset : Word
deriving DecidableEq, Repr

/-- The chunk result registers R_TYPE .. R_END (0x044 .. 0x058, R42). -/
structure ChunkRegs where
  /-- R_TYPE: the type tag. -/
  type : Word
  /-- R_LEN: the length field. -/
  len : Word
  /-- R_DATA: the address of the first data byte. -/
  data : Word
  /-- R_STORED: the checksum field as stored or written. -/
  stored : Word
  /-- R_CALC: the checksum computed by the CFP. -/
  computed : Word
  /-- R_END: the address one past the last byte. -/
  endAddr : Word
deriving DecidableEq, Repr

/-- The scan counters R_NREC .. R_NIEND (0x05C .. 0x070, R43). -/
structure CountRegs where
  /-- R_NREC: records written into RES. -/
  nrec : Word
  /-- R_NMATCH: records made. -/
  nmatch : Word
  /-- R_NBAD: records made with VALID = 0. -/
  nbad : Word
  /-- R_NIHDR: records made of kind 0. -/
  nihdr : Word
  /-- R_NIDAT: records made of kind 1. -/
  nidat : Word
  /-- R_NIEND: records made of kind 2. -/
  niend : Word
deriving DecidableEq, Repr

/-- The latched header registers R_WIDTH .. R_HILACE (0x074 .. 0x080, R45). -/
structure HeaderRegs where
  /-- R_WIDTH. -/
  width : Word
  /-- R_HEIGHT. -/
  height : Word
  /-- R_HPARAM: header bytes 8 .. 11. -/
  hparam : Word
  /-- R_HILACE: header byte 12 in bits 7:0; bits 31:8 are 0. -/
  hilace : Word
deriving DecidableEq, Repr

/-- One record of the result table: the eight words of R47. -/
structure ResRecord where
  /-- word 0, TAG. -/
  tag : Word
  /-- word 1, FLAGS (R48). -/
  flags : Word
  /-- word 2, TAG_ADDR. -/
  tagAddr : Word
  /-- word 3, LEN. -/
  len : Word
  /-- word 4, DATA_ADDR. -/
  dataAddr : Word
  /-- word 5, STORED. -/
  stored : Word
  /-- word 6, CALC. -/
  computed : Word
  /-- word 7, INDEX. -/
  index : Word
deriving DecidableEq, Repr

/-- The engine (R20, R49): idle, or holding the accepted command's opcode and S bit. -/
inductive Engine where
  /-- No command is pending. -/
  | idle
  /-- `Pending(op, s)`: a command is accepted and not yet performed. -/
  | pending (op : BitVec 4) (strict : Bool)
deriving DecidableEq, Repr

/-- What the outside world can do to the CFP, and the engine's turn (R2, R21, R61, R62, R230). One
event is one step of one agent (R76). -/
inductive Event where
  /-- The engine takes its turn; it has a step only while a command is pending (R21). -/
  | engineTurn
  /-- The host writes a register (R22). -/
  | regWrite (addr : RegAddr) (v : Word)
  /-- The host reads a register (R22). -/
  | regRead (addr : RegAddr)
  /-- The host writes one byte of the buffer memory (R62). -/
  | bufWrite (addr : Word) (b : Byte)
  /-- The host reads one byte of the buffer memory (R62). -/
  | bufRead (addr : Word)
  /-- The environment asserts `rst_n` (R230). -/
  | reset
deriving DecidableEq, Repr

/-- A value the CFP returned to the host on one of its two ports. -/
inductive PortRead where
  /-- A register read's word. -/
  | reg (v : Word)
  /-- A buffer read's byte. -/
  | buf (b : Byte)
deriving DecidableEq, Repr

/-- The state of the CFP: the tuple of R20, the parameters (R5, R6, R44), and three fields of the
model's own (`inputs`, `reads`, `draws`). `irq` is a function of it (R207), as are CRC_RESULT (R41)
and the CFG registers (R44); CRC_DATA holds nothing (R40). -/
structure State where
  /-- BUF_AW and RES_DEPTH; never changed by a step (R44). -/
  cfg : Params
  /-- CMD (0x000, R24). -/
  cmd : Word
  /-- STATUS (0x004, R25). -/
  status : Status
  /-- IRQEN (0x008, R27); bits 31:1 are reserved. -/
  irqen : Word
  /-- The operand registers (R28 to R38). -/
  ops : OperandRegs
  /-- CRC_ACC (0x038, R39): the raw state of the CRC-32 integrator. -/
  crcAcc : Word
  /-- The chunk result registers (R42). -/
  chunk : ChunkRegs
  /-- The scan counters (R43). -/
  counts : CountRegs
  /-- The latched header registers (R45). -/
  header : HeaderRegs
  /-- RES (R47): the listed records, indexes strictly rising. A record that is not listed holds its
  power-on draws (R231; assumption 2). -/
  res : List (Nat × ResRecord)
  /-- BUF (R60). -/
  buf : Memory
  /-- The command accepted and not yet performed (R20, R49). -/
  engine : Engine
  /-- MODEL'S OWN (assumption 3): the events still to happen, the next one first. -/
  inputs : List Event
  /-- MODEL'S OWN (assumption 3): the values returned to the host, the newest first. -/
  reads : List PortRead
  /-- MODEL'S OWN (assumption 5): how many draws have been taken. -/
  draws : Nat
deriving DecidableEq, Repr

/-- Why a step can stop. No state that meets `Safety.EngineInv` faults. -/
inductive Fault where
  /-- Raised by the engine's turn (`engineStep`) when the engine holds an opcode and S bit that R82
  does not list (DESIGN CHOICE, assumption 9). No run reaches such a state: an illegal word issues
  nothing (R205). Safe: the model stops where the spec describes no behaviour. -/
  | pendingIllegal
deriving DecidableEq, Repr

/-- Why an instruction has no meaning. -/
inductive Refusal where
  /-- Raised by an arm of `exec` whose instruction is not modelled yet; none is. Safe. -/
  | notModelled (mnemonic : String)
deriving DecidableEq, Repr

/-- STATUS after reset (R230: "STATUS = 0"). -/
def Status.zero : Status :=
  { busy := false, done := false, err := false, valid := false, hdrFound := false
    termFound := false, resOvf := false, viol := false, errcode := 0 }

/-- The operand registers after reset (R23, R232): 0, except HPARAM. -/
def OperandRegs.initial : OperandRegs :=
  { src := 0, len := 0, dst := 0, type := 0, width := 0, height := 0, hparam := 0x00000208
    hilace := 0, base := 0, limit := 0, offset := 0 }

/-- The chunk result registers after reset (R232). -/
def ChunkRegs.zero : ChunkRegs :=
  { type := 0, len := 0, data := 0, stored := 0, computed := 0, endAddr := 0 }

/-- The scan counters after reset (R232) and at the start of SCAN and DECODE (R170). -/
def CountRegs.zero : CountRegs :=
  { nrec := 0, nmatch := 0, nbad := 0, nihdr := 0, nidat := 0, niend := 0 }

/-- The latched header registers after reset (R232) and at the start of SCAN and DECODE (R170). -/
def HeaderRegs.zero : HeaderRegs :=
  { width := 0, height := 0, hparam := 0, hilace := 0 }

/-- The power-on state of a CFP with parameters `p` (R231, R232): every register at its reset
value, the engine idle, and every cell of BUF and RES at its draw. -/
def State.powerOn (p : Params) : State :=
  { cfg := p, cmd := 0, status := Status.zero, irqen := 0, ops := OperandRegs.initial
    crcAcc := 0xFFFFFFFF, chunk := ChunkRegs.zero, counts := CountRegs.zero
    header := HeaderRegs.zero, res := [], buf := [], engine := .idle
    inputs := [], reads := [], draws := 0 }

/-- The machine right after reset (R231, R232), for the parameters of assumption 1. -/
def State.reset : State := State.powerOn Config.defaultParams

/-! ### Types of the operations -/

/-- The registers of R23 that have a name; RES is addressed by record and word. -/
inductive Reg where
  | cmd | status | irqen
  | src | len | dst | type | width | height | hparam | hilace | base | limit | offset
  | crcAcc | crcData | crcResult
  | rType | rLen | rData | rStored | rCalc | rEnd
  | rNrec | rNmatch | rNbad | rNihdr | rNidat | rNiend
  | rWidth | rHeight | rHparam | rHilace
  | cfgResDepth | cfgBufLast
deriving DecidableEq, Repr

/-- What a register-port address reaches (R23): a named register, a word of a result record, or a
reserved offset. -/
inductive RegLoc where
  /-- A named register. -/
  | named (r : Reg)
  /-- RES[i].w. -/
  | record (i w : Nat)
  /-- A reserved offset (R46). -/
  | reserved
deriving DecidableEq, Repr

/-- The ten error codes of R200 other than NONE. -/
inductive CmdError where
  | invalidTypeTag | checksumMismatch | malformedHeader | truncatedBuffer | integerOverflow
  | badSignature | badStructure | illegalCommand | addressRange | overlap
deriving DecidableEq, Repr

/-- The class of a tag (R189): kinds 0, 1, 2 and 3. -/
inductive Kind where
  | ihdr | idat | iend | other
deriving DecidableEq, Repr

/-- A record while SCAN or DECODE fills it (R172). -/
structure Rec where
  /-- TAG. -/
  tag : Word
  /-- KIND. -/
  kind : Kind
  /-- TAG_ADDR. -/
  tagAddr : Nat
  /-- INDEX. -/
  index : Word
  /-- LEN. -/
  len : Word
  /-- DATA_ADDR. -/
  dataAddr : Nat
  /-- STORED. -/
  stored : Word
  /-- CALC. -/
  computed : Word
  /-- VALID. -/
  valid : Bool
  /-- TRUNC. -/
  trunc : Bool
  /-- LEN_KNOWN. -/
  lenKnown : Bool
  /-- MALFORMED. -/
  malformed : Bool
deriving DecidableEq, Repr

/-- How a command's pseudocode ends (R11), with the state at that point. -/
inductive Ended where
  /-- `finish`, with the verdict of R204's table. -/
  | finished (verdict : Bool) (s : State)
  /-- `raise e`. -/
  | raised (e : CmdError) (s : State)
deriving DecidableEq, Repr

/-- DECODE's position in the container (R183). -/
inductive Phase where
  | expectHdr | expectData | inData
deriving DecidableEq, Repr

end Sys2Proof.Machine
end

