-- ==== Sys2Proof/Machine/Flags.lean ====
section
/-! DEFINITION. STATUS (R25): its word, and what each event of R209 does to it. -/

namespace Sys2Proof.Machine

/-- The codes of R200. -/
def CmdError.code : CmdError → BitVec 4
  | .invalidTypeTag => 1
  | .checksumMismatch => 2
  | .malformedHeader => 3
  | .truncatedBuffer => 4
  | .integerOverflow => 5
  | .badSignature => 6
  | .badStructure => 7
  | .illegalCommand => 8
  | .addressRange => 9
  | .overlap => 10

/-- A flag at bit `k` of a word. -/
def flagBit (b : Bool) (k : Nat) : Word := if b then 1#32 <<< k else 0#32

/-- STATUS as a register word (R25); bits 31:12 read 0. -/
def Status.word (st : Status) : Word :=
  flagBit st.busy 0 ||| flagBit st.done 1 ||| flagBit st.err 2 ||| flagBit st.valid 3 |||
    flagBit st.hdrFound 4 ||| flagBit st.termFound 5 ||| flagBit st.resOvf 6 |||
    flagBit st.viol 7 ||| (st.errcode.setWidth 32 <<< 8)

/-- STATUS at the issue of a legal command (R203). -/
def Status.issued (st : Status) : Status :=
  { st with done := false, err := false, errcode := 0, valid := false, viol := false, busy := true }

/-- STATUS at the issue of an illegal word (R205). -/
def Status.refusedWord (st : Status) : Status :=
  { st with done := true, err := true, errcode := CmdError.illegalCommand.code
            valid := false, viol := false }

/-- STATUS at a completion by `finish` (R204). -/
def Status.finished (st : Status) (verdict : Bool) : Status :=
  { st with busy := false, done := true, err := false, errcode := 0, valid := verdict }

/-- STATUS at a completion by `raise e` (R204). -/
def Status.failed (st : Status) (e : CmdError) : Status :=
  { st with busy := false, done := true, err := true, errcode := e.code, valid := false }

/-- STATUS at a host write of `v` to it while idle (R26). -/
def Status.acked (st : Status) (v : Word) : Status :=
  { st with done := st.done && !v.getLsbD 1, viol := st.viol && !v.getLsbD 7 }

/-- STATUS when a host write is dropped (R237). -/
def Status.dropped (st : Status) : Status := { st with viol := true }

/-- STATUS at the start of SCAN and DECODE (R170). -/
def Status.scanCleared (st : Status) : Status :=
  { st with hdrFound := false, termFound := false, resOvf := false }

/-- The interrupt output (R207): `irq = STATUS.DONE & IRQEN.DONE_IE`. -/
def irq (s : State) : Bool := s.status.done && s.irqen.getLsbD 0

end Sys2Proof.Machine
end

