-- ==== Sys2Proof/Machine/Ops.lean ====
section
/-! DEFINITION. The shared operations: cells, bytes and words, the buffer memory, the named updates
of State, the issue and the completion of a command. -/

namespace Sys2Proof.Machine

/-! ### Lists of cells -/

/-- What a list of cells holds at key `a`. -/
def cellGet {β : Type} : List (Nat × β) → Nat → Option β
  | [], _ => none
  | (k, v) :: m, a => if a = k then some v else cellGet m a

/-- Set key `a`, keeping the keys in rising order. -/
def cellSet {β : Type} : List (Nat × β) → Nat → β → List (Nat × β)
  | [], a, v => [(a, v)]
  | (k, w) :: m, a, v =>
    if a < k then (a, v) :: (k, w) :: m
    else if a = k then (a, v) :: m
    else (k, w) :: cellSet m a v

/-- The canonical form of a list of cells: keys strictly rising. -/
abbrev keysRising {β : Type} (m : List (Nat × β)) : Prop := m.Pairwise (fun x y => x.1 < y.1)

/-- The canonical form of the buffer memory (assumption 2). -/
abbrev Memory.wf (m : Memory) : Prop := keysRising m

/-! ### Bytes and words (R9, R71: big-endian) -/

/-- `be32(v)`: the four bytes of a word, the most significant first (R9). -/
def toBE32 (v : Word) : List Byte :=
  [v.extractLsb' 24 8, v.extractLsb' 16 8, v.extractLsb' 8 8, v.extractLsb' 0 8]

/-- `BE32(s)` (R9): the word whose bytes, the most significant first, are the sequence. -/
def ofBE32 (bytes : List Byte) : Word :=
  BitVec.ofNat 32 (bytes.foldl (fun acc b => acc * 256 + b.toNat) 0)

/-- Byte `i` of a sequence, 0 past its end. -/
def byteAt (bytes : List Byte) (i : Nat) : Byte := bytes.getD i 0

/-! ### The buffer memory -/

/-- What an unlisted address of BUF reads as: its power-on draw (R231; assumption 2). -/
def unlistedByte (a : Nat) : Byte := Config.powerOnByte a

/-- `BUF[a]` (R60). -/
def bufByte (m : Memory) (a : Nat) : Byte := (cellGet m a).getD (unlistedByte a)

/-- `MemRead(a, n)` (R10). -/
def memRead (m : Memory) : Nat → Nat → List Byte
  | _, 0 => []
  | a, n + 1 => bufByte m a :: memRead m (a + 1) n

/-- `MemWrite(a, s)` (R10). -/
def memWrite (m : Memory) : Nat → List Byte → Memory
  | _, [] => m
  | a, b :: bs => memWrite (cellSet m a b) (a + 1) bs

/-- `n` cells from address `a` become draws, numbered from `k` (R233). -/
def memDraw (m : Memory) : Nat → Nat → Nat → Memory
  | _, 0, _ => m
  | a, n + 1, k => memDraw (cellSet m a (Config.drawByte k)) (a + 1) n (k + 1)

/-- BUF_SIZE (R5). -/
def bufSize (s : State) : Nat := 2 ^ s.cfg.bufAw

/-! ### The result table -/

/-- What an unlisted record of RES holds: its power-on draws (R231; assumption 2). -/
def unlistedRecord (i : Nat) : ResRecord :=
  { tag := Config.powerOnResWord i 0, flags := Config.powerOnResWord i 1
    tagAddr := Config.powerOnResWord i 2, len := Config.powerOnResWord i 3
    dataAddr := Config.powerOnResWord i 4, stored := Config.powerOnResWord i 5
    computed := Config.powerOnResWord i 6, index := Config.powerOnResWord i 7 }

/-- `RES[i]` (R47). -/
def resRecord (res : List (Nat × ResRecord)) (i : Nat) : ResRecord :=
  (cellGet res i).getD (unlistedRecord i)

/-- Word `w` of a record (R47); a record has the words 0 to 7. -/
def ResRecord.word (r : ResRecord) (w : Nat) : Word :=
  match w with
  | 0 => r.tag
  | 1 => r.flags
  | 2 => r.tagAddr
  | 3 => r.len
  | 4 => r.dataAddr
  | 5 => r.stored
  | 6 => r.computed
  | 7 => r.index
  | _ => 0

/-- A record of eight draws, numbered from `k` (R235). -/
def drawnRecord (k : Nat) : ResRecord :=
  { tag := Config.drawWord k, flags := Config.drawWord (k + 1)
    tagAddr := Config.drawWord (k + 2), len := Config.drawWord (k + 3)
    dataAddr := Config.drawWord (k + 4), stored := Config.drawWord (k + 5)
    computed := Config.drawWord (k + 6), index := Config.drawWord (k + 7) }

/-- The whole table as draws: `n` records from index `i`, numbered from `k` (R235). -/
def drawnTable : Nat → Nat → Nat → List (Nat × ResRecord)
  | _, 0, _ => []
  | i, n + 1, k => (i, drawnRecord k) :: drawnTable (i + 1) n (k + 8)

/-! ### Named updates of State -/

/-- Replace STATUS. -/
def State.setStatus (s : State) (st : Status) : State := { s with status := st }

/-- Replace the chunk result registers. -/
def State.setChunk (s : State) (c : ChunkRegs) : State := { s with chunk := c }

/-- Replace the scan counters. -/
def State.setCounts (s : State) (c : CountRegs) : State := { s with counts := c }

/-- Replace the latched header registers. -/
def State.setHeader (s : State) (h : HeaderRegs) : State := { s with header := h }

/-- Replace the result table. -/
def State.setRes (s : State) (r : List (Nat × ResRecord)) : State := { s with res := r }

/-- Replace the buffer memory. -/
def State.setBuf (s : State) (m : Memory) : State := { s with buf := m }

/-- Replace CRC_ACC. -/
def State.setCrcAcc (s : State) (v : Word) : State := { s with crcAcc := v }

/-- Replace the engine. -/
def State.setEngine (s : State) (e : Engine) : State := { s with engine := e }

/-- Replace CMD. -/
def State.setCmd (s : State) (v : Word) : State := { s with cmd := v }

/-- Replace IRQEN. -/
def State.setIrqen (s : State) (v : Word) : State := { s with irqen := v }

/-- Replace the operand registers. -/
def State.setOps (s : State) (o : OperandRegs) : State := { s with ops := o }

/-- Replace the events still to happen. -/
def State.setInputs (s : State) (es : List Event) : State := { s with inputs := es }

/-- Note a value returned to the host. -/
def State.noteRead (s : State) (r : PortRead) : State := { s with reads := r :: s.reads }

/-- Count `n` draws as taken. -/
def State.takeDraws (s : State) (n : Nat) : State := { s with draws := s.draws + n }

/-! ### Issue and completion -/

/-- `issue(v)`: the issue of a legal command word (R203). -/
def issue (v : Word) (s : State) : State :=
  ((s.setCmd v).setStatus s.status.issued).setEngine (.pending (cmdOp v) (cmdStrict v))

/-- `illegal(v)`: the write of an illegal word to CMD (R205). -/
def refuseWord (v : Word) (s : State) : State :=
  (s.setCmd v).setStatus s.status.refusedWord

/-- `complete(outcome)` (R204). This is the CFP's only exception mechanism: its "trap entry" (R206).
A `raise` keeps the state at the point of the raise, sets ERR and ERRCODE, saves nothing, and
changes no mode and no control flow. There is no return from it. -/
def complete : Ended → State
  | .finished verdict s => (s.setStatus (s.status.finished verdict)).setEngine .idle
  | .raised e s => (s.setStatus (s.status.failed e)).setEngine .idle

/-- A host write while BUSY = 1: dropped, and VIOL records it (R237). -/
def dropWrite (s : State) : State := s.setStatus s.status.dropped

end Sys2Proof.Machine
end

