-- ==== Sys2Proof/Machine/Operands.lean ====
section
/-! DEFINITION. The operand forms: tags, windows, ranges, the header record, and the register map
(R23). -/

namespace Sys2Proof.Machine

/-! ### Tags and constants -/

/-- `IHDR` (R69). -/
def tagIhdr : List Byte := [0x49, 0x48, 0x44, 0x52]

/-- `IDAT` (R69). -/
def tagIdat : List Byte := [0x49, 0x44, 0x41, 0x54]

/-- `IEND` (R69). -/
def tagIend : List Byte := [0x49, 0x45, 0x4E, 0x44]

/-- `SIG`, the container signature (R66). -/
def signature : List Byte := [0x89, 0x50, 0x4E, 0x47, 0x0D, 0x0A, 0x1A, 0x0A]

/-- `ascii4(tag)` (R128): every byte is in 0x00 .. 0x7F. -/
def ascii4 (tag : List Byte) : Bool := tag.all (fun b => decide (b.toNat < 0x80))

/-- `kind(tag)` (R189). -/
def kindOf (tag : List Byte) : Kind :=
  if tag = tagIhdr then .ihdr
  else if tag = tagIdat then .idat
  else if tag = tagIend then .iend
  else .other

/-- The number of a kind (R189). -/
def Kind.num : Kind → Nat
  | .ihdr => 0
  | .idat => 1
  | .iend => 2
  | .other => 3

/-! ### Ranges -/

/-- `window_ok(BASE, LIMIT)` (R75). -/
def windowOk (s : State) : Bool :=
  decide (s.ops.base.toNat ≤ s.ops.limit.toNat) && decide (s.ops.limit.toNat ≤ bufSize s)

/-- `overlap(SRC, LEN, DST)` (R129). -/
def overlap (src len dst : Nat) : Bool :=
  decide (len > 0) && decide (src ≠ dst + 8) && decide (src < dst + 12 + len) &&
    decide (dst < src + len)

/-! ### The header record -/

/-- Byte `i` of a word, byte 0 in bits 7:0 (the packing of HPARAM and HILACE, R34, R35). -/
def wordByte (v : Word) (i : Nat) : Byte := v.extractLsb' (8 * i) 8

/-- The 13 bytes of the header record (R67) that FRAME_HDR packs (R122). -/
def headerRecord (o : OperandRegs) : List Byte :=
  toBE32 o.width ++ toBE32 o.height ++
    [wordByte o.hparam 0, wordByte o.hparam 1, wordByte o.hparam 2, wordByte o.hparam 3,
     wordByte o.hilace 0]

/-- The header registers that a 13-byte header record latches (R174). -/
def latchedHeader (h : List Byte) : HeaderRegs :=
  { width := ofBE32 (h.take 4)
    height := ofBE32 ((h.drop 4).take 4)
    hparam := (byteAt h 8).setWidth 32 ||| ((byteAt h 9).setWidth 32 <<< 8) |||
      ((byteAt h 10).setWidth 32 <<< 16) ||| ((byteAt h 11).setWidth 32 <<< 24)
    hilace := (byteAt h 12).setWidth 32 }

/-! ### The register map -/

/-- The named registers by offset (R23), first half. -/
def regMapLow : List (Nat × Reg) :=
  [(0x000, .cmd), (0x004, .status), (0x008, .irqen), (0x00C, .src), (0x010, .len),
   (0x014, .dst), (0x018, .type), (0x01C, .width), (0x020, .height), (0x024, .hparam),
   (0x028, .hilace), (0x02C, .base), (0x030, .limit), (0x034, .offset), (0x038, .crcAcc),
   (0x03C, .crcData), (0x040, .crcResult)]

/-- The named registers by offset (R23), second half. -/
def regMapHigh : List (Nat × Reg) :=
  [(0x044, .rType), (0x048, .rLen), (0x04C, .rData), (0x050, .rStored), (0x054, .rCalc),
   (0x058, .rEnd), (0x05C, .rNrec), (0x060, .rNmatch), (0x064, .rNbad), (0x068, .rNihdr),
   (0x06C, .rNidat), (0x070, .rNiend), (0x074, .rWidth), (0x078, .rHeight),
   (0x07C, .rHparam), (0x080, .rHilace), (0x084, .cfgResDepth), (0x088, .cfgBufLast)]

/-- What the register-port address `wa` reaches in a CFP with parameters `p` (R23, R46, R47). -/
def locate (p : Params) (wa : RegAddr) : RegLoc :=
  let off := 4 * wa.toNat
  match cellGet (regMapLow ++ regMapHigh) off with
  | some r => .named r
  | none =>
    if 0x100 ≤ off ∧ off < 0x100 + 32 * p.resDepth
    then .record ((off - 0x100) / 32) ((off - 0x100) % 32 / 4)
    else .reserved

/-- The value of a named register (R23 to R45). -/
def regValue (s : State) : Reg → Word
  | .cmd => s.cmd
  | .status => s.status.word
  | .irqen => s.irqen
  | .src => s.ops.src
  | .len => s.ops.len
  | .dst => s.ops.dst
  | .type => s.ops.type
  | .width => s.ops.width
  | .height => s.ops.height
  | .hparam => s.ops.hparam
  | .hilace => s.ops.hilace
  | .base => s.ops.base
  | .limit => s.ops.limit
  | .offset => s.ops.offset
  | .crcAcc => s.crcAcc
  | .crcData => 0
  | .crcResult => s.crcAcc ^^^ 0xFFFFFFFF
  | .rType => s.chunk.type
  | .rLen => s.chunk.len
  | .rData => s.chunk.data
  | .rStored => s.chunk.stored
  | .rCalc => s.chunk.computed
  | .rEnd => s.chunk.endAddr
  | .rNrec => s.counts.nrec
  | .rNmatch => s.counts.nmatch
  | .rNbad => s.counts.nbad
  | .rNihdr => s.counts.nihdr
  | .rNidat => s.counts.nidat
  | .rNiend => s.counts.niend
  | .rWidth => s.header.width
  | .rHeight => s.header.height
  | .rHparam => s.header.hparam
  | .rHilace => s.header.hilace
  | .cfgResDepth => BitVec.ofNat 32 s.cfg.resDepth
  | .cfgBufLast => BitVec.ofNat 32 (bufSize s - 1)

/-- The value at a register-port location, no hazard considered (R23, R46). -/
def locValue (s : State) : RegLoc → Word
  | .named r => regValue s r
  | .record i w => (resRecord s.res i).word w
  | .reserved => 0

/-- A host write that stores a word (R86): IRQEN and the operand registers take it, less their
reserved bits (R22, R27, R35); a read-only register ignores it. CMD, STATUS, CRC_ACC and CRC_DATA
are not stores and are handled by `hostRegWrite`. -/
def storeReg (v : Word) (s : State) : Reg → State
  | .irqen => s.setIrqen (v &&& 0x00000001)
  | .src => s.setOps { s.ops with src := v }
  | .len => s.setOps { s.ops with len := v }
  | .dst => s.setOps { s.ops with dst := v }
  | .type => s.setOps { s.ops with type := v }
  | .width => s.setOps { s.ops with width := v }
  | .height => s.setOps { s.ops with height := v }
  | .hparam => s.setOps { s.ops with hparam := v }
  | .hilace => s.setOps { s.ops with hilace := v &&& 0x000000FF }
  | .base => s.setOps { s.ops with base := v }
  | .limit => s.setOps { s.ops with limit := v }
  | .offset => s.setOps { s.ops with offset := v }
  | .cmd => s
  | .status => s
  | .crcAcc => s
  | .crcData => s
  | .crcResult => s
  | .rType => s
  | .rLen => s
  | .rData => s
  | .rStored => s
  | .rCalc => s
  | .rEnd => s
  | .rNrec => s
  | .rNmatch => s
  | .rNbad => s
  | .rNihdr => s
  | .rNidat => s
  | .rNiend => s
  | .rWidth => s
  | .rHeight => s
  | .rHparam => s
  | .rHilace => s
  | .cfgResDepth => s
  | .cfgBufLast => s

end Sys2Proof.Machine
end

