-- ==== Sys2Proof/Machine/Ack.lean ====
section
/-! DEFINITION. STATUS_ACK (10_state.md R26; 30_encoding.md R86). -/

namespace Sys2Proof.Machine

/-- STATUS_ACK: a host write of `v` to STATUS (R26); dropped while BUSY = 1 (R237). -/
def execStatusAck (v : Word) (s : State) : Host.Outcome State Fault Refusal :=
  if s.status.busy then .next (dropWrite s)
  else .next (s.setStatus (s.status.acked v))

end Sys2Proof.Machine
end

