-- ==== Sys2Proof/Machine/Crc.lean ====
section
/-! DEFINITION. The CRC-32 function and the integrator's operations (40_crc.md R100 to R108). -/

namespace Sys2Proof.Machine

/-- The reflected polynomial of the CRC (R100). -/
def crcPoly : Word := 0xEDB88320

/-- One bit of `crc_step` (R100): shift right, and add the polynomial if a 1 left. -/
def crcBit (x : Word) : Word := if x.getLsbD 0 then (x >>> 1) ^^^ crcPoly else x >>> 1

/-- `n` bits of `crc_step` (R100). -/
def crcBits : Nat → Word → Word
  | 0, x => x
  | n + 1, x => crcBits n (crcBit x)

/-- `crc_step(acc, b)` (R100). -/
def crcStep (acc : Word) (b : Byte) : Word := crcBits 8 (acc ^^^ b.setWidth 32)

/-- `crc_fold(acc, s)` (R100). -/
def crcFold : Word → List Byte → Word
  | acc, [] => acc
  | acc, b :: bs => crcFold (crcStep acc b) bs

/-- `crc32(s)` (R101). -/
def crc32 (bytes : List Byte) : Word := crcFold 0xFFFFFFFF bytes ^^^ 0xFFFFFFFF

/-- The pseudocode of CRC_RANGE (R103). -/
def crcRangeBody (s : State) : Ended :=
  if s.ops.src.toNat + s.ops.len.toNat > bufSize s then .raised .addressRange s
  else
    .finished false
      (s.setCrcAcc (crcFold s.crcAcc (memRead s.buf s.ops.src.toNat s.ops.len.toNat)))

/-- CRC_RANGE: the engine step that performs it (R103, R204). -/
def execCrcRange (s : State) : Host.Outcome State Fault Refusal :=
  .next (complete (crcRangeBody s))

/-- CRC_FEED: a host write of `v` to CRC_DATA (R104); dropped while BUSY = 1 (R237). -/
def execCrcFeed (v : Word) (s : State) : Host.Outcome State Fault Refusal :=
  if s.status.busy then .next (dropWrite s)
  else .next (s.setCrcAcc (crcStep s.crcAcc (wordByte v 0)))

/-- CRC_LOAD: a host write of `v` to CRC_ACC (R105); dropped while BUSY = 1 (R237). -/
def execCrcLoad (v : Word) (s : State) : Host.Outcome State Fault Refusal :=
  if s.status.busy then .next (dropWrite s)
  else .next (s.setCrcAcc v)

end Sys2Proof.Machine
end

