-- ==== Sys2Proof/Machine/Parser.lean ====
section
/-! DEFINITION. The single-chunk parser (42_parser.md R150 to R155). -/

namespace Sys2Proof.Machine

/-- What the chunk result registers hold for the chunk with tag address `t`, tag `tag`, length
field `len` and checksums `stored` and `computed` (R42, R150, R182). -/
def readChunkRegs (t : Nat) (tag : List Byte) (len stored computed : Word) : ChunkRegs :=
  { type := ofBE32 tag
    len := len
    data := BitVec.ofNat 32 (t + 4)
    stored := stored
    computed := computed
    endAddr := BitVec.ofNat 32 (t + 8 + len.toNat) }

/-- The pseudocode of PARSE_AT(S) (R150). -/
def parseAtBody (strict : Bool) (s : State) : Ended :=
  let t := s.ops.offset.toNat
  let base := s.ops.base.toNat
  let limit := s.ops.limit.toNat
  if windowOk s = false then .raised .addressRange s
  else if t < base + 4 ∨ t + 8 > limit then .raised .truncatedBuffer s
  else
    let len := ofBE32 (memRead s.buf (t - 4) 4)
    let tag := memRead s.buf t 4
    if strict = true ∧ ascii4 tag = false then .raised .invalidTypeTag s
    else if t + 8 + len.toNat > limit then .raised .truncatedBuffer s
    else
      let stored := ofBE32 (memRead s.buf (t + 4 + len.toNat) 4)
      let computed := crc32 (memRead s.buf t (4 + len.toNat))
      let s' := s.setChunk (readChunkRegs t tag len stored computed)
      if stored = computed then .finished true s'
      else if strict then .raised .checksumMismatch s'
      else .finished false s'

/-- PARSE_AT: the engine step that performs it (R150 with S = 0, R204). -/
def execParseAt (s : State) : Host.Outcome State Fault Refusal :=
  .next (complete (parseAtBody false s))

/-- PARSE_AT.S: the engine step that performs it (R150 with S = 1, R204). -/
def execParseAtS (s : State) : Host.Outcome State Fault Refusal :=
  .next (complete (parseAtBody true s))

end Sys2Proof.Machine
end

