-- ==== Sys2Proof/Machine/Records.lean ====
section
/-! DEFINITION. The steps SCAN and DECODE share: clearing, making, emitting and latching
(43_scanner.md R170, R172 to R174). -/

namespace Sys2Proof.Machine

/-- `clear_results()` (R170). -/
def clearResults (s : State) : State :=
  ((s.setStatus s.status.scanCleared).setCounts CountRegs.zero).setHeader HeaderRegs.zero

/-- FLAGS of a record (R48). -/
def Rec.flags (r : Rec) : Word :=
  flagBit r.valid 0 ||| flagBit r.trunc 1 ||| flagBit r.lenKnown 2 ||| flagBit r.malformed 3 |||
    BitVec.ofNat 32 (256 * r.kind.num)

/-- The eight words of a record (R47). -/
def Rec.words (r : Rec) : ResRecord :=
  { tag := r.tag
    flags := r.flags
    tagAddr := BitVec.ofNat 32 r.tagAddr
    len := r.len
    dataAddr := BitVec.ofNat 32 r.dataAddr
    stored := r.stored
    computed := r.computed
    index := r.index }

/-- The number of records of kind `k` made so far, 0 for kind 3 (R172). -/
def kindCount (c : CountRegs) : Kind → Word
  | .ihdr => c.nihdr
  | .idat => c.nidat
  | .iend => c.niend
  | .other => 0

/-- The record `new_record(tag, a)` returns (R172), `c` being the counters before it. -/
def newRecord (tag : List Byte) (a : Nat) (c : CountRegs) : Rec :=
  { tag := ofBE32 tag, kind := kindOf tag, tagAddr := a, index := kindCount c (kindOf tag)
    len := 0, dataAddr := 0, stored := 0, computed := 0
    valid := false, trunc := false, lenKnown := false, malformed := false }

/-- The counters after `new_record` made a record of kind `k` (R172). -/
def countRecord (c : CountRegs) (k : Kind) : CountRegs :=
  { c with
    nmatch := c.nmatch + 1
    nihdr := if k = .ihdr then c.nihdr + 1 else c.nihdr
    nidat := if k = .idat then c.nidat + 1 else c.nidat
    niend := if k = .iend then c.niend + 1 else c.niend }

/-- The state after `new_record` made a record of kind `k` (R172). -/
def countMade (k : Kind) (s : State) : State := s.setCounts (countRecord s.counts k)

/-- The count of records with VALID = 0 (R173, first line of `emit`). -/
def countBad (r : Rec) (s : State) : State :=
  if r.valid then s else s.setCounts { s.counts with nbad := s.counts.nbad + 1 }

/-- The storing part of `emit(rec)` (R173): write the record, or drop it if the table is full. -/
def storeRecord (r : Rec) (s : State) : State :=
  if s.counts.nrec.toNat < s.cfg.resDepth then
    (s.setRes (cellSet s.res s.counts.nrec.toNat r.words)).setCounts
      { s.counts with nrec := s.counts.nrec + 1 }
  else s.setStatus { s.status with resOvf := true }

/-- `emit(rec)` (R173). -/
def emitRecord (r : Rec) (s : State) : State := storeRecord r (countBad r s)

/-- `latch(a)` (R174). -/
def latchHeader (a : Nat) (s : State) : State :=
  (s.setHeader (latchedHeader (memRead s.buf a 13))).setStatus { s.status with hdrFound := true }

end Sys2Proof.Machine
end

