-- ==== Sys2Proof/Machine/Decoder.lean ====
section
/-! DEFINITION. The strict decoder DECODE (43_scanner.md R180 to R188). -/

namespace Sys2Proof.Machine

/-- `check_signature()` (R181): the error it raises, if any. -/
def checkSignature (s : State) : Option CmdError :=
  let base := s.ops.base.toNat
  if base + 8 > s.ops.limit.toNat then some .truncatedBuffer
  else if memRead s.buf base 8 ≠ signature then some .badSignature
  else none

/-- `read_chunk(p)` (R182): the accepted record and the state, or the error raised and the state at
the raise. -/
def readChunk (p : Nat) (s : State) : Except (CmdError × State) (Rec × State) :=
  let limit := s.ops.limit.toNat
  if p + 8 > limit then .error (.truncatedBuffer, s)
  else
    let t := p + 4
    let tag := memRead s.buf t 4
    let len := ofBE32 (memRead s.buf p 4)
    let r0 : Rec := { newRecord tag t s.counts with len := len, lenKnown := true }
    let s0 := countMade r0.kind s
    if ascii4 tag = false then .error (.invalidTypeTag, emitRecord r0 s0)
    else if t + 8 + len.toNat > limit then
      .error (.truncatedBuffer, emitRecord { r0 with trunc := true } s0)
    else
      let stored := ofBE32 (memRead s.buf (t + 4 + len.toNat) 4)
      let computed := crc32 (memRead s.buf t (4 + len.toNat))
      let s1 := s0.setChunk (readChunkRegs t tag len stored computed)
      let r1 : Rec := { r0 with stored := stored, computed := computed }
      if stored ≠ computed then .error (.checksumMismatch, emitRecord r1 s1)
      else .ok ({ r1 with valid := true, dataAddr := t + 4 }, s1)

/-- The header test of `header_step` (R184): length 13, dimensions not 0, parameters 8, 2, 0, 0,
0. -/
def headerAccepted (r : Rec) (s : State) : Bool :=
  let h := memRead s.buf (r.tagAddr + 4) 13
  decide (r.len = 13) && decide (ofBE32 (h.take 4) ≠ 0) &&
    decide (ofBE32 ((h.drop 4).take 4) ≠ 0) && decide (h.drop 8 = [8, 2, 0, 0, 0])

/-- `header_step(rec)` (R184). -/
def headerStep (r : Rec) (s : State) : Except (CmdError × State) State :=
  if headerAccepted r s then .ok (latchHeader (r.tagAddr + 4) s)
  else .error (.malformedHeader, emitRecord { r with malformed := true } s)

/-- `structure_step(rec)` (R183): the next phase and the state, or the error raised and the state
at the raise. -/
def structureStep (phase : Phase) (r : Rec) (s : State) :
    Except (CmdError × State) (Phase × State) :=
  match phase with
  | .expectHdr =>
    if r.kind = .ihdr then
      match headerStep r s with
      | .ok s' => .ok (.expectData, s')
      | .error e => .error e
    else .error (.malformedHeader, emitRecord r s)
  | .expectData =>
    if r.kind = .idat then .ok (.inData, s) else .error (.badStructure, emitRecord r s)
  | .inData =>
    if r.kind = .idat ∨ (r.kind = .iend ∧ r.len = 0) then .ok (.inData, s)
    else .error (.badStructure, emitRecord r s)

/-- The loop of DECODE (R180) from length-field address `p`. The first argument bounds the chunks
examined; DECODE calls it with `LIMIT - BASE`, which the loop never uses up (R188), and past the
window `read_chunk` would raise TRUNCATED_BUFFER (DEDUCED, assumption 8). -/
def decodeLoop : Nat → Nat → Phase → State → Ended
  | 0, _, _, s => .raised .truncatedBuffer s
  | n + 1, p, phase, s =>
    match readChunk p s with
    | .error (e, s') => .raised e s'
    | .ok (r, s1) =>
      match structureStep phase r s1 with
      | .error (e, s') => .raised e s'
      | .ok (phase', s2) =>
        let s3 := emitRecord r s2
        if r.kind = .iend then
          .finished true (s3.setStatus { s3.status with termFound := true })
        else decodeLoop n (r.tagAddr + 8 + r.len.toNat) phase' s3

/-- The pseudocode of DECODE (R180). -/
def decodeBody (s : State) : Ended :=
  let s0 := clearResults s
  if windowOk s = false then .raised .addressRange s0
  else
    match checkSignature s0 with
    | some e => .raised e s0
    | none =>
      decodeLoop (s.ops.limit.toNat - s.ops.base.toNat) (s.ops.base.toNat + 8) .expectHdr s0

/-- DECODE: the engine step that performs it (R180, R204). -/
def execDecode (s : State) : Host.Outcome State Fault Refusal := .next (complete (decodeBody s))

end Sys2Proof.Machine
end

