-- ==== Sys2Proof/Machine/Framer.lean ====
section
/-! DEFINITION. The framer commands (41_framer.md R120 to R129). Each makes all its checks before
its first write, so a command that raises writes nothing. -/

namespace Sys2Proof.Machine

/-- `chunk(tag, d)` (R63). -/
def chunkBytes (tag d : List Byte) : List Byte :=
  toBE32 (BitVec.ofNat 32 d.length) ++ tag ++ d ++ toBE32 (crc32 (tag ++ d))

/-- What the chunk result registers hold for the chunk of tag word `tag` and data `d` that starts
at address `a` (R42, R120). -/
def builtChunk (a : Nat) (tag : Word) (d : List Byte) : ChunkRegs :=
  { type := tag
    len := BitVec.ofNat 32 d.length
    data := BitVec.ofNat 32 (a + 8)
    stored := crc32 (toBE32 tag ++ d)
    computed := crc32 (toBE32 tag ++ d)
    endAddr := BitVec.ofNat 32 (a + 12 + d.length) }

/-- Write the chunk of tag word `tag` and data `d` at address `a`, and report it (R120, R122,
R123). -/
def putChunk (a : Nat) (tag : Word) (d : List Byte) (s : State) : State :=
  (s.setBuf (memWrite s.buf a (chunkBytes (toBE32 tag) d))).setChunk (builtChunk a tag d)

/-- The pseudocode of FRAME (R120). -/
def frameBody (s : State) : Ended :=
  let src := s.ops.src.toNat
  let len := s.ops.len.toNat
  let dst := s.ops.dst.toNat
  if ascii4 (toBE32 s.ops.type) = false then .raised .invalidTypeTag s
  else if len > 0xFFFFFFF3 then .raised .integerOverflow s
  else if src + len > bufSize s ∨ dst + 12 + len > bufSize s then .raised .addressRange s
  else if overlap src len dst then .raised .overlap s
  else .finished false (putChunk dst s.ops.type (memRead s.buf src len) s)

/-- The pseudocode of FRAME_HDR (R122). -/
def frameHdrBody (s : State) : Ended :=
  let dst := s.ops.dst.toNat
  if s.ops.width = 0 ∨ s.ops.height = 0 then .raised .malformedHeader s
  else if dst + 25 > bufSize s then .raised .addressRange s
  else .finished false (putChunk dst (ofBE32 tagIhdr) (headerRecord s.ops) s)

/-- The pseudocode of FRAME_END (R123). -/
def frameEndBody (s : State) : Ended :=
  let dst := s.ops.dst.toNat
  if dst + 12 > bufSize s then .raised .addressRange s
  else .finished false (putChunk dst (ofBE32 tagIend) [] s)

/-- The pseudocode of EMIT_SIG (R124). -/
def emitSigBody (s : State) : Ended :=
  let dst := s.ops.dst.toNat
  if dst + 8 > bufSize s then .raised .addressRange s
  else
    .finished false
      ((s.setBuf (memWrite s.buf dst signature)).setChunk
        { s.chunk with endAddr := BitVec.ofNat 32 (dst + 8) })

/-- FRAME: the engine step that performs it (R120, R204). -/
def execFrame (s : State) : Host.Outcome State Fault Refusal := .next (complete (frameBody s))

/-- FRAME_HDR: the engine step that performs it (R122, R204). -/
def execFrameHdr (s : State) : Host.Outcome State Fault Refusal :=
  .next (complete (frameHdrBody s))

/-- FRAME_END: the engine step that performs it (R123, R204). -/
def execFrameEnd (s : State) : Host.Outcome State Fault Refusal :=
  .next (complete (frameEndBody s))

/-- EMIT_SIG: the engine step that performs it (R124, R204). -/
def execEmitSig (s : State) : Host.Outcome State Fault Refusal := .next (complete (emitSigBody s))

end Sys2Proof.Machine
end

