-- ==== Sys2Proof/Machine/Scanner.lean ====
section
/-! DEFINITION. The boundary scanner SCAN (43_scanner.md R171, R175 to R179). -/

namespace Sys2Proof.Machine

/-- `eval_match(rec, p)` (R175): the lenient parse of the match at tag address `p`. -/
def evalMatch (s : State) (p : Nat) (r : Rec) : Rec :=
  let r1 : Rec :=
    if p ≥ s.ops.base.toNat + 4
    then { r with len := ofBE32 (memRead s.buf (p - 4) 4), lenKnown := true }
    else r
  if r1.lenKnown = false ∨ p + 8 + r1.len.toNat > s.ops.limit.toNat
  then { r1 with trunc := true }
  else
    let stored := ofBE32 (memRead s.buf (p + 4 + r1.len.toNat) 4)
    let computed := crc32 (memRead s.buf p (4 + r1.len.toNat))
    if stored = computed
    then { r1 with stored := stored, computed := computed, valid := true, dataAddr := p + 4 }
    else { r1 with stored := stored, computed := computed }

/-- The record after `scan_header(rec)` (R176): a valid header chunk of another length than 13 is
marked MALFORMED. -/
def scanHeaderMark (r : Rec) : Rec :=
  if r.kind = .ihdr ∧ r.valid = true ∧ r.len ≠ 13 then { r with malformed := true } else r

/-- The state after `scan_header(rec)` (R176): the first valid 13-byte header is latched. -/
def scanHeaderLatch (r : Rec) (s : State) : State :=
  if r.kind = .ihdr ∧ r.valid = true ∧ r.len = 13 ∧ s.status.hdrFound = false
  then latchHeader (r.tagAddr + 4) s
  else s

/-- TERM_FOUND in SCAN (R177). -/
def scanTerminal (r : Rec) (s : State) : State :=
  if r.kind = .iend ∧ r.valid = true ∧ r.len = 0
  then s.setStatus { s.status with termFound := true }
  else s

/-- `advance(rec, p)` (R178). -/
def scanAdvance (r : Rec) (p : Nat) : Nat := if r.valid then p + 8 + r.len.toNat else p + 1

/-- The record SCAN makes for the match of tag bytes `tag` at `p` (R171: `new_record`, `eval_match`
and the mark of `scan_header`). -/
def scanRecord (s : State) (tag : List Byte) (p : Nat) : Rec :=
  scanHeaderMark (evalMatch s p (newRecord tag p s.counts))

/-- What SCAN does to the state for the record `r` of a match (R171). -/
def scanCommit (r : Rec) (s : State) : State :=
  emitRecord r (scanTerminal r (scanHeaderLatch r (countMade r.kind s)))

/-- The loop of SCAN (R171) from position `p`. The first argument bounds the iterations; SCAN calls
it with `LIMIT - BASE`, which the loop never uses up (R179; DEDUCED, assumption 8). -/
def scanLoop : Nat → Nat → State → State
  | 0, _, s => s
  | n + 1, p, s =>
    if p + 4 ≤ s.ops.limit.toNat then
      let tag := memRead s.buf p 4
      if kindOf tag = .other then scanLoop n (p + 1) s
      else
        let r := scanRecord s tag p
        scanLoop n (scanAdvance r p) (scanCommit r s)
    else s

/-- The pseudocode of SCAN (R171). -/
def scanBody (s : State) : Ended :=
  let s0 := clearResults s
  if windowOk s = false then .raised .addressRange s0
  else
    let s1 := scanLoop (s.ops.limit.toNat - s.ops.base.toNat) s.ops.base.toNat s0
    .finished (decide (s1.counts.nbad = 0)) s1

/-- SCAN: the engine step that performs it (R171, R204). -/
def execScan (s : State) : Host.Outcome State Fault Refusal := .next (complete (scanBody s))

end Sys2Proof.Machine
end

