-- ==== Sys2Proof/Machine/Dispatch.lean ====
section
/-! DEFINITION. The meaning of every instruction: one arm per constructor of Instr. For a command
it is the engine step that performs it (10_state.md R21); for a register-port operation it is the
host write (30_encoding.md R86). DEDUCED, assumption 7. -/

namespace Sys2Proof.Machine

def exec (i : Instr) (s : State) : Host.Outcome State Fault Refusal :=
  match i with
  | .crcRange => Sys2Proof.Machine.execCrcRange s
  | .frame => Sys2Proof.Machine.execFrame s
  | .frameHdr => Sys2Proof.Machine.execFrameHdr s
  | .frameEnd => Sys2Proof.Machine.execFrameEnd s
  | .emitSig => Sys2Proof.Machine.execEmitSig s
  | .parseAt => Sys2Proof.Machine.execParseAt s
  | .parseAtS => Sys2Proof.Machine.execParseAtS s
  | .scan => Sys2Proof.Machine.execScan s
  | .decode => Sys2Proof.Machine.execDecode s
  | .crcFeed v => Sys2Proof.Machine.execCrcFeed v s
  | .crcLoad v => Sys2Proof.Machine.execCrcLoad v s
  | .statusAck v => Sys2Proof.Machine.execStatusAck v s

end Sys2Proof.Machine
end

