-- ==== Sys2Proof/Machine/Hazards.lean ====
section
/-! DEFINITION. Write sets (30_encoding.md R85) and the reads they make into draws
(70_reset_and_hazards.md R238). -/

namespace Sys2Proof.Machine

/-- The command the engine holds, if any (R20). -/
def pendingInstr (s : State) : Option Instr :=
  match s.engine with
  | .idle => none
  | .pending op strict =>
    match decodeFields op strict with
    | .ok i => some i
    | .error _ => none

/-- The number of buffer bytes a command writes from DST (R85, the BUF ranges of the "writes"
column). -/
def outLength (i : Instr) (s : State) : Nat :=
  match i with
  | .frame => 12 + s.ops.len.toNat
  | .frameHdr => 25
  | .frameEnd => 12
  | .emitSig => 8
  | .crcRange => 0
  | .parseAt => 0
  | .parseAtS => 0
  | .scan => 0
  | .decode => 0
  | .crcFeed _ => 0
  | .crcLoad _ => 0
  | .statusAck _ => 0

/-- R85: where the BUF range of the "writes" column extends past BUF_SIZE, the write set is
empty (DEDUCED, assumption 10: all of it, result registers included). -/
def writeSetEmpty (i : Instr) (s : State) : Bool :=
  decide (0 < outLength i s) && decide (s.ops.dst.toNat + outLength i s > bufSize s)

/-- The length of the BUF range of a command's write set; it starts at DST (R85). -/
def outRange (i : Instr) (s : State) : Nat := if writeSetEmpty i s then 0 else outLength i s

/-- Whether a buffer address is in a command's write set (R85). -/
def byteInWriteSet (i : Instr) (s : State) (a : Nat) : Bool :=
  decide (s.ops.dst.toNat ≤ a) && decide (a < s.ops.dst.toNat + outRange i s)

/-- R_TYPE .. R_END. -/
def Reg.isChunk (r : Reg) : Bool :=
  r = .rType || r = .rLen || r = .rData || r = .rStored || r = .rCalc || r = .rEnd

/-- R_NREC .. R_NIEND and R_WIDTH .. R_HILACE. -/
def Reg.isScan (r : Reg) : Bool :=
  r = .rNrec || r = .rNmatch || r = .rNbad || r = .rNihdr || r = .rNidat || r = .rNiend ||
    r = .rWidth || r = .rHeight || r = .rHparam || r = .rHilace

/-- Whether a named register is in the "writes" column of a command (R85; R238: "CRC_RESULT counts
as written when CRC_ACC is"). STATUS is not: R238 says what it reads as. -/
def regInWrites (i : Instr) (r : Reg) : Bool :=
  match i with
  | .crcRange => r = .crcAcc || r = .crcResult
  | .frame => r.isChunk
  | .frameHdr => r.isChunk
  | .frameEnd => r.isChunk
  | .emitSig => r = .rEnd
  | .parseAt => r.isChunk
  | .parseAtS => r.isChunk
  | .scan => r.isScan
  | .decode => r.isScan || r.isChunk
  | .crcFeed _ => false
  | .crcLoad _ => false
  | .statusAck _ => false

/-- Whether a command is SCAN or DECODE, which write RES and the scan flags (R85). -/
def writesRes (i : Instr) : Bool := i = .scan || i = .decode

/-- Whether a register-port location is in a command's write set (R85, R238). -/
def locInWriteSet (i : Instr) (s : State) : RegLoc → Bool
  | .named r => regInWrites i r && !writeSetEmpty i s
  | .record _ _ => writesRes i
  | .reserved => false

/-- Whether a read of a register-port location returns a draw now (R238). -/
def locDrawn (s : State) (l : RegLoc) : Bool :=
  s.status.busy &&
    match pendingInstr s with
    | some i => locInWriteSet i s l
    | none => false

/-- Whether a read of a buffer address returns a draw now (R238). -/
def byteDrawn (s : State) (a : Nat) : Bool :=
  s.status.busy &&
    match pendingInstr s with
    | some i => byteInWriteSet i s a
    | none => false

/-- Whether HDR_FOUND, TERM_FOUND and RES_OVF read as draws now (R238, 93 U5). -/
def scanFlagsDrawn (s : State) : Bool :=
  s.status.busy &&
    match pendingInstr s with
    | some i => writesRes i
    | none => false

/-- STATUS with HDR_FOUND, TERM_FOUND and RES_OVF (bits 6:4) taken from a draw (R238). -/
def statusWithDraw (st : Status) (d : Word) : Word :=
  (st.word &&& 0xFFFFFF8F) ||| (d &&& 0x00000070)

end Sys2Proof.Machine
end

