-- ==== Sys2Proof/Machine/Ports.lean ====
section
/-! DEFINITION. The host's accesses on the two ports (10_state.md R22, R24; 20_memory.md R61, R62;
70_reset_and_hazards.md R237, R238), the reset event (R230 to R235), the engine's turn (R21), and
what one event does. -/

namespace Sys2Proof.Machine

/-- A host write of `v` to CMD while BUSY = 0 (R24): a legal word is issued (R203), an illegal word
completes at once with ILLEGAL_COMMAND (R205). -/
def writeCmd (v : Word) (s : State) : State :=
  match decodeCommand v with
  | .ok _ => issue v s
  | .error _ => refuseWord v s

/-- A host write on the register port. While BUSY = 1 it is dropped (R237). Otherwise a write to
STATUS, CRC_ACC or CRC_DATA is the operation of R86, a write to CMD is an issue, and any other write
is a store or is ignored. -/
def hostRegWrite (wa : RegAddr) (v : Word) (s : State) : Host.Outcome State Fault Refusal :=
  if s.status.busy then .next (dropWrite s)
  else
    match locate s.cfg wa with
    | .named .cmd => .next (writeCmd v s)
    | .named .status => exec (.statusAck v) s
    | .named .crcAcc => exec (.crcLoad v) s
    | .named .crcData => exec (.crcFeed v) s
    | .named r => .next (storeReg v s r)
    | .record _ _ => .next s
    | .reserved => .next s

/-- The word a host register read returns (R22, R238). A draw is the next word of the free value
(assumption 5); STATUS while busy is the stored word (DEDUCED, assumption 12). -/
def regReadValue (wa : RegAddr) (s : State) : Word :=
  let l := locate s.cfg wa
  if locDrawn s l then Config.drawWord s.draws
  else if l = .named .status ∧ scanFlagsDrawn s = true
  then statusWithDraw s.status (Config.drawWord s.draws)
  else locValue s l

/-- A host read on the register port: it returns a word and has no other effect (R73). The draw
counter advances so that the next draw is a fresh one. -/
def hostRegRead (wa : RegAddr) (s : State) : State :=
  (s.noteRead (.reg (regReadValue wa s))).takeDraws 1

/-- `host_buf_write(a, b)` (R62, R237). -/
def hostBufWrite (a : Word) (b : Byte) (s : State) : State :=
  if s.status.busy then dropWrite s
  else if a.toNat < bufSize s then s.setBuf (cellSet s.buf a.toNat b)
  else s

/-- The byte a host buffer read returns (R62, R238). -/
def bufReadValue (a : Word) (s : State) : Byte :=
  if a.toNat < bufSize s then
    if byteDrawn s a.toNat then Config.drawByte s.draws else bufByte s.buf a.toNat
  else 0x00

/-- A host read on the buffer port: it returns a byte and has no other effect (R73). -/
def hostBufRead (a : Word) (s : State) : State :=
  (s.noteRead (.buf (bufReadValue a s))).takeDraws 1

/-- BUF after a reset (R233): the bytes of an abandoned command's write set become draws. -/
def bufAfterReset (s : State) : Memory :=
  match pendingInstr s with
  | some i => memDraw s.buf s.ops.dst.toNat (outRange i s) s.draws
  | none => s.buf

/-- RES after a reset (R235): kept, except that an abandoned SCAN or DECODE makes every word a
draw. -/
def resAfterReset (s : State) : List (Nat × ResRecord) :=
  match pendingInstr s with
  | some i => if writesRes i then drawnTable 0 s.cfg.resDepth s.draws else s.res
  | none => s.res

/-- How many draws a reset takes (R233, R235). -/
def resetDraws (s : State) : Nat :=
  match pendingInstr s with
  | some i => if writesRes i then 8 * s.cfg.resDepth else outRange i s
  | none => 0

/-- The reset event (R230): every register takes its reset value, the engine becomes idle and a
pending command is abandoned (R233). RES and BUF are kept but for the abandoned command's write
set. The model's own fields: DESIGN CHOICE, assumption 11. -/
def resetEvent (s : State) : State :=
  { State.powerOn s.cfg with
    buf := bufAfterReset s
    res := resAfterReset s
    inputs := s.inputs
    reads := s.reads
    draws := s.draws + resetDraws s }

/-- The engine's turn (R21): a pending command is performed as one step; an idle engine has no step
and changes nothing (R216). -/
def engineStep (s : State) : Host.Outcome State Fault Refusal :=
  match s.engine with
  | .idle => .next s
  | .pending op strict =>
    match decodeFields op strict with
    | .ok i => exec i s
    | .error _ => .fault .pendingIllegal

/-- What one event does (R2, R76). -/
def performEvent (e : Event) (s : State) : Host.Outcome State Fault Refusal :=
  match e with
  | .engineTurn => engineStep s
  | .regWrite wa v => hostRegWrite wa v s
  | .regRead wa => .next (hostRegRead wa s)
  | .bufWrite a b => .next (hostBufWrite a b s)
  | .bufRead a => .next (hostBufRead a s)
  | .reset => .next (resetEvent s)

/-- The state whose very next step runs the port write `w` (assumption 4). For a command word it is
the state after the host issued it (R203), with no other event before the engine's turn; for any
other write it is the state whose next event is that write. -/
def placeWrite (w : PortWrite) (s : State) : State :=
  match decode w with
  | .ok i =>
    if isCommand i then (issue w.data s).setInputs []
    else s.setInputs [.regWrite w.addr w.data]
  | .error _ => s.setInputs [.regWrite w.addr w.data]

end Sys2Proof.Machine
end

