-- ==== Sys2Proof/Machine/Step.lean ====
section
/-! DEFINITION. One step of the CFP (10_state.md R21; 20_memory.md R76): the next event of `inputs`
happens, and when none is left the engine takes its turn, so a pending command is always performed
in the end (the weak fairness of R21). -/

namespace Sys2Proof.Machine

/-- One step. -/
def step (s : State) : Host.Outcome State Fault Refusal :=
  match s.inputs with
  | [] => engineStep s
  | e :: rest => performEvent e (s.setInputs rest)

/-- `s` with the instruction whose table bits are `w` placed where the next step runs it
(assumption 4). -/
def State.withFetchWord (s : State) (nbits w : Nat) : State := placeWrite (tableWrite nbits w) s

end Sys2Proof.Machine
end

