-- ==== Sys2Proof/Machine/HostProgram.lean ====
section
/-! DEFINITION. The host-program notation of 30_encoding.md R88 and R89 as lists of events. -/

namespace Sys2Proof.Machine

/-- `W <REG>, v`: a host write to the register at `offset` (R88). -/
def hostW (offset : Nat) (v : Word) : Event := .regWrite (regAddr offset) v

/-- `R <REG>`: a host read of the register at `offset` (R88). -/
def hostR (offset : Nat) : Event := .regRead (regAddr offset)

/-- `WB a, b0, b1, ...`: host buffer writes at consecutive addresses (R88). Past address 2^32 - 1 it
goes on at address 0 (DESIGN CHOICE, assumption 14). -/
def hostWB : Word → List Byte → List Event
  | _, [] => []
  | a, b :: bs => .bufWrite a b :: hostWB (a + 1) bs

/-- `RB a, n`: host buffer reads of `n` consecutive bytes (R88). Past address 2^32 - 1 it goes on at
address 0 (DESIGN CHOICE, assumption 14). -/
def hostRB : Word → Nat → List Event
  | _, 0 => []
  | a, n + 1 => .bufRead a :: hostRB (a + 1) n

/-- `CMD X`: the host write that stands for an instruction (R89). -/
def hostCmd (i : Instr) : Event := .regWrite (encode i).addr (encode i).data

/-- `CRC_INIT` (R89). -/
def hostCrcInit : Event := hostCmd (.crcLoad 0xFFFFFFFF)

/-- `ACK` (R89): clears DONE and VIOL. -/
def hostAck : Event := hostCmd (.statusAck 0x00000082)

/-- `WAIT` (R89), on the schedule on which the engine's turn comes after `k` polls of STATUS: the
host polls until the value read has BUSY = 0. -/
def hostWait (k : Nat) : List Event :=
  List.replicate k (hostR 0x004) ++ [.engineTurn, hostR 0x004]

end Sys2Proof.Machine
end

