-- ==== Sys2Proof/Safety.lean ====
section
/-! DEFINITION. The terms the claims are stated in: the invariants of the CFP's state, and what it
means for the buffer memory to hold a chunk or a container. -/

namespace Sys2Proof.Safety

open Sys2Proof.Machine

/-- R20 and R25: the engine is pending exactly when BUSY = 1. While it is, it holds a legal command
(R82), CMD holds the word of that command (R24, R237), and DONE, ERR, ERRCODE and VALID are 0
(R203, R238). -/
def EngineInv (s : State) : Prop :=
  match s.engine with
  | .idle => s.status.busy = false
  | .pending op strict =>
    s.status.busy = true ∧ s.status.done = false ∧ s.status.err = false ∧
      s.status.valid = false ∧ s.status.errcode = 0 ∧
      (∃ i, decodeFields op strict = .ok i) ∧ s.cmd = cmdWord op strict

/-- R200 and R204: ERRCODE is one of 0 .. 10; ERR = 1 exactly when it is not 0; an error leaves
VALID = 0. -/
def ErrorInv (s : State) : Prop :=
  s.status.errcode.toNat ≤ 10 ∧ (s.status.err = true ↔ s.status.errcode ≠ 0) ∧
    (s.status.err = true → s.status.valid = false)

/-- R22, R27, R35, R45: the reserved bits of IRQEN, HILACE and R_HILACE are 0. -/
def ReservedInv (s : State) : Prop :=
  s.irqen &&& 0xFFFFFFFE = 0 ∧ s.ops.hilace &&& 0xFFFFFF00 = 0 ∧
    s.header.hilace &&& 0xFFFFFF00 = 0

/-- R60 and R47: the memories are in canonical form and list no cell outside BUF and no record
outside RES. -/
def StorageInv (s : State) : Prop :=
  Memory.wf s.buf ∧ (∀ c ∈ s.buf, c.1 < bufSize s) ∧
    keysRising s.res ∧ (∀ c ∈ s.res, c.1 < s.cfg.resDepth)

/-- R43, R45, R173: R_NREC never exceeds RES_DEPTH; a record was dropped only when the table was
full; without a latched header the latched header registers are 0. -/
def TableInv (s : State) : Prop :=
  s.counts.nrec.toNat ≤ s.cfg.resDepth ∧
    (s.status.resOvf = true → s.counts.nrec.toNat = s.cfg.resDepth) ∧
    (s.status.hdrFound = false → s.header = HeaderRegs.zero)

/-- The buffer memory holds the bytes `bs` from address `a`. -/
def HoldsAt (m : Memory) (a : Nat) (bs : List Byte) : Prop := memRead m a bs.length = bs

/-- The container of R68 with header record `hdr` and data chunks of data `ds`. -/
def container (hdr : List Byte) (ds : List (List Byte)) : List Byte :=
  signature ++ chunkBytes tagIhdr hdr ++ (ds.map (chunkBytes tagIdat)).flatten ++
    chunkBytes tagIend []

/-- The header record of R67 with the source's defaults. -/
def defaultHeader (width height : Word) : List Byte :=
  toBE32 width ++ toBE32 height ++ [8, 2, 0, 0, 0]

/-- What DECODE has accepted when it comes to a chunk that does not end it (R180, R183): the
signature, then a header chunk with the defaults and dimensions `h` if one was met, then data chunks
of data `ds`. -/
def openContainer (h : Option (Word × Word)) (ds : List (List Byte)) : List Byte :=
  match h with
  | none => signature
  | some d =>
    signature ++ chunkBytes tagIhdr (defaultHeader d.1 d.2) ++
      (ds.map (chunkBytes tagIdat)).flatten

/-- Two memories agree on `[lo, hi)`. -/
def AgreeOn (m m' : Memory) (lo hi : Nat) : Prop :=
  ∀ a, lo ≤ a → a < hi → bufByte m' a = bufByte m a

end Sys2Proof.Safety
end

