-- ==== Sys2Proof/Certificates/Slice0/Obligations.lean ====
section
/-! DEFINITION. The statements for the provers, rule by rule of spec/. A next state is written out
as a record wherever a rule fixes it, so that what a statement does not name is unchanged. -/

open Sys2Proof Sys2Proof.Machine Sys2Proof.Safety

/-! ### Encoding -/

/-- R82, whole: which words are legal, what each stands for, and the rule in terms of the fields. -/
def Obligations.LegalCommandWordsAreTheNine : Prop :=
  (∀ (v : Word) (i : Instr), decodeCommand v = .ok i ↔
    (v, i) ∈ [(0x00000001#32, Instr.crcRange), (0x00000002#32, .frame), (0x00000003#32, .frameHdr),
      (0x00000004#32, .frameEnd), (0x00000005#32, .emitSig), (0x00000006#32, .parseAt),
      (0x00000016#32, .parseAtS), (0x00000007#32, .scan), (0x00000008#32, .decode)]) ∧
  (∀ v : Word, (∃ i, decodeCommand v = .ok i) ↔
    v.extractLsb' 5 27 = 0 ∧ 1 ≤ (v.extractLsb' 0 4).toNat ∧ (v.extractLsb' 0 4).toNat ≤ 8 ∧
      (v.getLsbD 4 = false ∨ (v.extractLsb' 0 4).toNat = 6))

/-- R80, R81, R86: decoding inverts encoding on every well-formed instruction, and a port write
that decodes to an instruction is that instruction's encoding. -/
def Obligations.DecodeAndEncodeAreInverse : Prop :=
  (∀ i : Instr, i.wf = true → decode (encode i) = .ok i) ∧
  (∀ (w : PortWrite) (i : Instr), decode w = .ok i → i.wf = true ∧ encode i = w)

/-- R82, R86: words written out from the spec's tables, one or more of each family. -/
def Obligations.WrittenWordsDecode : Prop :=
  decodeTableWord 32 0b00000000000000000000000000000001 = some .crcRange ∧
  decodeTableWord 32 0b00000000000000000000000000000010 = some .frame ∧
  decodeTableWord 32 0b00000000000000000000000000010110 = some .parseAtS ∧
  decodeTableWord 32 0b00000000000000000000000000000111 = some .scan ∧
  decodeTableWord 32 0b00000000000000000000000000001000 = some .decode ∧
  decodeTableWord 32 0b00000000000000000000000000010111 = none ∧
  decode ⟨0x03C / 4, 0x00000149⟩ = .ok (.crcFeed 0x00000149) ∧
  decode ⟨0x038 / 4, 0xFFFFFFFF⟩ = .ok (.crcLoad 0xFFFFFFFF) ∧
  decode ⟨0x004 / 4, 0x00000082⟩ = .ok (.statusAck 0x00000082)

/-! ### Steps -/

/-- R21, R216: on the engine's turn (its own event, or no event left) the step runs the pending
command; an idle engine has no step and changes nothing. The list of events is the model's own
(assumption 3). -/
def Obligations.EngineTurnRunsThePendingCommand : Prop :=
  (∀ (s : State) (op : BitVec 4) (strict : Bool) (i : Instr),
    s.engine = .pending op strict → decodeFields op strict = .ok i →
    (s.inputs = [] → step s = exec i s) ∧
    (∀ rest, s.inputs = .engineTurn :: rest → step s = exec i { s with inputs := rest })) ∧
  (∀ s : State, s.engine = .idle →
    (s.inputs = [] → step s = .next s) ∧
    (∀ rest, s.inputs = .engineTurn :: rest → step s = .next { s with inputs := rest }))

/-- R86: a host write that decodes to a register-port operation is that operation, whether the
engine is idle or not. -/
def Obligations.OperationWriteRunsItsInstr : Prop :=
  ∀ (s : State) (wa : RegAddr) (v : Word) (rest : List Event) (i : Instr),
    s.inputs = .regWrite wa v :: rest → decode ⟨wa, v⟩ = .ok i → isCommand i = false →
    step s = exec i { s with inputs := rest }

/-- R203, whole: the issue of a legal command word, and the same write while BUSY = 1. -/
def Obligations.LegalWriteToCmdIssues : Prop :=
  ∀ (s : State) (v : Word) (rest : List Event) (i : Instr),
    s.inputs = .regWrite (regAddr 0x000) v :: rest → decodeCommand v = .ok i →
    (s.status.busy = false → step s = .next { s with
      inputs := rest
      cmd := v
      status := { s.status with
        done := false, err := false, errcode := 0, valid := false, viol := false, busy := true }
      engine := .pending (v.extractLsb' 0 4) (v.getLsbD 4) }) ∧
    (s.status.busy = true →
      step s = .next { s with inputs := rest, status := { s.status with viol := true } })

/-- R205 and R83, whole: an illegal word issues nothing and completes at once. -/
def Obligations.IllegalWriteToCmdCompletesAtOnce : Prop :=
  ∀ (s : State) (v : Word) (rest : List Event),
    s.inputs = .regWrite (regAddr 0x000) v :: rest → s.status.busy = false →
    v ∉ [0x00000001#32, 0x00000002, 0x00000003, 0x00000004, 0x00000005, 0x00000006, 0x00000016,
      0x00000007, 0x00000008] →
    step s = .next { s with
      inputs := rest
      cmd := v
      status := { s.status with
        done := true, err := true, errcode := 8, valid := false, viol := false } } ∧
    ∀ t, step s = .next t → irq t = s.irqen.getLsbD 0

/-! ### The register port -/

/-- R23: the offsets of the named registers. -/
def Obligations.RegistersStandAtTheirOffsets : Prop :=
  ∀ p : Params,
    (∀ c ∈ [(0x000, Reg.cmd), (0x004, .status), (0x008, .irqen), (0x00C, .src), (0x010, .len),
      (0x014, .dst), (0x018, .type), (0x01C, .width), (0x020, .height), (0x024, .hparam),
      (0x028, .hilace), (0x02C, .base), (0x030, .limit), (0x034, .offset), (0x038, .crcAcc),
      (0x03C, .crcData), (0x040, .crcResult)], locate p (regAddr c.1) = .named c.2) ∧
    (∀ c ∈ [(0x044, Reg.rType), (0x048, .rLen), (0x04C, .rData), (0x050, .rStored),
      (0x054, .rCalc), (0x058, .rEnd), (0x05C, .rNrec), (0x060, .rNmatch), (0x064, .rNbad),
      (0x068, .rNihdr), (0x06C, .rNidat), (0x070, .rNiend), (0x074, .rWidth), (0x078, .rHeight),
      (0x07C, .rHparam), (0x080, .rHilace), (0x084, .cfgResDepth), (0x088, .cfgBufLast)],
      locate p (regAddr c.1) = .named c.2)

/-- R46 and R47: the result table's offsets, and the reserved offsets, which read 0. -/
def Obligations.RecordsAndReservedOffsets : Prop :=
  (∀ (p : Params) (i w : Nat), p.wf = true → i < p.resDepth → w < 8 →
    locate p (regAddr (0x100 + 32 * i + 4 * w)) = .record i w) ∧
  (∀ (s : State) (wa : RegAddr), s.cfg.wf = true →
    ((0x08C ≤ 4 * wa.toNat ∧ 4 * wa.toNat ≤ 0x0FC) ∨ 0x100 + 32 * s.cfg.resDepth ≤ 4 * wa.toNat) →
    locate s.cfg wa = .reserved ∧ locValue s (locate s.cfg wa) = 0)

/-- R22, R27, R35: a host write to a plain register while idle stores the word, less its reserved
bits, and changes nothing else. -/
def Obligations.PlainRegisterWritesStore : Prop :=
  ∀ (s : State) (wa : RegAddr) (v : Word) (rest : List Event) (r : Reg),
    s.inputs = .regWrite wa v :: rest → s.status.busy = false → locate s.cfg wa = .named r →
    r ∈ [Reg.irqen, .src, .len, .dst, .type, .width, .height, .hparam, .hilace, .base, .limit,
      .offset] →
    ∃ t, step s = .next t ∧
      regValue t r = (if r = .irqen then v &&& 0x00000001
        else if r = .hilace then v &&& 0x000000FF else v) ∧
      (∀ r', r' ≠ r → regValue t r' = regValue s r') ∧
      t = { s with inputs := rest, irqen := t.irqen, ops := t.ops }

/-- R22 and R46: a host write to a read-only register, to a record or to a reserved offset while
idle is ignored. -/
def Obligations.OtherRegisterWritesAreIgnored : Prop :=
  ∀ (s : State) (wa : RegAddr) (v : Word) (rest : List Event),
    s.inputs = .regWrite wa v :: rest → s.status.busy = false →
    (∀ r ∈ [Reg.cmd, .status, .irqen, .src, .len, .dst, .type, .width, .height, .hparam, .hilace,
      .base, .limit, .offset, .crcAcc, .crcData], locate s.cfg wa ≠ .named r) →
    step s = .next { s with inputs := rest }

/-- R22, R23, R40, R41, R44: an idle CFP's register read returns the register's value. A read
changes nothing the CFP holds (R73); the two fields it touches are the model's own (assumptions 3
and 5). -/
def Obligations.IdleRegisterReadReturnsValue : Prop :=
  ∀ (s : State) (wa : RegAddr) (rest : List Event),
    s.inputs = .regRead wa :: rest → s.status.busy = false →
    step s = .next { s with
      inputs := rest
      reads := .reg (locValue s (locate s.cfg wa)) :: s.reads
      draws := s.draws + 1 } ∧
    regValue s .crcData = 0 ∧ regValue s .crcResult = s.crcAcc ^^^ 0xFFFFFFFF ∧
    regValue s .cfgResDepth = BitVec.ofNat 32 s.cfg.resDepth ∧
    regValue s .cfgBufLast = BitVec.ofNat 32 (2 ^ s.cfg.bufAw - 1)

/-- R62, whole: the host buffer port. `inputs`, `reads` and `draws` are the model's own fields
(assumptions 3 and 5). -/
def Obligations.BufferPortReadsAndWritesBytes : Prop :=
  (∀ (s : State) (a : Word) (rest : List Event), s.inputs = .bufRead a :: rest →
    ∃ b, step s = .next { s with
        inputs := rest, reads := .buf b :: s.reads, draws := s.draws + 1 } ∧
      (2 ^ s.cfg.bufAw ≤ a.toNat → b = 0x00) ∧
      (a.toNat < 2 ^ s.cfg.bufAw → byteDrawn s a.toNat = false → b = bufByte s.buf a.toNat)) ∧
  (∀ (s : State) (a : Word) (b : Byte) (rest : List Event), s.inputs = .bufWrite a b :: rest →
    ∃ t, step s = .next t ∧
      (s.status.busy = true →
        t = { s with inputs := rest, status := { s.status with viol := true } }) ∧
      (s.status.busy = false → 2 ^ s.cfg.bufAw ≤ a.toNat → t = { s with inputs := rest }) ∧
      (s.status.busy = false → a.toNat < 2 ^ s.cfg.bufAw →
        t = { s with inputs := rest, buf := t.buf } ∧ bufByte t.buf a.toNat = b ∧
          ∀ c, c ≠ a.toNat → bufByte t.buf c = bufByte s.buf c))

/-! ### Hazards -/

/-- R237, whole: every host write while BUSY = 1 is dropped and sets VIOL. -/
def Obligations.WriteWhileBusyIsDropped : Prop :=
  ∀ (s : State) (e : Event) (rest : List Event), s.inputs = e :: rest → s.status.busy = true →
    ((∃ wa v, e = .regWrite wa v) ∨ (∃ a b, e = .bufWrite a b)) →
    step s = .next { s with inputs := rest, status := { s.status with viol := true } }

/-- R238 and R85: reads while BUSY = 1. In the pending command's write set a read returns the next
draw (a free value: nothing is known of it); elsewhere it returns the value, except that STATUS
reads as R238 lists. The write set is R85's table written out: `n` bytes from DST, the registers
`regs`, and RES for SCAN and DECODE; all of it is empty where the bytes pass BUF_SIZE (that is how
assumption 10, DEDUCED, reads R85's last sentence). Which draw a read returns, that bits 6:4 of one
drawn word give the three scan flags, and the fields `inputs`, `reads` and `draws` are the model's
own (assumptions 3 and 5). -/
def Obligations.ReadsWhileBusy : Prop :=
  ∀ (s : State) (rest : List Event) (op : BitVec 4) (strict : Bool) (i : Instr) (n : Nat)
    (regs : List Reg),
    EngineInv s → s.engine = .pending op strict → decodeFields op strict = .ok i →
    n = (match i with
      | .frame => 12 + s.ops.len.toNat
      | .frameHdr => 25
      | .frameEnd => 12
      | .emitSig => 8
      | _ => 0) →
    regs = (match i with
      | .crcRange => [Reg.crcAcc, .crcResult]
      | .frame | .frameHdr | .frameEnd | .parseAt | .parseAtS =>
        [.rType, .rLen, .rData, .rStored, .rCalc, .rEnd]
      | .emitSig => [.rEnd]
      | .scan => [.rNrec, .rNmatch, .rNbad, .rNihdr, .rNidat, .rNiend, .rWidth, .rHeight,
          .rHparam, .rHilace]
      | .decode => [.rNrec, .rNmatch, .rNbad, .rNihdr, .rNidat, .rNiend, .rWidth, .rHeight,
          .rHparam, .rHilace, .rType, .rLen, .rData, .rStored, .rCalc, .rEnd]
      | _ => []) →
    (∀ wa : RegAddr, s.inputs = .regRead wa :: rest →
      ∃ w, step s = .next { s with
          inputs := rest, reads := .reg w :: s.reads, draws := s.draws + 1 } ∧
        (∀ r ∈ regs, locate s.cfg wa = .named r →
          (n = 0 ∨ s.ops.dst.toNat + n ≤ 2 ^ s.cfg.bufAw → w = Config.drawWord s.draws) ∧
          (0 < n → 2 ^ s.cfg.bufAw < s.ops.dst.toNat + n → w = regValue s r)) ∧
        (∀ r, r ∉ regs → r ≠ .status → locate s.cfg wa = .named r → w = regValue s r) ∧
        (∀ j k, locate s.cfg wa = .record j k →
          w = (if i = .scan ∨ i = .decode then Config.drawWord s.draws
            else (resRecord s.res j).word k)) ∧
        (locate s.cfg wa = .reserved → w = 0) ∧
        (locate s.cfg wa = .named .status →
          w.getLsbD 0 = true ∧ w.getLsbD 1 = false ∧ w.getLsbD 2 = false ∧ w.getLsbD 3 = false ∧
          w.getLsbD 7 = s.status.viol ∧ w.extractLsb' 8 4 = 0 ∧ w.extractLsb' 12 20 = 0 ∧
          w.extractLsb' 4 3 = (if i = .scan ∨ i = .decode
            then (Config.drawWord s.draws).extractLsb' 4 3 else s.status.word.extractLsb' 4 3))) ∧
    (∀ a : Word, s.inputs = .bufRead a :: rest → a.toNat < 2 ^ s.cfg.bufAw →
      ∃ b, step s = .next { s with
          inputs := rest, reads := .buf b :: s.reads, draws := s.draws + 1 } ∧
        (s.ops.dst.toNat + n ≤ 2 ^ s.cfg.bufAw → s.ops.dst.toNat ≤ a.toNat →
          a.toNat < s.ops.dst.toNat + n → b = Config.drawByte s.draws) ∧
        ((2 ^ s.cfg.bufAw < s.ops.dst.toNat + n ∧ 0 < n ∨ a.toNat < s.ops.dst.toNat ∨
          s.ops.dst.toNat + n ≤ a.toNat) → b = bufByte s.buf a.toNat))

/-- R85: performing a command changes nothing outside its write set (`ReadsWhileBusy` writes that
out): the frame of all nine commands. The operand registers, CMD, IRQEN and the parameters are in no
write set, so the read values of their registers are among the unchanged ones (R50). -/
def Obligations.CommandsChangeOnlyTheirWriteSet : Prop :=
  ∀ (i : Instr) (s : State), isCommand i = true →
    ∃ t, exec i s = .next t ∧
      (∀ a, byteInWriteSet i s a = false → bufByte t.buf a = bufByte s.buf a) ∧
      (∀ r, r ≠ .status → locInWriteSet i s (.named r) = false → regValue t r = regValue s r) ∧
      (i ≠ .scan → i ≠ .decode → t.res = s.res ∧ t.status.hdrFound = s.status.hdrFound ∧
        t.status.termFound = s.status.termFound ∧ t.status.resOvf = s.status.resOvf) ∧
      t.cfg = s.cfg ∧ t.inputs = s.inputs ∧ t.reads = s.reads ∧ t.draws = s.draws ∧
      t.status.viol = s.status.viol

/-! ### Reset -/

/-- R230, R233, R235 and R85: the reset event. The write set of the abandoned command is read as
assumption 10 (DEDUCED) reads R85. That each byte and each word of it has a draw of its own is
R231's and R233's; which draw, counted from `draws`, is the model's (assumption 5), and so are the
fresh draws and the events kept after the reset (assumptions 3 and 11). -/
def Obligations.ResetEventResetsAndAbandons : Prop :=
  ∀ (s : State) (rest : List Event), s.inputs = .reset :: rest →
    ∃ t, step s = .next t ∧
      t.engine = .idle ∧ t.status.word = 0 ∧ irq t = false ∧ t.cfg = s.cfg ∧ t.inputs = rest ∧
      regValue t .crcAcc = 0xFFFFFFFF ∧ regValue t .hparam = 0x00000208 ∧
      (∀ r, r ∉ [Reg.crcAcc, .hparam, .cfgResDepth, .cfgBufLast] → regValue t r = 0) ∧
      regValue t .cfgResDepth = regValue s .cfgResDepth ∧
      regValue t .cfgBufLast = regValue s .cfgBufLast ∧
      (pendingInstr s = none → t.buf = s.buf ∧ t.res = s.res) ∧
      (∀ i, pendingInstr s = some i →
        (∀ a, byteInWriteSet i s a = false → bufByte t.buf a = bufByte s.buf a) ∧
        (∀ a n, byteInWriteSet i s a = true → n = s.draws + (a - s.ops.dst.toNat) →
          n < t.draws ∧ bufByte t.buf a = Config.drawByte n) ∧
        (i ≠ .scan → i ≠ .decode → t.res = s.res) ∧
        (i = .scan ∨ i = .decode → t.buf = s.buf ∧
          ∀ j w n, j < s.cfg.resDepth → w < 8 → n = s.draws + 8 * j + w →
            n < t.draws ∧ (resRecord t.res j).word w = Config.drawWord n))

/-- R231: the power-on state, for every choice of the parameters: registers at their reset values,
the engine idle, BUF and RES at draws (assumption 2). `State.reset` is that state for the parameters
the model chose (assumption 1). -/
def Obligations.PowerOnState : Prop :=
  State.reset = State.powerOn Config.defaultParams ∧
  ∀ p : Params,
    (State.powerOn p).engine = .idle ∧ (State.powerOn p).status.word = 0 ∧
    regValue (State.powerOn p) .crcAcc = 0xFFFFFFFF ∧
    regValue (State.powerOn p) .hparam = 0x00000208 ∧
    (∀ r, r ∉ [Reg.crcAcc, .hparam, .cfgResDepth, .cfgBufLast] →
      regValue (State.powerOn p) r = 0) ∧
    (∀ a, bufByte (State.powerOn p).buf a = Config.powerOnByte a) ∧
    (∀ i w, w < 8 →
      (resRecord (State.powerOn p).res i).word w = Config.powerOnResWord i w)

/-- R44, whole: CFG_RES_DEPTH and CFG_BUF_LAST read the parameters, and no step (no host write, no
reset) changes them. -/
def Obligations.ParametersNeverChange : Prop :=
  (∀ s : State, locate s.cfg (regAddr 0x084) = .named .cfgResDepth ∧
    regValue s .cfgResDepth = BitVec.ofNat 32 s.cfg.resDepth ∧
    locate s.cfg (regAddr 0x088) = .named .cfgBufLast ∧
    regValue s .cfgBufLast = BitVec.ofNat 32 (2 ^ s.cfg.bufAw - 1)) ∧
  (∀ s t : State, step s = .next t →
    t.cfg = s.cfg ∧ regValue t .cfgResDepth = regValue s .cfgResDepth ∧
      regValue t .cfgBufLast = regValue s .cfgBufLast)

/-! ### Completion, acknowledgement, interrupt -/

/-- R204: every command answers a next state in which it has completed: BUSY = 0, DONE = 1, the
engine idle, and ERR, ERRCODE and VALID as the rule and its table say. -/
def Obligations.EveryCommandCompletes : Prop :=
  ∀ (i : Instr) (s : State), isCommand i = true →
    ∃ t, exec i s = .next t ∧
      t.engine = .idle ∧ t.status.busy = false ∧ t.status.done = true ∧
      (t.status.err = true → t.status.valid = false ∧
        ∃ e : CmdError, e ≠ .illegalCommand ∧ t.status.errcode = e.code) ∧
      (t.status.err = false → t.status.errcode = 0) ∧
      (i ∈ [Instr.crcRange, .frame, .frameHdr, .frameEnd, .emitSig] → t.status.valid = false) ∧
      (i ∈ [Instr.parseAt, .parseAtS] → t.status.err = false →
        (t.status.valid = true ↔ t.chunk.stored = t.chunk.computed)) ∧
      (i = .scan → t.status.err = false → (t.status.valid = true ↔ t.counts.nbad = 0)) ∧
      (i = .decode → t.status.err = false → t.status.valid = true)

/-- R204, last sentence: completion and reset are the only ways BUSY returns to 0; and R203: an
issue is the only way it becomes 1. -/
def Obligations.BusyChangesOnlyAtIssueCompletionReset : Prop :=
  ∀ s t : State, step s = .next t →
    (s.status.busy = true → t.status.busy = false →
      (s.inputs = [] ∨ ∃ rest, s.inputs = .engineTurn :: rest) ∧ s.engine ≠ .idle ∨
      ∃ rest, s.inputs = .reset :: rest) ∧
    (s.status.busy = false → t.status.busy = true →
      ∃ v rest i, s.inputs = .regWrite (regAddr 0x000) v :: rest ∧ decodeCommand v = .ok i)

/-- R26, whole: STATUS_ACK. -/
def Obligations.StatusAckClearsDoneAndViol : Prop :=
  ∀ (s : State) (v : Word), encode (.statusAck v) = ⟨regAddr 0x004, v⟩ ∧
    (s.status.busy = false → exec (.statusAck v) s = .next { s with
      status := { s.status with
        done := if v.getLsbD 1 then false else s.status.done
        viol := if v.getLsbD 7 then false else s.status.viol } }) ∧
    (s.status.busy = true →
      exec (.statusAck v) s = .next { s with status := { s.status with viol := true } })

/-- R207, whole: the interrupt is the level of DONE and DONE_IE; a completion and an illegal issue
raise it where DONE_IE is set; ACK, the next issue, clearing DONE_IE and reset lower it. -/
def Obligations.InterruptFollowsCompletion : Prop :=
  (∀ s : State, irq s = true ↔ s.status.done = true ∧ s.irqen.getLsbD 0 = true) ∧
  (∀ (i : Instr) (s t : State), isCommand i = true → exec i s = .next t →
    irq t = s.irqen.getLsbD 0) ∧
  (∀ (s t : State) (v : Word), s.status.busy = false → v.getLsbD 1 = true →
    exec (.statusAck v) s = .next t → irq t = false) ∧
  (∀ (s t : State) (v : Word) (rest : List Event), s.status.busy = false →
    s.inputs = .regWrite (regAddr 0x000) v :: rest → step s = .next t →
    irq t = (s.irqen.getLsbD 0 && !(decodeCommand v).isOk)) ∧
  (∀ (s t : State) (v : Word) (rest : List Event), s.status.busy = false →
    s.inputs = .regWrite (regAddr 0x008) v :: rest → step s = .next t → v.getLsbD 0 = false →
    irq t = false ∧ t.status = s.status) ∧
  (∀ (s t : State) (rest : List Event), s.inputs = .reset :: rest → step s = .next t →
    irq t = false ∧ t.irqen = 0)

/-! ### CRC integrator -/

/-- R102: the table of check values. -/
def Obligations.CrcCheckValues : Prop :=
  crc32 [] = 0x00000000 ∧ crc32 [0x00] = 0xD202EF8D ∧ crc32 [0xFF] = 0xFF000000 ∧
  crc32 [0x61] = 0xE8B7BE43 ∧ crc32 [0x49, 0x45, 0x4E, 0x44] = 0xAE426082 ∧
  crc32 [0x49, 0x44, 0x41, 0x54] = 0x35AF061E ∧
  crc32 [0x31, 0x32, 0x33, 0x34, 0x35, 0x36, 0x37, 0x38, 0x39] = 0xCBF43926 ∧
  crcFold 0xFFFFFFFF [0x49, 0x45, 0x4E, 0x44] = 0x51BD9F7D ∧
  crcStep 0xFFFFFFFF 0x00 = 0x2DFD1072 ∧ crcStep 0x00000000 0x01 = 0x77073096

/-- R103, whole: CRC_RANGE. -/
def Obligations.CrcRangeIntegratesTheRange : Prop :=
  ∀ s : State, encode .crcRange = ⟨regAddr 0x000, 0x00000001⟩ ∧
    (s.ops.src.toNat + s.ops.len.toNat ≤ 2 ^ s.cfg.bufAw → exec .crcRange s = .next { s with
      crcAcc := crcFold s.crcAcc (memRead s.buf s.ops.src.toNat s.ops.len.toNat)
      engine := .idle
      status := { s.status with
        busy := false, done := true, err := false, errcode := 0, valid := false } }) ∧
    (2 ^ s.cfg.bufAw < s.ops.src.toNat + s.ops.len.toNat → exec .crcRange s = .next { s with
      engine := .idle
      status := { s.status with
        busy := false, done := true, err := true, errcode := 9, valid := false } })

/-- R104 and R105, whole: CRC_FEED and CRC_LOAD. -/
def Obligations.CrcFeedAndCrcLoad : Prop :=
  ∀ (s : State) (v : Word), encode (.crcFeed v) = ⟨regAddr 0x03C, v⟩ ∧
    encode (.crcLoad v) = ⟨regAddr 0x038, v⟩ ∧
    (s.status.busy = false →
      exec (.crcFeed v) s = .next { s with crcAcc := crcStep s.crcAcc (v.extractLsb' 0 8) } ∧
      exec (.crcLoad v) s = .next { s with crcAcc := v }) ∧
    (s.status.busy = true →
      exec (.crcFeed v) s = .next { s with status := { s.status with viol := true } } ∧
      exec (.crcLoad v) s = .next { s with status := { s.status with viol := true } })

/-- R107: feeding the bytes of a sequence one CRC_FEED at a time after CRC_INIT folds the sequence,
and CRC_RESULT is then its crc32; and two CRC_RANGEs over consecutive pieces give the CRC_ACC of one
CRC_RANGE over both. -/
def Obligations.CrcIntegratorLaws : Prop :=
  (∀ (s : State) (bs : List Byte), s.status.busy = false →
    Host.Core.run core (bs.length + 1) { s with
        inputs := hostCrcInit :: bs.map (fun b => hostCmd (.crcFeed (b.setWidth 32))) }
      = .next { s with inputs := [], crcAcc := crcFold 0xFFFFFFFF bs } ∧
    regValue { s with inputs := [], crcAcc := crcFold 0xFFFFFFFF bs } .crcResult = crc32 bs) ∧
  (∀ (s : State) (src n k : Word), src.toNat + n.toNat + k.toNat ≤ bufSize s →
    bufSize s < 2 ^ 32 →
    ∃ t u v, exec .crcRange (s.setOps { s.ops with src := src, len := n }) = .next t ∧
      exec .crcRange (t.setOps { t.ops with src := src + n, len := k }) = .next u ∧
      exec .crcRange (s.setOps { s.ops with src := src, len := n + k }) = .next v ∧
      t.status.err = false ∧ u.status.err = false ∧ v.status.err = false ∧ u.crcAcc = v.crcAcc)

/-- R179 (corruption detection): two byte sequences that differ in one byte have different
checksums. -/
def Obligations.OneByteCorruptionChangesTheChecksum : Prop :=
  ∀ (pre post : List Byte) (b b' : Byte), b ≠ b' →
    crc32 (pre ++ b :: post) ≠ crc32 (pre ++ b' :: post)

/-- R108, whole: CRC_ACC is neither read nor written by the framer and parser commands, and changes
only by CRC_LOAD, CRC_FEED, CRC_RANGE and reset. -/
def Obligations.CrcAccIsSeparate : Prop :=
  (∀ (i : Instr) (s : State) (x : Word), isCommand i = true → i ≠ .crcRange →
    ∃ t, exec i s = .next t ∧ t.crcAcc = s.crcAcc ∧
      exec i (s.setCrcAcc x) = .next (t.setCrcAcc x)) ∧
  (∀ s t : State, step s = .next t → t.crcAcc ≠ s.crcAcc →
    (∃ v rest, s.inputs = .regWrite (regAddr 0x038) v :: rest) ∨
    (∃ v rest, s.inputs = .regWrite (regAddr 0x03C) v :: rest) ∨
    (∃ rest, s.inputs = .reset :: rest) ∨
    ((s.inputs = [] ∨ ∃ rest, s.inputs = .engineTurn :: rest) ∧
      s.engine = .pending 0x1 false))

/-! ### Framer -/

/-- R120, whole, with R128 and R129 written out: FRAME. -/
def Obligations.FrameBuildsChunk : Prop :=
  ∀ (s : State) (src len dst : Nat) (tag d : List Byte) (c : Word),
    src = s.ops.src.toNat → len = s.ops.len.toNat → dst = s.ops.dst.toNat →
    tag = toBE32 s.ops.type → d = memRead s.buf src len → c = crc32 (tag ++ d) →
    encode .frame = ⟨regAddr 0x000, 0x00000002⟩ ∧
    ((∃ b ∈ tag, 0x80 ≤ b.toNat) → exec .frame s = .next { s with
      engine := .idle
      status := { s.status with
        busy := false, done := true, err := true, errcode := 1, valid := false } }) ∧
    ((∀ b ∈ tag, b.toNat < 0x80) → 0xFFFFFFF3 < len → exec .frame s = .next { s with
      engine := .idle
      status := { s.status with
        busy := false, done := true, err := true, errcode := 5, valid := false } }) ∧
    ((∀ b ∈ tag, b.toNat < 0x80) → len ≤ 0xFFFFFFF3 →
      (2 ^ s.cfg.bufAw < src + len ∨ 2 ^ s.cfg.bufAw < dst + 12 + len) →
      exec .frame s = .next { s with
        engine := .idle
        status := { s.status with
          busy := false, done := true, err := true, errcode := 9, valid := false } }) ∧
    ((∀ b ∈ tag, b.toNat < 0x80) → len ≤ 0xFFFFFFF3 → src + len ≤ 2 ^ s.cfg.bufAw →
      dst + 12 + len ≤ 2 ^ s.cfg.bufAw →
      (0 < len ∧ src ≠ dst + 8 ∧ src < dst + 12 + len ∧ dst < src + len) →
      exec .frame s = .next { s with
        engine := .idle
        status := { s.status with
          busy := false, done := true, err := true, errcode := 10, valid := false } }) ∧
    ((∀ b ∈ tag, b.toNat < 0x80) → len ≤ 0xFFFFFFF3 → src + len ≤ 2 ^ s.cfg.bufAw →
      dst + 12 + len ≤ 2 ^ s.cfg.bufAw →
      ¬ (0 < len ∧ src ≠ dst + 8 ∧ src < dst + 12 + len ∧ dst < src + len) →
      ∃ m, exec .frame s = .next { s with
          buf := m
          chunk := { type := s.ops.type, len := s.ops.len, data := BitVec.ofNat 32 (dst + 8)
                     stored := c, computed := c, endAddr := BitVec.ofNat 32 (dst + 12 + len) }
          engine := .idle
          status := { s.status with
            busy := false, done := true, err := false, errcode := 0, valid := false } } ∧
        memRead m dst (12 + len) = toBE32 s.ops.len ++ tag ++ d ++ toBE32 c ∧
        ∀ a, a < dst ∨ dst + 12 + len ≤ a → bufByte m a = bufByte s.buf a)

/-- R121: a chunk that FRAME built is reported valid by PARSE_AT and PARSE_AT.S at OFFSET = DST + 4
in every window that contains it, with R_LEN = LEN. -/
def Obligations.FramedChunkParsesValid : Prop :=
  ∀ (s t : State) (base limit : Word), exec .frame s = .next t → t.status.err = false →
    base.toNat ≤ s.ops.dst.toNat → s.ops.dst.toNat + 12 + s.ops.len.toNat ≤ limit.toNat →
    limit.toNat ≤ bufSize s →
    ∀ i ∈ [Instr.parseAt, .parseAtS],
      exec i (t.setOps { t.ops with base := base, limit := limit, offset := s.ops.dst + 4 })
        = .next { t with
            ops := { t.ops with base := base, limit := limit, offset := s.ops.dst + 4 }
            status := { t.status with valid := true } } ∧
      t.chunk.len = s.ops.len

/-- R129: in-place framing succeeds and leaves the data bytes as they were. -/
def Obligations.InPlaceFramingKeepsTheData : Prop :=
  ∀ s : State, (∀ b ∈ toBE32 s.ops.type, b.toNat < 0x80) →
    s.ops.src.toNat = s.ops.dst.toNat + 8 →
    s.ops.dst.toNat + 12 + s.ops.len.toNat ≤ bufSize s → bufSize s < 2 ^ 32 →
    ∃ t, exec .frame s = .next t ∧ t.status.err = false ∧
      ∀ a, (a < s.ops.dst.toNat ∨ (s.ops.dst.toNat + 8 ≤ a ∧
          a < s.ops.dst.toNat + 8 + s.ops.len.toNat) ∨
          s.ops.dst.toNat + 12 + s.ops.len.toNat ≤ a) →
        bufByte t.buf a = bufByte s.buf a

/-- R122, whole, with R67: FRAME_HDR. -/
def Obligations.FrameHdrBuildsHeader : Prop :=
  ∀ (s : State) (dst : Nat) (h : List Byte) (c : Word),
    dst = s.ops.dst.toNat →
    h = toBE32 s.ops.width ++ toBE32 s.ops.height ++
      [s.ops.hparam.extractLsb' 0 8, s.ops.hparam.extractLsb' 8 8, s.ops.hparam.extractLsb' 16 8,
       s.ops.hparam.extractLsb' 24 8, s.ops.hilace.extractLsb' 0 8] →
    c = crc32 ([0x49, 0x48, 0x44, 0x52] ++ h) →
    encode .frameHdr = ⟨regAddr 0x000, 0x00000003⟩ ∧
    (s.ops.width = 0 ∨ s.ops.height = 0 → exec .frameHdr s = .next { s with
      engine := .idle
      status := { s.status with
        busy := false, done := true, err := true, errcode := 3, valid := false } }) ∧
    (s.ops.width ≠ 0 → s.ops.height ≠ 0 → 2 ^ s.cfg.bufAw < dst + 25 →
      exec .frameHdr s = .next { s with
        engine := .idle
        status := { s.status with
          busy := false, done := true, err := true, errcode := 9, valid := false } }) ∧
    (s.ops.width ≠ 0 → s.ops.height ≠ 0 → dst + 25 ≤ 2 ^ s.cfg.bufAw →
      ∃ m, exec .frameHdr s = .next { s with
          buf := m
          chunk := { type := 0x49484452, len := 13, data := BitVec.ofNat 32 (dst + 8)
                     stored := c, computed := c, endAddr := BitVec.ofNat 32 (dst + 25) }
          engine := .idle
          status := { s.status with
            busy := false, done := true, err := false, errcode := 0, valid := false } } ∧
        memRead m dst 25
          = [0x00, 0x00, 0x00, 0x0D, 0x49, 0x48, 0x44, 0x52] ++ h ++ toBE32 c ∧
        ∀ a, a < dst ∨ dst + 25 ≤ a → bufByte m a = bufByte s.buf a)

/-- R123, whole, with R70: FRAME_END writes the twelve bytes of TERM. -/
def Obligations.FrameEndBuildsTerminal : Prop :=
  ∀ (s : State) (dst : Nat), dst = s.ops.dst.toNat →
    encode .frameEnd = ⟨regAddr 0x000, 0x00000004⟩ ∧
    (2 ^ s.cfg.bufAw < dst + 12 → exec .frameEnd s = .next { s with
      engine := .idle
      status := { s.status with
        busy := false, done := true, err := true, errcode := 9, valid := false } }) ∧
    (dst + 12 ≤ 2 ^ s.cfg.bufAw →
      ∃ m, exec .frameEnd s = .next { s with
          buf := m
          chunk := { type := 0x49454E44, len := 0, data := BitVec.ofNat 32 (dst + 8)
                     stored := 0xAE426082, computed := 0xAE426082
                     endAddr := BitVec.ofNat 32 (dst + 12) }
          engine := .idle
          status := { s.status with
            busy := false, done := true, err := false, errcode := 0, valid := false } } ∧
        memRead m dst 12
          = [0x00, 0x00, 0x00, 0x00, 0x49, 0x45, 0x4E, 0x44, 0xAE, 0x42, 0x60, 0x82] ∧
        ∀ a, a < dst ∨ dst + 12 ≤ a → bufByte m a = bufByte s.buf a)

/-- R124, whole, with R66: EMIT_SIG writes the signature and R_END only. -/
def Obligations.EmitSigWritesSignature : Prop :=
  ∀ (s : State) (dst : Nat), dst = s.ops.dst.toNat →
    encode .emitSig = ⟨regAddr 0x000, 0x00000005⟩ ∧
    (2 ^ s.cfg.bufAw < dst + 8 → exec .emitSig s = .next { s with
      engine := .idle
      status := { s.status with
        busy := false, done := true, err := true, errcode := 9, valid := false } }) ∧
    (dst + 8 ≤ 2 ^ s.cfg.bufAw →
      ∃ m, exec .emitSig s = .next { s with
          buf := m
          chunk := { s.chunk with endAddr := BitVec.ofNat 32 (dst + 8) }
          engine := .idle
          status := { s.status with
            busy := false, done := true, err := false, errcode := 0, valid := false } } ∧
        memRead m dst 8 = [137, 80, 78, 71, 13, 10, 26, 10] ∧
        ∀ a, a < dst ∨ dst + 8 ≤ a → bufByte m a = bufByte s.buf a)

/-- R124 (corner case), R127, R129, R68: EMIT_SIG at `a`, FRAME_HDR at `a + 8`, FRAME with tag
`IDAT` at `a + 33` and FRAME_END at the R_END of that FRAME build a container of one data chunk at
`a`, of the length R127 gives, from any data that lies clear of it or already in place at
`a + 41`. -/
def Obligations.FourCommandsBuildAContainer : Prop :=
  ∀ (s : State) (a : Nat) (d : List Byte), s.ops.width ≠ 0 → s.ops.height ≠ 0 →
    bufSize s < 2 ^ 32 → a + 57 + s.ops.len.toNat ≤ bufSize s →
    s.ops.src.toNat + s.ops.len.toNat ≤ bufSize s →
    (s.ops.src.toNat + s.ops.len.toNat ≤ a ∨ a + 57 + s.ops.len.toNat ≤ s.ops.src.toNat ∨
      s.ops.src.toNat = a + 41) →
    d = memRead s.buf s.ops.src.toNat s.ops.len.toNat →
    ∃ s1 s2 s3 s4,
      exec .emitSig (s.setOps { s.ops with dst := BitVec.ofNat 32 a }) = .next s1 ∧
      exec .frameHdr (s1.setOps { s1.ops with dst := BitVec.ofNat 32 (a + 8) }) = .next s2 ∧
      exec .frame (s2.setOps { s2.ops with
        dst := BitVec.ofNat 32 (a + 33), type := 0x49444154 }) = .next s3 ∧
      exec .frameEnd (s3.setOps { s3.ops with dst := s3.chunk.endAddr }) = .next s4 ∧
      s1.status.err = false ∧ s2.status.err = false ∧ s3.status.err = false ∧
      s4.status.err = false ∧
      HoldsAt s4.buf a (container (headerRecord s.ops) [d]) ∧
      (container (headerRecord s.ops) [d]).length = 8 + 25 + (12 + s.ops.len.toNat) + 12 ∧
      s4.chunk.endAddr.toNat = a + 57 + s.ops.len.toNat

/-! ### Parser -/

/-- R150, whole: PARSE_AT (S = 0) and PARSE_AT.S (S = 1). -/
def Obligations.ParseAtExaminesChunk : Prop :=
  ∀ (s : State) (strict : Bool) (i : Instr) (t base limit : Nat) (L stored computed : Word)
    (tag : List Byte),
    i = (if strict then .parseAtS else .parseAt) →
    t = s.ops.offset.toNat → base = s.ops.base.toNat → limit = s.ops.limit.toNat →
    L = ofBE32 (memRead s.buf (t - 4) 4) → tag = memRead s.buf t 4 →
    stored = ofBE32 (memRead s.buf (t + 4 + L.toNat) 4) →
    computed = crc32 (memRead s.buf t (4 + L.toNat)) →
    encode i = ⟨regAddr 0x000, if strict then 0x00000016 else 0x00000006⟩ ∧
    (¬ (base ≤ limit ∧ limit ≤ 2 ^ s.cfg.bufAw) → exec i s = .next { s with
      engine := .idle
      status := { s.status with
        busy := false, done := true, err := true, errcode := 9, valid := false } }) ∧
    (base ≤ limit → limit ≤ 2 ^ s.cfg.bufAw → (t < base + 4 ∨ limit < t + 8) →
      exec i s = .next { s with
        engine := .idle
        status := { s.status with
          busy := false, done := true, err := true, errcode := 4, valid := false } }) ∧
    (limit ≤ 2 ^ s.cfg.bufAw → base + 4 ≤ t → t + 8 ≤ limit →
      (strict = true ∧ ∃ b ∈ tag, 0x80 ≤ b.toNat) →
      exec i s = .next { s with
        engine := .idle
        status := { s.status with
          busy := false, done := true, err := true, errcode := 1, valid := false } }) ∧
    (limit ≤ 2 ^ s.cfg.bufAw → base + 4 ≤ t → t + 8 ≤ limit →
      (strict = true → ∀ b ∈ tag, b.toNat < 0x80) → limit < t + 8 + L.toNat →
      exec i s = .next { s with
        engine := .idle
        status := { s.status with
          busy := false, done := true, err := true, errcode := 4, valid := false } }) ∧
    (limit ≤ 2 ^ s.cfg.bufAw → base + 4 ≤ t → t + 8 + L.toNat ≤ limit →
      (strict = true → ∀ b ∈ tag, b.toNat < 0x80) →
      exec i s = .next { s with
        chunk := { type := ofBE32 tag, len := L, data := BitVec.ofNat 32 (t + 4)
                   stored := stored, computed := computed
                   endAddr := BitVec.ofNat 32 (t + 8 + L.toNat) }
        engine := .idle
        status := { s.status with
          busy := false
          done := true
          err := strict && decide (stored ≠ computed)
          errcode := if strict = true ∧ stored ≠ computed then 2 else 0
          valid := decide (stored = computed) } })

/-- R155: where the tag is ASCII and the checksum matches, PARSE_AT and PARSE_AT.S give the
same state; where they differ, the strict form raised INVALID_TYPE_TAG or CHECKSUM_MISMATCH, and in
the second case the lenient form finished with VALID = 0 and the same result registers. -/
def Obligations.LenientAndStrictAgree : Prop :=
  ∀ s : State, ∃ t u, exec .parseAt s = .next t ∧ exec .parseAtS s = .next u ∧
    ((∀ b ∈ memRead s.buf s.ops.offset.toNat 4, b.toNat < 0x80) → t.status.valid = true → u = t) ∧
    (u ≠ t → u.status.errcode = 1 ∨ u.status.errcode = 2) ∧
    (u.status.errcode = 2 → t.status.err = false ∧ t.status.valid = false ∧ t.chunk = u.chunk)

/-- R154, whole: PARSE_AT writes only STATUS (less the scan flags and VIOL) and R_TYPE .. R_END. -/
def Obligations.ParserLeavesScanResultsAlone : Prop :=
  ∀ (s : State) (i : Instr), i = .parseAt ∨ i = .parseAtS →
    ∃ (st : Status) (c : ChunkRegs),
      exec i s = .next { s with status := st, chunk := c, engine := .idle } ∧
      st.hdrFound = s.status.hdrFound ∧ st.termFound = s.status.termFound ∧
      st.resOvf = s.status.resOvf ∧ st.viol = s.status.viol

/-- R75: PARSE_AT, PARSE_AT.S, SCAN and DECODE read no byte outside their window: on two memories
that agree on `[BASE, LIMIT)` they do the same. -/
def Obligations.ParsersReadOnlyTheirWindow : Prop :=
  ∀ (s : State) (m : Memory) (i : Instr), i ∈ [Instr.parseAt, .parseAtS, .scan, .decode] →
    AgreeOn s.buf m s.ops.base.toNat s.ops.limit.toNat →
    ∃ t, exec i s = .next t ∧ exec i (s.setBuf m) = .next (t.setBuf m)

/-! ### Scanner -/

/-- R170, R171, R200, R201: how SCAN ends. Its only error is ADDRESS_RANGE, which leaves the
counters, the latched header and the scan flags cleared and RES alone; otherwise it finishes, with
VALID = 1 exactly when no record was bad. It never writes BUF, R_TYPE .. R_END or CRC_ACC. -/
def Obligations.ScanRaisesOnlyAddressRange : Prop :=
  ∀ s : State,
    (¬ (s.ops.base.toNat ≤ s.ops.limit.toNat ∧ s.ops.limit.toNat ≤ 2 ^ s.cfg.bufAw) →
      exec .scan s = .next { s with
        counts := { nrec := 0, nmatch := 0, nbad := 0, nihdr := 0, nidat := 0, niend := 0 }
        header := { width := 0, height := 0, hparam := 0, hilace := 0 }
        engine := .idle
        status := { s.status with
          busy := false, done := true, err := true, errcode := 9, valid := false
          hdrFound := false, termFound := false, resOvf := false } }) ∧
    (s.ops.base.toNat ≤ s.ops.limit.toNat → s.ops.limit.toNat ≤ 2 ^ s.cfg.bufAw →
      ∃ t, exec .scan s = .next t ∧ t.status.err = false ∧ t.status.errcode = 0 ∧
        (t.status.valid = true ↔ t.counts.nbad = 0) ∧
        t = { s with
          counts := t.counts, header := t.header, res := t.res, status := t.status
          engine := .idle } ∧
        (s.ops.limit.toNat - s.ops.base.toNat < 4 → t.status.valid = true ∧
          t.counts = CountRegs.zero ∧ t.res = s.res))

/-- R171, R178, R179: SCAN's loop is the rule's `while` loop: with at least `LIMIT - p` iterations
allowed it obeys the loop's equation, so the bound SCAN uses cuts nothing off. -/
def Obligations.ScanLoopIsTheWhileLoop : Prop :=
  ∀ (n p : Nat) (s : State), s.ops.limit.toNat - p ≤ n →
    scanLoop n p s =
      if p + 4 ≤ s.ops.limit.toNat then
        if kindOf (memRead s.buf p 4) = .other then scanLoop n (p + 1) s
        else
          scanLoop n (scanAdvance (scanRecord s (memRead s.buf p 4) p) p)
            (scanCommit (scanRecord s (memRead s.buf p 4) p) s)
      else s

/-- R47, R48, R171, R172, R175, R176, R178, R189: what the records of a SCAN say is so, word by word
and flag by flag. Every record names a tag of the window, of one of the three kinds. LEN_KNOWN = 1
exactly where the field before the tag lies in the window, and LEN is that field, else 0. TRUNC = 1
exactly where the length is not known or the chunk does not end in the window, and then both
checksums are 0; else they are the stored and the computed one. VALID = 1 exactly where they were
read and agree, and only then DATA_ADDR is not 0. MALFORMED = 1 exactly for a valid header chunk of
another length than 13. INDEX counts the records of the same kind before it. The next record's tag
stands after the chunk if that is valid, else after the first byte of its tag. -/
def Obligations.ScanRecordsAreSound : Prop :=
  ∀ s t : State, exec .scan s = .next t → t.status.err = false → s.cfg.wf = true →
    ∀ (j p limit : Nat) (r : ResRecord) (k : Kind) (valid trunc lenKnown malformed : Bool),
      j < t.counts.nrec.toNat → r = resRecord t.res j → p = r.tagAddr.toNat →
      limit = s.ops.limit.toNat → k = kindOf (memRead s.buf p 4) → valid = r.flags.getLsbD 0 →
      trunc = r.flags.getLsbD 1 → lenKnown = r.flags.getLsbD 2 → malformed = r.flags.getLsbD 3 →
      s.ops.base.toNat ≤ p ∧ p + 4 ≤ limit ∧ k ≠ .other ∧ r.tag = ofBE32 (memRead s.buf p 4) ∧
      r.flags.extractLsb' 8 2 = BitVec.ofNat 2 k.num ∧
      r.flags.extractLsb' 4 4 = 0 ∧ r.flags.extractLsb' 10 22 = 0 ∧
      (lenKnown = true ↔ s.ops.base.toNat + 4 ≤ p) ∧
      r.len = (if lenKnown then ofBE32 (memRead s.buf (p - 4) 4) else 0) ∧
      (trunc = true ↔ lenKnown = false ∨ limit < p + 8 + r.len.toNat) ∧
      (trunc = true → r.stored = 0 ∧ r.computed = 0) ∧
      (trunc = false → r.stored = ofBE32 (memRead s.buf (p + 4 + r.len.toNat) 4) ∧
        r.computed = crc32 (memRead s.buf p (4 + r.len.toNat))) ∧
      (valid = true ↔ trunc = false ∧ r.stored = r.computed) ∧
      r.dataAddr.toNat = (if valid then p + 4 else 0) ∧
      (malformed = true ↔ k = .ihdr ∧ valid = true ∧ r.len ≠ 13) ∧
      r.index.toNat = ((List.range j).filter (fun m =>
        (resRecord t.res m).flags.extractLsb' 8 2 = r.flags.extractLsb' 8 2)).length ∧
      (j + 1 < t.counts.nrec.toNat → (if valid then p + 8 + r.len.toNat else p + 1)
        ≤ (resRecord t.res (j + 1)).tagAddr.toNat)

/-- R179: SCAN of a window that holds exactly a container whose length fields are no tag values
makes n + 2 records, all valid, in the container's order, latches the header and finds the terminal
chunk. -/
def Obligations.ScanFindsEveryChunkOfAContainer : Prop :=
  ∀ (s : State) (hdr : List Byte) (ds : List (List Byte)),
    hdr.length = 13 → ds ≠ [] →
    (∀ d ∈ ds, d.length ≠ 0x49484452 ∧ d.length ≠ 0x49444154 ∧ d.length ≠ 0x49454E44) →
    HoldsAt s.buf s.ops.base.toNat (container hdr ds) →
    s.ops.limit.toNat = s.ops.base.toNat + (container hdr ds).length →
    s.ops.limit.toNat ≤ bufSize s →
    ∃ t, exec .scan s = .next t ∧ t.status.err = false ∧ t.status.valid = true ∧
      t.status.hdrFound = true ∧ t.status.termFound = true ∧
      t.counts.nmatch.toNat = ds.length + 2 ∧ t.counts.nbad = 0 ∧ t.counts.nihdr = 1 ∧
      t.counts.nidat.toNat = ds.length ∧ t.counts.niend = 1 ∧
      t.header = { width := ofBE32 (hdr.take 4), height := ofBE32 ((hdr.drop 4).take 4)
                   hparam := ofBE32 ((hdr.drop 8).take 4).reverse
                   hilace := (hdr.getD 12 0).setWidth 32 } ∧
      (ds.length + 2 ≤ s.cfg.resDepth →
        t.status.resOvf = false ∧ t.counts.nrec.toNat = ds.length + 2 ∧
        (resRecord t.res 0).tag = 0x49484452 ∧ (resRecord t.res 0).len = 13 ∧
        HoldsAt t.buf (resRecord t.res 0).dataAddr.toNat hdr ∧
        (∀ k d, ds[k]? = some d → (resRecord t.res (k + 1)).tag = 0x49444154 ∧
          (resRecord t.res (k + 1)).index.toNat = k ∧
          (resRecord t.res (k + 1)).len.toNat = d.length ∧
          HoldsAt t.buf (resRecord t.res (k + 1)).dataAddr.toNat d) ∧
        (resRecord t.res (ds.length + 1)).tag = 0x49454E44 ∧
        (resRecord t.res (ds.length + 1)).len = 0 ∧
        (resRecord t.res (ds.length + 1)).dataAddr.toNat + 4 = s.ops.limit.toNat ∧
        ∀ j, j < ds.length + 2 → (resRecord t.res j).flags.getLsbD 0 = true ∧
          (resRecord t.res j).flags.getLsbD 3 = false)

/-! ### Decoder -/

/-- R170, R180 to R184, R202: the errors of DECODE in their order of priority, each with the state
it leaves. First the window and the signature. Then the first chunk that is not accepted, at address
`p` after the signature, an accepted header of dimensions `h` and accepted data chunks of data `ds`:
no room for its length and tag, a tag that is not ASCII, a declared length past LIMIT, a checksum
that differs, and last its place in the container (a header missing or not the default one, or
another chunk than R183 allows). The failing chunk has a record where its length and tag were read;
R_TYPE .. R_END are those of the last chunk whose checksum was computed (R186). -/
def Obligations.DecodeRaisesItsErrorsInOrder : Prop :=
  (∀ (s : State) (code : BitVec 4),
    code = (if ¬ (s.ops.base.toNat ≤ s.ops.limit.toNat ∧ s.ops.limit.toNat ≤ 2 ^ s.cfg.bufAw) then 9
      else if s.ops.limit.toNat < s.ops.base.toNat + 8 then 4
      else if memRead s.buf s.ops.base.toNat 8 ≠ [0x89, 0x50, 0x4E, 0x47, 0x0D, 0x0A, 0x1A, 0x0A]
      then 6 else 0) →
    code ≠ 0 →
    exec .decode s = .next { s with
      counts := { nrec := 0, nmatch := 0, nbad := 0, nihdr := 0, nidat := 0, niend := 0 }
      header := { width := 0, height := 0, hparam := 0, hilace := 0 }
      engine := .idle
      status := { s.status with
        busy := false, done := true, err := true, errcode := code, valid := false
        hdrFound := false, termFound := false, resOvf := false } }) ∧
  (∀ (s : State) (h : Option (Word × Word)) (ds : List (List Byte)) (p limit n made : Nat)
    (tag : List Byte) (len stored computed : Word) (code : BitVec 4),
    limit = s.ops.limit.toNat → limit ≤ 2 ^ s.cfg.bufAw →
    (h = none → ds = []) → (∀ d ∈ h, d.1 ≠ 0 ∧ d.2 ≠ 0) →
    HoldsAt s.buf s.ops.base.toNat (openContainer h ds) →
    p = s.ops.base.toNat + (openContainer h ds).length → p ≤ limit →
    tag = memRead s.buf (p + 4) 4 → len = ofBE32 (memRead s.buf p 4) →
    stored = ofBE32 (memRead s.buf (p + 8 + len.toNat) 4) →
    computed = crc32 (memRead s.buf (p + 4) (4 + len.toNat)) →
    code = (if limit < p + 8 then 4
      else if ∃ b ∈ tag, 0x80 ≤ b.toNat then 1
      else if limit < p + 12 + len.toNat then 4
      else if stored ≠ computed then 2
      else if h = none then
        if tag = [0x49, 0x48, 0x44, 0x52] ∧ len = 13 ∧ ofBE32 (memRead s.buf (p + 8) 4) ≠ 0 ∧
          ofBE32 (memRead s.buf (p + 12) 4) ≠ 0 ∧ memRead s.buf (p + 16) 5 = [8, 2, 0, 0, 0]
        then 0 else 3
      else if tag = [0x49, 0x44, 0x41, 0x54] then 0
      else if ds ≠ [] ∧ tag = [0x49, 0x45, 0x4E, 0x44] ∧ len = 0 then 0 else 7) →
    code ≠ 0 →
    n = (if h = none then 0 else ds.length + 1) → made = (if limit < p + 8 then n else n + 1) →
    ∃ t, exec .decode s = .next t ∧
      t.status.err = true ∧ t.status.errcode = code ∧ t.status.valid = false ∧
      t.status.termFound = false ∧ t.status.hdrFound = h.isSome ∧
      t.header = (match h with
        | none => { width := 0, height := 0, hparam := 0, hilace := 0 }
        | some d => { width := d.1, height := d.2, hparam := 0x00000208, hilace := 0 }) ∧
      t.counts.nmatch.toNat = made ∧ t.counts.nrec.toNat = min made s.cfg.resDepth ∧
      (t.status.resOvf = true ↔ s.cfg.resDepth < made) ∧
      t.counts.nbad = (if limit < p + 8 ∨ code = 3 ∨ code = 7 then 0 else 1) ∧
      (p + 8 ≤ limit → n < s.cfg.resDepth → resRecord t.res n = {
        tag := ofBE32 tag
        flags := BitVec.ofNat 32 (256 * (kindOf tag).num + 4 +
          (if code = 3 ∨ code = 7 then 1 else 0) + (if code = 4 then 2 else 0) +
          (if code = 3 ∧ tag = [0x49, 0x48, 0x44, 0x52] then 8 else 0))
        tagAddr := BitVec.ofNat 32 (p + 4)
        len := len
        dataAddr := if code = 3 ∨ code = 7 then BitVec.ofNat 32 (p + 8) else 0
        stored := if code = 1 ∨ code = 4 then 0 else stored
        computed := if code = 1 ∨ code = 4 then 0 else computed
        index := if tag = [0x49, 0x48, 0x44, 0x52] ∧ h ≠ none then 1
          else if tag = [0x49, 0x44, 0x41, 0x54] then BitVec.ofNat 32 ds.length else 0 }) ∧
      (code = 2 ∨ code = 3 ∨ code = 7 → t.chunk = {
        type := ofBE32 tag, len := len, data := BitVec.ofNat 32 (p + 8)
        stored := stored, computed := computed, endAddr := BitVec.ofNat 32 (p + 12 + len.toNat) }) ∧
      (code = 1 ∨ code = 4 → t.chunk = (match h, ds.getLast? with
        | none, _ => s.chunk
        | some d, none => builtChunk (p - 25) 0x49484452 (defaultHeader d.1 d.2)
        | some _, some d => builtChunk (p - (12 + d.length)) 0x49444154 d)))

/-- R188, R184, R186: DECODE of a window that begins with a container with a default header of
nonzero dimensions succeeds: n + 2 records, the header latched, R_TYPE .. R_END those of the
terminal chunk, and the stored records locating the data chunks' bytes. -/
def Obligations.DecodeAcceptsEveryContainer : Prop :=
  ∀ (s : State) (width height : Word) (ds : List (List Byte)) (z : Nat),
    width ≠ 0 → height ≠ 0 → ds ≠ [] → s.cfg.wf = true →
    HoldsAt s.buf s.ops.base.toNat (container (defaultHeader width height) ds) →
    z = s.ops.base.toNat + (container (defaultHeader width height) ds).length →
    z ≤ s.ops.limit.toNat → s.ops.limit.toNat ≤ bufSize s →
    ∃ t, exec .decode s = .next t ∧ t.status.err = false ∧ t.status.errcode = 0 ∧
      t.status.valid = true ∧ t.status.hdrFound = true ∧ t.status.termFound = true ∧
      t.counts.nmatch.toNat = ds.length + 2 ∧ t.counts.nbad = 0 ∧ t.counts.nihdr = 1 ∧
      t.counts.nidat.toNat = ds.length ∧ t.counts.niend = 1 ∧
      t.counts.nrec.toNat = min (ds.length + 2) s.cfg.resDepth ∧
      t.header = { width := width, height := height, hparam := 0x00000208, hilace := 0 } ∧
      t.chunk = { type := 0x49454E44, len := 0, data := BitVec.ofNat 32 (z - 4)
                  stored := 0xAE426082, computed := 0xAE426082, endAddr := BitVec.ofNat 32 z } ∧
      (∀ k d, ds[k]? = some d → k + 1 < s.cfg.resDepth →
        (resRecord t.res (k + 1)).len.toNat = d.length ∧
        HoldsAt t.buf (resRecord t.res (k + 1)).dataAddr.toNat d)

/-- R68, R181, R183 to R186: what a successful DECODE means. A container with a default header of
nonzero dimensions and at least one data chunk stands at BASE and ends at R_END; the counters count
its chunks, none of them bad; the header latched is its header, and R_TYPE .. R_END are those of its
terminal chunk. -/
def Obligations.DecodeSuccessMeansAContainer : Prop :=
  ∀ s t : State, exec .decode s = .next t → t.status.err = false → s.cfg.wf = true →
    t.status.valid = true ∧ t.status.hdrFound = true ∧ t.status.termFound = true ∧
    t.counts.nbad = 0 ∧ t.counts.nihdr = 1 ∧ 1 ≤ t.counts.nidat.toNat ∧ t.counts.niend = 1 ∧
    t.counts.nmatch.toNat = t.counts.nidat.toNat + 2 ∧
    t.header.width ≠ 0 ∧ t.header.height ≠ 0 ∧ t.header.hparam = 0x00000208 ∧
    t.header.hilace = 0 ∧
    t.chunk.type = 0x49454E44 ∧ t.chunk.len = 0 ∧ t.chunk.stored = 0xAE426082 ∧
    t.chunk.computed = 0xAE426082 ∧ t.chunk.data.toNat + 4 = t.chunk.endAddr.toNat ∧
    t.chunk.endAddr.toNat ≤ s.ops.limit.toNat ∧
    memRead s.buf s.ops.base.toNat 8 = [0x89, 0x50, 0x4E, 0x47, 0x0D, 0x0A, 0x1A, 0x0A] ∧
    ∃ (width height : Word) (ds : List (List Byte)), width ≠ 0 ∧ height ≠ 0 ∧ ds ≠ [] ∧
      HoldsAt s.buf s.ops.base.toNat (container (defaultHeader width height) ds) ∧
      t.chunk.endAddr.toNat
        = s.ops.base.toNat + (container (defaultHeader width height) ds).length ∧
      t.header.width = width ∧ t.header.height = height ∧ t.counts.nidat.toNat = ds.length

/-- R188: every stored record of a DECODE but the last has VALID = 1 and MALFORMED = 0, so at most
one record is bad. Where no record was dropped, one is bad exactly when DECODE ended with
INVALID_TYPE_TAG, CHECKSUM_MISMATCH, or TRUNCATED_BUFFER with a last record that has TRUNC = 1. -/
def Obligations.DecodeMakesAtMostOneBadRecord : Prop :=
  ∀ s t : State, exec .decode s = .next t → s.cfg.wf = true →
    (t.counts.nbad = 0 ∨ t.counts.nbad = 1) ∧
    (∀ j, j + 1 < t.counts.nrec.toNat → (resRecord t.res j).flags.getLsbD 0 = true ∧
      (resRecord t.res j).flags.getLsbD 3 = false) ∧
    (t.status.resOvf = false → (t.counts.nbad = 1 ↔
      t.status.errcode = 1 ∨ t.status.errcode = 2 ∨ (t.status.errcode = 4 ∧
        0 < t.counts.nrec.toNat ∧
        (resRecord t.res (t.counts.nrec.toNat - 1)).flags.getLsbD 1 = true)))

/-- R182, R186: what R_TYPE .. R_END hold after DECODE, however it ended. After a success,
CHECKSUM_MISMATCH, MALFORMED_HEADER or BAD_STRUCTURE they describe a chunk of the window, whose
checksums differ exactly after CHECKSUM_MISMATCH. Where no record was dropped (R173) they are those
of the last of the `n` records whose checksum was computed: the last record of all, unless that is
the bad one of an INVALID_TYPE_TAG or a TRUNCATED_BUFFER; and with no such record they keep their
values. (`DecodeRaisesItsErrorsInOrder` says the same of every failing end with no premise on
RES.) -/
def Obligations.DecodeReportsItsLastChunk : Prop :=
  (∀ (s t : State) (a : Nat), exec .decode s = .next t →
    t.status.errcode ∈ [0#4, 2, 3, 7] → a = t.chunk.data.toNat - 4 →
    s.ops.base.toNat + 12 ≤ a ∧ a + 8 + t.chunk.len.toNat ≤ s.ops.limit.toNat ∧
      t.chunk.type = ofBE32 (memRead s.buf a 4) ∧
      t.chunk.len = ofBE32 (memRead s.buf (a - 4) 4) ∧
      t.chunk.stored = ofBE32 (memRead s.buf (a + 4 + t.chunk.len.toNat) 4) ∧
      t.chunk.computed = crc32 (memRead s.buf a (4 + t.chunk.len.toNat)) ∧
      t.chunk.endAddr.toNat = a + 8 + t.chunk.len.toNat ∧
      (t.chunk.stored ≠ t.chunk.computed ↔ t.status.errcode = 2)) ∧
  (∀ (s t : State) (n : Nat) (r : ResRecord), exec .decode s = .next t → s.cfg.wf = true →
    t.status.resOvf = false →
    n = (if t.status.errcode = 2 then t.counts.nrec.toNat
      else t.counts.nrec.toNat - t.counts.nbad.toNat) →
    r = resRecord t.res (n - 1) →
    t.chunk = (if n = 0 then s.chunk else {
      type := r.tag, len := r.len, data := r.tagAddr + 4, stored := r.stored
      computed := r.computed, endAddr := r.tagAddr + 8 + r.len }) ∧
    (t.status.errcode ∈ [0#4, 2, 3, 7] → 0 < n ∧ n = t.counts.nrec.toNat))

/-- R188, third property: after a successful DECODE a SCAN of `[BASE + 8, R_END)` or of
`[BASE, R_END)` gives the same records: it leaves every register, STATUS, RES and BUF as DECODE left
them. The premise is R179's, that no length field of the container (which stands at BASE and ends at
R_END, `DecodeSuccessMeansAContainer`) equals a tag value; it is met by any container where
`BUF_AW <= 30`. -/
def Obligations.ScanAgreesWithDecode : Prop :=
  ∀ (s t : State) (o : OperandRegs), exec .decode s = .next t → t.status.err = false →
    s.cfg.wf = true →
    (s.cfg.bufAw ≤ 30 ∨ ∃ (width height : Word) (ds : List (List Byte)),
      HoldsAt s.buf s.ops.base.toNat (container (defaultHeader width height) ds) ∧
      t.chunk.endAddr.toNat
        = s.ops.base.toNat + (container (defaultHeader width height) ds).length ∧
      ∀ d ∈ ds, d.length ≠ 0x49484452 ∧ d.length ≠ 0x49444154 ∧ d.length ≠ 0x49454E44) →
    (o = { t.ops with base := s.ops.base + 8, limit := t.chunk.endAddr } ∨
      o = { t.ops with limit := t.chunk.endAddr }) →
    exec .scan (t.setOps o) = .next (t.setOps o)

/-- R187: a successful DECODE does not depend on any byte at or after R_END. -/
def Obligations.DecodeIgnoresBytesAfterTheContainer : Prop :=
  ∀ (s t : State) (m : Memory), exec .decode s = .next t → t.status.err = false →
    s.cfg.wf = true →
    AgreeOn s.buf m s.ops.base.toNat t.chunk.endAddr.toNat →
    exec .decode (s.setBuf m) = .next (t.setBuf m)

/-! ### Invariants and whole-machine rules -/

/-- R20, R82, R24, R238: every step keeps the engine's invariant. -/
def Obligations.EveryStepKeepsEngineInv : Prop :=
  ∀ s t : State, EngineInv s → step s = .next t → EngineInv t

/-- R200, R204: every step keeps ERR, ERRCODE and VALID consistent, with no reserved code. -/
def Obligations.EveryStepKeepsErrorInv : Prop :=
  ∀ s t : State, ErrorInv s → step s = .next t → ErrorInv t

/-- R22, R27, R35, R45: every step keeps the reserved bits 0. -/
def Obligations.EveryStepKeepsReservedInv : Prop :=
  ∀ s t : State, ReservedInv s → step s = .next t → ReservedInv t

/-- R60, R47: every step keeps the memories in range, and in canonical form (the model's own,
assumption 2). -/
def Obligations.EveryStepKeepsStorageInv : Prop :=
  ∀ s t : State, StorageInv s → step s = .next t → StorageInv t

/-- R43, R45, R173: every step keeps R_NREC within the table, and the latched header registers 0
where no header is latched. -/
def Obligations.EveryStepKeepsTableInv : Prop :=
  ∀ s t : State, TableInv s → step s = .next t → TableInv t

/-- R231, R232: the power-on state of every CFP meets the invariants. The default parameters are the
model's choice (assumption 1). -/
def Obligations.PowerOnMeetsTheInvariants : Prop :=
  (∀ p : Params, EngineInv (State.powerOn p) ∧ ErrorInv (State.powerOn p) ∧
    ReservedInv (State.powerOn p) ∧ StorageInv (State.powerOn p) ∧ TableInv (State.powerOn p)) ∧
  Config.defaultParams.wf = true

/-- 93, introduction ("every host access and every pending command has a move"): from a state that
meets the engine's invariant a step always answers a next state. -/
def Obligations.EveryStepHasAMove : Prop :=
  ∀ s : State, EngineInv s → ∃ t, step s = .next t

/-- R21, R233: what becomes of a pending command. The accesses `pre` that come before leave the
state as it was, but for VIOL, the values returned and the draws. If the engine's turn comes next
(its own event, or no event left) it performs the command there, which completes; if a reset comes
first, the command is abandoned and does not complete. In every case the engine is idle after some
number of steps no greater than the number of events plus one. That the engine's turn comes when no
event is left is the model's finite form of weak fairness, and the list of events and the fields
`reads` and `draws` are the model's own (assumptions 3 and 5). -/
def Obligations.PendingCommandIsPerformed : Prop :=
  (∀ s : State, EngineInv s →
    ∃ k t, k ≤ s.inputs.length + 1 ∧ Host.Core.run core k s = .next t ∧ t.engine = .idle) ∧
  (∀ (s : State) (op : BitVec 4) (strict : Bool) (i : Instr) (pre post : List Event),
    EngineInv s → s.engine = .pending op strict → decodeFields op strict = .ok i →
    s.inputs = pre ++ post → .engineTurn ∉ pre → .reset ∉ pre →
    ((post = [] ∨ ∃ rest, post = .engineTurn :: rest) →
      ∃ u t, Host.Core.run core pre.length s = .next u ∧
        u = { s with
          inputs := post
          reads := u.reads
          draws := u.draws
          status := { s.status with viol := u.status.viol } } ∧
        step u = exec i { u with inputs := post.tail } ∧ step u = .next t ∧
        t.inputs = post.tail ∧ t.engine = .idle ∧ t.status.busy = false ∧
        t.status.done = true) ∧
    (∀ rest, post = .reset :: rest →
      ∃ t, Host.Core.run core (pre.length + 1) s = .next t ∧
        t.inputs = rest ∧ t.engine = .idle ∧ t.status.done = false))

/-- R89: WAIT ends: on every schedule on which the engine's turn comes after `k` polls, the last
poll reads BUSY = 0, and the `k` before it read BUSY = 1. The schedule is the model's own
(assumption 3). -/
def Obligations.WaitReadsBusyZero : Prop :=
  ∀ (s : State) (k : Nat), EngineInv s → s.status.busy = true → s.inputs = hostWait k →
    ∃ t w ws, Host.Core.run core (k + 2) s = .next t ∧
      t.reads = .reg w :: ws ++ s.reads ∧ ws.length = k ∧ w.getLsbD 0 = false ∧
      ∀ x ∈ ws, ∃ v, x = .reg v ∧ v.getLsbD 0 = true
end

