-- ==== Sys2Proof/Laws/State.lean ====
section
/-! SUPPORT. One lemma per field per named update of State, and per field of STATUS per event of
R209; and the bits of the STATUS word. -/

namespace Sys2Proof.Machine

/-! ### setStatus -/

@[simp] theorem State.setStatus_cfg (s : State) (x : Status) : (s.setStatus x).cfg = s.cfg := rfl
@[simp] theorem State.setStatus_cmd (s : State) (x : Status) : (s.setStatus x).cmd = s.cmd := rfl
@[simp] theorem State.setStatus_status (s : State) (x : Status) : (s.setStatus x).status = x := rfl
@[simp] theorem State.setStatus_irqen (s : State) (x : Status) :
    (s.setStatus x).irqen = s.irqen := rfl
@[simp] theorem State.setStatus_ops (s : State) (x : Status) : (s.setStatus x).ops = s.ops := rfl
@[simp] theorem State.setStatus_crcAcc (s : State) (x : Status) :
    (s.setStatus x).crcAcc = s.crcAcc := rfl
@[simp] theorem State.setStatus_chunk (s : State) (x : Status) :
    (s.setStatus x).chunk = s.chunk := rfl
@[simp] theorem State.setStatus_counts (s : State) (x : Status) :
    (s.setStatus x).counts = s.counts := rfl
@[simp] theorem State.setStatus_header (s : State) (x : Status) :
    (s.setStatus x).header = s.header := rfl
@[simp] theorem State.setStatus_res (s : State) (x : Status) : (s.setStatus x).res = s.res := rfl
@[simp] theorem State.setStatus_buf (s : State) (x : Status) : (s.setStatus x).buf = s.buf := rfl
@[simp] theorem State.setStatus_engine (s : State) (x : Status) :
    (s.setStatus x).engine = s.engine := rfl
@[simp] theorem State.setStatus_inputs (s : State) (x : Status) :
    (s.setStatus x).inputs = s.inputs := rfl
@[simp] theorem State.setStatus_reads (s : State) (x : Status) :
    (s.setStatus x).reads = s.reads := rfl
@[simp] theorem State.setStatus_draws (s : State) (x : Status) :
    (s.setStatus x).draws = s.draws := rfl

/-! ### setChunk -/

@[simp] theorem State.setChunk_cfg (s : State) (x : ChunkRegs) : (s.setChunk x).cfg = s.cfg := rfl
@[simp] theorem State.setChunk_cmd (s : State) (x : ChunkRegs) : (s.setChunk x).cmd = s.cmd := rfl
@[simp] theorem State.setChunk_status (s : State) (x : ChunkRegs) :
    (s.setChunk x).status = s.status := rfl
@[simp] theorem State.setChunk_irqen (s : State) (x : ChunkRegs) :
    (s.setChunk x).irqen = s.irqen := rfl
@[simp] theorem State.setChunk_ops (s : State) (x : ChunkRegs) : (s.setChunk x).ops = s.ops := rfl
@[simp] theorem State.setChunk_crcAcc (s : State) (x : ChunkRegs) :
    (s.setChunk x).crcAcc = s.crcAcc := rfl
@[simp] theorem State.setChunk_chunk (s : State) (x : ChunkRegs) : (s.setChunk x).chunk = x := rfl
@[simp] theorem State.setChunk_counts (s : State) (x : ChunkRegs) :
    (s.setChunk x).counts = s.counts := rfl
@[simp] theorem State.setChunk_header (s : State) (x : ChunkRegs) :
    (s.setChunk x).header = s.header := rfl
@[simp] theorem State.setChunk_res (s : State) (x : ChunkRegs) : (s.setChunk x).res = s.res := rfl
@[simp] theorem State.setChunk_buf (s : State) (x : ChunkRegs) : (s.setChunk x).buf = s.buf := rfl
@[simp] theorem State.setChunk_engine (s : State) (x : ChunkRegs) :
    (s.setChunk x).engine = s.engine := rfl
@[simp] theorem State.setChunk_inputs (s : State) (x : ChunkRegs) :
    (s.setChunk x).inputs = s.inputs := rfl
@[simp] theorem State.setChunk_reads (s : State) (x : ChunkRegs) :
    (s.setChunk x).reads = s.reads := rfl
@[simp] theorem State.setChunk_draws (s : State) (x : ChunkRegs) :
    (s.setChunk x).draws = s.draws := rfl

/-! ### setCounts -/

@[simp] theorem State.setCounts_cfg (s : State) (x : CountRegs) : (s.setCounts x).cfg = s.cfg := rfl
@[simp] theorem State.setCounts_cmd (s : State) (x : CountRegs) : (s.setCounts x).cmd = s.cmd := rfl
@[simp] theorem State.setCounts_status (s : State) (x : CountRegs) :
    (s.setCounts x).status = s.status := rfl
@[simp] theorem State.setCounts_irqen (s : State) (x : CountRegs) :
    (s.setCounts x).irqen = s.irqen := rfl
@[simp] theorem State.setCounts_ops (s : State) (x : CountRegs) : (s.setCounts x).ops = s.ops := rfl
@[simp] theorem State.setCounts_crcAcc (s : State) (x : CountRegs) :
    (s.setCounts x).crcAcc = s.crcAcc := rfl
@[simp] theorem State.setCounts_chunk (s : State) (x : CountRegs) :
    (s.setCounts x).chunk = s.chunk := rfl
@[simp] theorem State.setCounts_counts (s : State) (x : CountRegs) :
    (s.setCounts x).counts = x := rfl
@[simp] theorem State.setCounts_header (s : State) (x : CountRegs) :
    (s.setCounts x).header = s.header := rfl
@[simp] theorem State.setCounts_res (s : State) (x : CountRegs) : (s.setCounts x).res = s.res := rfl
@[simp] theorem State.setCounts_buf (s : State) (x : CountRegs) : (s.setCounts x).buf = s.buf := rfl
@[simp] theorem State.setCounts_engine (s : State) (x : CountRegs) :
    (s.setCounts x).engine = s.engine := rfl
@[simp] theorem State.setCounts_inputs (s : State) (x : CountRegs) :
    (s.setCounts x).inputs = s.inputs := rfl
@[simp] theorem State.setCounts_reads (s : State) (x : CountRegs) :
    (s.setCounts x).reads = s.reads := rfl
@[simp] theorem State.setCounts_draws (s : State) (x : CountRegs) :
    (s.setCounts x).draws = s.draws := rfl

/-! ### setHeader -/

@[simp] theorem State.setHeader_cfg (s : State) (x : HeaderRegs) :
    (s.setHeader x).cfg = s.cfg := rfl
@[simp] theorem State.setHeader_cmd (s : State) (x : HeaderRegs) :
    (s.setHeader x).cmd = s.cmd := rfl
@[simp] theorem State.setHeader_status (s : State) (x : HeaderRegs) :
    (s.setHeader x).status = s.status := rfl
@[simp] theorem State.setHeader_irqen (s : State) (x : HeaderRegs) :
    (s.setHeader x).irqen = s.irqen := rfl
@[simp] theorem State.setHeader_ops (s : State) (x : HeaderRegs) :
    (s.setHeader x).ops = s.ops := rfl
@[simp] theorem State.setHeader_crcAcc (s : State) (x : HeaderRegs) :
    (s.setHeader x).crcAcc = s.crcAcc := rfl
@[simp] theorem State.setHeader_chunk (s : State) (x : HeaderRegs) :
    (s.setHeader x).chunk = s.chunk := rfl
@[simp] theorem State.setHeader_counts (s : State) (x : HeaderRegs) :
    (s.setHeader x).counts = s.counts := rfl
@[simp] theorem State.setHeader_header (s : State) (x : HeaderRegs) :
    (s.setHeader x).header = x := rfl
@[simp] theorem State.setHeader_res (s : State) (x : HeaderRegs) :
    (s.setHeader x).res = s.res := rfl
@[simp] theorem State.setHeader_buf (s : State) (x : HeaderRegs) :
    (s.setHeader x).buf = s.buf := rfl
@[simp] theorem State.setHeader_engine (s : State) (x : HeaderRegs) :
    (s.setHeader x).engine = s.engine := rfl
@[simp] theorem State.setHeader_inputs (s : State) (x : HeaderRegs) :
    (s.setHeader x).inputs = s.inputs := rfl
@[simp] theorem State.setHeader_reads (s : State) (x : HeaderRegs) :
    (s.setHeader x).reads = s.reads := rfl
@[simp] theorem State.setHeader_draws (s : State) (x : HeaderRegs) :
    (s.setHeader x).draws = s.draws := rfl

/-! ### setRes -/

@[simp] theorem State.setRes_cfg (s : State) (x : List (Nat × ResRecord)) :
    (s.setRes x).cfg = s.cfg := rfl
@[simp] theorem State.setRes_cmd (s : State) (x : List (Nat × ResRecord)) :
    (s.setRes x).cmd = s.cmd := rfl
@[simp] theorem State.setRes_status (s : State) (x : List (Nat × ResRecord)) :
    (s.setRes x).status = s.status := rfl
@[simp] theorem State.setRes_irqen (s : State) (x : List (Nat × ResRecord)) :
    (s.setRes x).irqen = s.irqen := rfl
@[simp] theorem State.setRes_ops (s : State) (x : List (Nat × ResRecord)) :
    (s.setRes x).ops = s.ops := rfl
@[simp] theorem State.setRes_crcAcc (s : State) (x : List (Nat × ResRecord)) :
    (s.setRes x).crcAcc = s.crcAcc := rfl
@[simp] theorem State.setRes_chunk (s : State) (x : List (Nat × ResRecord)) :
    (s.setRes x).chunk = s.chunk := rfl
@[simp] theorem State.setRes_counts (s : State) (x : List (Nat × ResRecord)) :
    (s.setRes x).counts = s.counts := rfl
@[simp] theorem State.setRes_header (s : State) (x : List (Nat × ResRecord)) :
    (s.setRes x).header = s.header := rfl
@[simp] theorem State.setRes_res (s : State) (x : List (Nat × ResRecord)) :
    (s.setRes x).res = x := rfl
@[simp] theorem State.setRes_buf (s : State) (x : List (Nat × ResRecord)) :
    (s.setRes x).buf = s.buf := rfl
@[simp] theorem State.setRes_engine (s : State) (x : List (Nat × ResRecord)) :
    (s.setRes x).engine = s.engine := rfl
@[simp] theorem State.setRes_inputs (s : State) (x : List (Nat × ResRecord)) :
    (s.setRes x).inputs = s.inputs := rfl
@[simp] theorem State.setRes_reads (s : State) (x : List (Nat × ResRecord)) :
    (s.setRes x).reads = s.reads := rfl
@[simp] theorem State.setRes_draws (s : State) (x : List (Nat × ResRecord)) :
    (s.setRes x).draws = s.draws := rfl

/-! ### setBuf -/

@[simp] theorem State.setBuf_cfg (s : State) (x : Memory) : (s.setBuf x).cfg = s.cfg := rfl
@[simp] theorem State.setBuf_cmd (s : State) (x : Memory) : (s.setBuf x).cmd = s.cmd := rfl
@[simp] theorem State.setBuf_status (s : State) (x : Memory) : (s.setBuf x).status = s.status := rfl
@[simp] theorem State.setBuf_irqen (s : State) (x : Memory) : (s.setBuf x).irqen = s.irqen := rfl
@[simp] theorem State.setBuf_ops (s : State) (x : Memory) : (s.setBuf x).ops = s.ops := rfl
@[simp] theorem State.setBuf_crcAcc (s : State) (x : Memory) : (s.setBuf x).crcAcc = s.crcAcc := rfl
@[simp] theorem State.setBuf_chunk (s : State) (x : Memory) : (s.setBuf x).chunk = s.chunk := rfl
@[simp] theorem State.setBuf_counts (s : State) (x : Memory) : (s.setBuf x).counts = s.counts := rfl
@[simp] theorem State.setBuf_header (s : State) (x : Memory) : (s.setBuf x).header = s.header := rfl
@[simp] theorem State.setBuf_res (s : State) (x : Memory) : (s.setBuf x).res = s.res := rfl
@[simp] theorem State.setBuf_buf (s : State) (x : Memory) : (s.setBuf x).buf = x := rfl
@[simp] theorem State.setBuf_engine (s : State) (x : Memory) : (s.setBuf x).engine = s.engine := rfl
@[simp] theorem State.setBuf_inputs (s : State) (x : Memory) : (s.setBuf x).inputs = s.inputs := rfl
@[simp] theorem State.setBuf_reads (s : State) (x : Memory) : (s.setBuf x).reads = s.reads := rfl
@[simp] theorem State.setBuf_draws (s : State) (x : Memory) : (s.setBuf x).draws = s.draws := rfl

/-! ### setCrcAcc -/

@[simp] theorem State.setCrcAcc_cfg (s : State) (x : Word) : (s.setCrcAcc x).cfg = s.cfg := rfl
@[simp] theorem State.setCrcAcc_cmd (s : State) (x : Word) : (s.setCrcAcc x).cmd = s.cmd := rfl
@[simp] theorem State.setCrcAcc_status (s : State) (x : Word) :
    (s.setCrcAcc x).status = s.status := rfl
@[simp] theorem State.setCrcAcc_irqen (s : State) (x : Word) :
    (s.setCrcAcc x).irqen = s.irqen := rfl
@[simp] theorem State.setCrcAcc_ops (s : State) (x : Word) : (s.setCrcAcc x).ops = s.ops := rfl
@[simp] theorem State.setCrcAcc_crcAcc (s : State) (x : Word) : (s.setCrcAcc x).crcAcc = x := rfl
@[simp] theorem State.setCrcAcc_chunk (s : State) (x : Word) :
    (s.setCrcAcc x).chunk = s.chunk := rfl
@[simp] theorem State.setCrcAcc_counts (s : State) (x : Word) :
    (s.setCrcAcc x).counts = s.counts := rfl
@[simp] theorem State.setCrcAcc_header (s : State) (x : Word) :
    (s.setCrcAcc x).header = s.header := rfl
@[simp] theorem State.setCrcAcc_res (s : State) (x : Word) : (s.setCrcAcc x).res = s.res := rfl
@[simp] theorem State.setCrcAcc_buf (s : State) (x : Word) : (s.setCrcAcc x).buf = s.buf := rfl
@[simp] theorem State.setCrcAcc_engine (s : State) (x : Word) :
    (s.setCrcAcc x).engine = s.engine := rfl
@[simp] theorem State.setCrcAcc_inputs (s : State) (x : Word) :
    (s.setCrcAcc x).inputs = s.inputs := rfl
@[simp] theorem State.setCrcAcc_reads (s : State) (x : Word) :
    (s.setCrcAcc x).reads = s.reads := rfl
@[simp] theorem State.setCrcAcc_draws (s : State) (x : Word) :
    (s.setCrcAcc x).draws = s.draws := rfl

/-! ### setEngine -/

@[simp] theorem State.setEngine_cfg (s : State) (x : Engine) : (s.setEngine x).cfg = s.cfg := rfl
@[simp] theorem State.setEngine_cmd (s : State) (x : Engine) : (s.setEngine x).cmd = s.cmd := rfl
@[simp] theorem State.setEngine_status (s : State) (x : Engine) :
    (s.setEngine x).status = s.status := rfl
@[simp] theorem State.setEngine_irqen (s : State) (x : Engine) :
    (s.setEngine x).irqen = s.irqen := rfl
@[simp] theorem State.setEngine_ops (s : State) (x : Engine) : (s.setEngine x).ops = s.ops := rfl
@[simp] theorem State.setEngine_crcAcc (s : State) (x : Engine) :
    (s.setEngine x).crcAcc = s.crcAcc := rfl
@[simp] theorem State.setEngine_chunk (s : State) (x : Engine) :
    (s.setEngine x).chunk = s.chunk := rfl
@[simp] theorem State.setEngine_counts (s : State) (x : Engine) :
    (s.setEngine x).counts = s.counts := rfl
@[simp] theorem State.setEngine_header (s : State) (x : Engine) :
    (s.setEngine x).header = s.header := rfl
@[simp] theorem State.setEngine_res (s : State) (x : Engine) : (s.setEngine x).res = s.res := rfl
@[simp] theorem State.setEngine_buf (s : State) (x : Engine) : (s.setEngine x).buf = s.buf := rfl
@[simp] theorem State.setEngine_engine (s : State) (x : Engine) : (s.setEngine x).engine = x := rfl
@[simp] theorem State.setEngine_inputs (s : State) (x : Engine) :
    (s.setEngine x).inputs = s.inputs := rfl
@[simp] theorem State.setEngine_reads (s : State) (x : Engine) :
    (s.setEngine x).reads = s.reads := rfl
@[simp] theorem State.setEngine_draws (s : State) (x : Engine) :
    (s.setEngine x).draws = s.draws := rfl

/-! ### setCmd -/

@[simp] theorem State.setCmd_cfg (s : State) (x : Word) : (s.setCmd x).cfg = s.cfg := rfl
@[simp] theorem State.setCmd_cmd (s : State) (x : Word) : (s.setCmd x).cmd = x := rfl
@[simp] theorem State.setCmd_status (s : State) (x : Word) : (s.setCmd x).status = s.status := rfl
@[simp] theorem State.setCmd_irqen (s : State) (x : Word) : (s.setCmd x).irqen = s.irqen := rfl
@[simp] theorem State.setCmd_ops (s : State) (x : Word) : (s.setCmd x).ops = s.ops := rfl
@[simp] theorem State.setCmd_crcAcc (s : State) (x : Word) : (s.setCmd x).crcAcc = s.crcAcc := rfl
@[simp] theorem State.setCmd_chunk (s : State) (x : Word) : (s.setCmd x).chunk = s.chunk := rfl
@[simp] theorem State.setCmd_counts (s : State) (x : Word) : (s.setCmd x).counts = s.counts := rfl
@[simp] theorem State.setCmd_header (s : State) (x : Word) : (s.setCmd x).header = s.header := rfl
@[simp] theorem State.setCmd_res (s : State) (x : Word) : (s.setCmd x).res = s.res := rfl
@[simp] theorem State.setCmd_buf (s : State) (x : Word) : (s.setCmd x).buf = s.buf := rfl
@[simp] theorem State.setCmd_engine (s : State) (x : Word) : (s.setCmd x).engine = s.engine := rfl
@[simp] theorem State.setCmd_inputs (s : State) (x : Word) : (s.setCmd x).inputs = s.inputs := rfl
@[simp] theorem State.setCmd_reads (s : State) (x : Word) : (s.setCmd x).reads = s.reads := rfl
@[simp] theorem State.setCmd_draws (s : State) (x : Word) : (s.setCmd x).draws = s.draws := rfl

/-! ### setIrqen -/

@[simp] theorem State.setIrqen_cfg (s : State) (x : Word) : (s.setIrqen x).cfg = s.cfg := rfl
@[simp] theorem State.setIrqen_cmd (s : State) (x : Word) : (s.setIrqen x).cmd = s.cmd := rfl
@[simp] theorem State.setIrqen_status (s : State) (x : Word) :
    (s.setIrqen x).status = s.status := rfl
@[simp] theorem State.setIrqen_irqen (s : State) (x : Word) : (s.setIrqen x).irqen = x := rfl
@[simp] theorem State.setIrqen_ops (s : State) (x : Word) : (s.setIrqen x).ops = s.ops := rfl
@[simp] theorem State.setIrqen_crcAcc (s : State) (x : Word) :
    (s.setIrqen x).crcAcc = s.crcAcc := rfl
@[simp] theorem State.setIrqen_chunk (s : State) (x : Word) : (s.setIrqen x).chunk = s.chunk := rfl
@[simp] theorem State.setIrqen_counts (s : State) (x : Word) :
    (s.setIrqen x).counts = s.counts := rfl
@[simp] theorem State.setIrqen_header (s : State) (x : Word) :
    (s.setIrqen x).header = s.header := rfl
@[simp] theorem State.setIrqen_res (s : State) (x : Word) : (s.setIrqen x).res = s.res := rfl
@[simp] theorem State.setIrqen_buf (s : State) (x : Word) : (s.setIrqen x).buf = s.buf := rfl
@[simp] theorem State.setIrqen_engine (s : State) (x : Word) :
    (s.setIrqen x).engine = s.engine := rfl
@[simp] theorem State.setIrqen_inputs (s : State) (x : Word) :
    (s.setIrqen x).inputs = s.inputs := rfl
@[simp] theorem State.setIrqen_reads (s : State) (x : Word) : (s.setIrqen x).reads = s.reads := rfl
@[simp] theorem State.setIrqen_draws (s : State) (x : Word) : (s.setIrqen x).draws = s.draws := rfl

/-! ### setOps -/

@[simp] theorem State.setOps_cfg (s : State) (x : OperandRegs) : (s.setOps x).cfg = s.cfg := rfl
@[simp] theorem State.setOps_cmd (s : State) (x : OperandRegs) : (s.setOps x).cmd = s.cmd := rfl
@[simp] theorem State.setOps_status (s : State) (x : OperandRegs) :
    (s.setOps x).status = s.status := rfl
@[simp] theorem State.setOps_irqen (s : State) (x : OperandRegs) :
    (s.setOps x).irqen = s.irqen := rfl
@[simp] theorem State.setOps_ops (s : State) (x : OperandRegs) : (s.setOps x).ops = x := rfl
@[simp] theorem State.setOps_crcAcc (s : State) (x : OperandRegs) :
    (s.setOps x).crcAcc = s.crcAcc := rfl
@[simp] theorem State.setOps_chunk (s : State) (x : OperandRegs) :
    (s.setOps x).chunk = s.chunk := rfl
@[simp] theorem State.setOps_counts (s : State) (x : OperandRegs) :
    (s.setOps x).counts = s.counts := rfl
@[simp] theorem State.setOps_header (s : State) (x : OperandRegs) :
    (s.setOps x).header = s.header := rfl
@[simp] theorem State.setOps_res (s : State) (x : OperandRegs) : (s.setOps x).res = s.res := rfl
@[simp] theorem State.setOps_buf (s : State) (x : OperandRegs) : (s.setOps x).buf = s.buf := rfl
@[simp] theorem State.setOps_engine (s : State) (x : OperandRegs) :
    (s.setOps x).engine = s.engine := rfl
@[simp] theorem State.setOps_inputs (s : State) (x : OperandRegs) :
    (s.setOps x).inputs = s.inputs := rfl
@[simp] theorem State.setOps_reads (s : State) (x : OperandRegs) :
    (s.setOps x).reads = s.reads := rfl
@[simp] theorem State.setOps_draws (s : State) (x : OperandRegs) :
    (s.setOps x).draws = s.draws := rfl

/-! ### setInputs -/

@[simp] theorem State.setInputs_cfg (s : State) (x : List Event) :
    (s.setInputs x).cfg = s.cfg := rfl
@[simp] theorem State.setInputs_cmd (s : State) (x : List Event) :
    (s.setInputs x).cmd = s.cmd := rfl
@[simp] theorem State.setInputs_status (s : State) (x : List Event) :
    (s.setInputs x).status = s.status := rfl
@[simp] theorem State.setInputs_irqen (s : State) (x : List Event) :
    (s.setInputs x).irqen = s.irqen := rfl
@[simp] theorem State.setInputs_ops (s : State) (x : List Event) :
    (s.setInputs x).ops = s.ops := rfl
@[simp] theorem State.setInputs_crcAcc (s : State) (x : List Event) :
    (s.setInputs x).crcAcc = s.crcAcc := rfl
@[simp] theorem State.setInputs_chunk (s : State) (x : List Event) :
    (s.setInputs x).chunk = s.chunk := rfl
@[simp] theorem State.setInputs_counts (s : State) (x : List Event) :
    (s.setInputs x).counts = s.counts := rfl
@[simp] theorem State.setInputs_header (s : State) (x : List Event) :
    (s.setInputs x).header = s.header := rfl
@[simp] theorem State.setInputs_res (s : State) (x : List Event) :
    (s.setInputs x).res = s.res := rfl
@[simp] theorem State.setInputs_buf (s : State) (x : List Event) :
    (s.setInputs x).buf = s.buf := rfl
@[simp] theorem State.setInputs_engine (s : State) (x : List Event) :
    (s.setInputs x).engine = s.engine := rfl
@[simp] theorem State.setInputs_inputs (s : State) (x : List Event) :
    (s.setInputs x).inputs = x := rfl
@[simp] theorem State.setInputs_reads (s : State) (x : List Event) :
    (s.setInputs x).reads = s.reads := rfl
@[simp] theorem State.setInputs_draws (s : State) (x : List Event) :
    (s.setInputs x).draws = s.draws := rfl

/-! ### noteRead -/

@[simp] theorem State.noteRead_cfg (s : State) (x : PortRead) : (s.noteRead x).cfg = s.cfg := rfl
@[simp] theorem State.noteRead_cmd (s : State) (x : PortRead) : (s.noteRead x).cmd = s.cmd := rfl
@[simp] theorem State.noteRead_status (s : State) (x : PortRead) :
    (s.noteRead x).status = s.status := rfl
@[simp] theorem State.noteRead_irqen (s : State) (x : PortRead) :
    (s.noteRead x).irqen = s.irqen := rfl
@[simp] theorem State.noteRead_ops (s : State) (x : PortRead) : (s.noteRead x).ops = s.ops := rfl
@[simp] theorem State.noteRead_crcAcc (s : State) (x : PortRead) :
    (s.noteRead x).crcAcc = s.crcAcc := rfl
@[simp] theorem State.noteRead_chunk (s : State) (x : PortRead) :
    (s.noteRead x).chunk = s.chunk := rfl
@[simp] theorem State.noteRead_counts (s : State) (x : PortRead) :
    (s.noteRead x).counts = s.counts := rfl
@[simp] theorem State.noteRead_header (s : State) (x : PortRead) :
    (s.noteRead x).header = s.header := rfl
@[simp] theorem State.noteRead_res (s : State) (x : PortRead) : (s.noteRead x).res = s.res := rfl
@[simp] theorem State.noteRead_buf (s : State) (x : PortRead) : (s.noteRead x).buf = s.buf := rfl
@[simp] theorem State.noteRead_engine (s : State) (x : PortRead) :
    (s.noteRead x).engine = s.engine := rfl
@[simp] theorem State.noteRead_inputs (s : State) (x : PortRead) :
    (s.noteRead x).inputs = s.inputs := rfl
@[simp] theorem State.noteRead_reads (s : State) (x : PortRead) :
    (s.noteRead x).reads = x :: s.reads := rfl
@[simp] theorem State.noteRead_draws (s : State) (x : PortRead) :
    (s.noteRead x).draws = s.draws := rfl

/-! ### takeDraws -/

@[simp] theorem State.takeDraws_cfg (s : State) (x : Nat) : (s.takeDraws x).cfg = s.cfg := rfl
@[simp] theorem State.takeDraws_cmd (s : State) (x : Nat) : (s.takeDraws x).cmd = s.cmd := rfl
@[simp] theorem State.takeDraws_status (s : State) (x : Nat) :
    (s.takeDraws x).status = s.status := rfl
@[simp] theorem State.takeDraws_irqen (s : State) (x : Nat) : (s.takeDraws x).irqen = s.irqen := rfl
@[simp] theorem State.takeDraws_ops (s : State) (x : Nat) : (s.takeDraws x).ops = s.ops := rfl
@[simp] theorem State.takeDraws_crcAcc (s : State) (x : Nat) :
    (s.takeDraws x).crcAcc = s.crcAcc := rfl
@[simp] theorem State.takeDraws_chunk (s : State) (x : Nat) : (s.takeDraws x).chunk = s.chunk := rfl
@[simp] theorem State.takeDraws_counts (s : State) (x : Nat) :
    (s.takeDraws x).counts = s.counts := rfl
@[simp] theorem State.takeDraws_header (s : State) (x : Nat) :
    (s.takeDraws x).header = s.header := rfl
@[simp] theorem State.takeDraws_res (s : State) (x : Nat) : (s.takeDraws x).res = s.res := rfl
@[simp] theorem State.takeDraws_buf (s : State) (x : Nat) : (s.takeDraws x).buf = s.buf := rfl
@[simp] theorem State.takeDraws_engine (s : State) (x : Nat) :
    (s.takeDraws x).engine = s.engine := rfl
@[simp] theorem State.takeDraws_inputs (s : State) (x : Nat) :
    (s.takeDraws x).inputs = s.inputs := rfl
@[simp] theorem State.takeDraws_reads (s : State) (x : Nat) : (s.takeDraws x).reads = s.reads := rfl
@[simp] theorem State.takeDraws_draws (s : State) (x : Nat) :
    (s.takeDraws x).draws = s.draws + x := rfl

/-! ### bufSize and windowOk depend on the parameters and the operands only -/

theorem bufSize_congr {s t : State} (h : t.cfg = s.cfg) : bufSize t = bufSize s := by
  simp [bufSize, h]

theorem windowOk_congr {s t : State} (hc : t.cfg = s.cfg) (ho : t.ops = s.ops) :
    windowOk t = windowOk s := by
  unfold windowOk bufSize
  rw [hc, ho]

/-! ### STATUS: issued -/

@[simp] theorem Status.issued_busy (st : Status) : (st.issued).busy = true := rfl
@[simp] theorem Status.issued_done (st : Status) : (st.issued).done = false := rfl
@[simp] theorem Status.issued_err (st : Status) : (st.issued).err = false := rfl
@[simp] theorem Status.issued_valid (st : Status) : (st.issued).valid = false := rfl
@[simp] theorem Status.issued_hdrFound (st : Status) : (st.issued).hdrFound = st.hdrFound := rfl
@[simp] theorem Status.issued_termFound (st : Status) : (st.issued).termFound = st.termFound := rfl
@[simp] theorem Status.issued_resOvf (st : Status) : (st.issued).resOvf = st.resOvf := rfl
@[simp] theorem Status.issued_viol (st : Status) : (st.issued).viol = false := rfl
@[simp] theorem Status.issued_errcode (st : Status) : (st.issued).errcode = 0 := rfl

/-! ### STATUS: refusedWord -/

@[simp] theorem Status.refusedWord_busy (st : Status) : (st.refusedWord).busy = st.busy := rfl
@[simp] theorem Status.refusedWord_done (st : Status) : (st.refusedWord).done = true := rfl
@[simp] theorem Status.refusedWord_err (st : Status) : (st.refusedWord).err = true := rfl
@[simp] theorem Status.refusedWord_valid (st : Status) : (st.refusedWord).valid = false := rfl
@[simp] theorem Status.refusedWord_hdrFound (st : Status) : (st.refusedWord).hdrFound = st.hdrFound := rfl
@[simp] theorem Status.refusedWord_termFound (st : Status) : (st.refusedWord).termFound = st.termFound := rfl
@[simp] theorem Status.refusedWord_resOvf (st : Status) : (st.refusedWord).resOvf = st.resOvf := rfl
@[simp] theorem Status.refusedWord_viol (st : Status) : (st.refusedWord).viol = false := rfl
@[simp] theorem Status.refusedWord_errcode (st : Status) : (st.refusedWord).errcode = 8 := rfl

/-! ### STATUS: finished -/

@[simp] theorem Status.finished_busy (st : Status) (v : Bool) : (st.finished v).busy = false := rfl
@[simp] theorem Status.finished_done (st : Status) (v : Bool) : (st.finished v).done = true := rfl
@[simp] theorem Status.finished_err (st : Status) (v : Bool) : (st.finished v).err = false := rfl
@[simp] theorem Status.finished_valid (st : Status) (v : Bool) : (st.finished v).valid = v := rfl
@[simp] theorem Status.finished_hdrFound (st : Status) (v : Bool) : (st.finished v).hdrFound = st.hdrFound := rfl
@[simp] theorem Status.finished_termFound (st : Status) (v : Bool) : (st.finished v).termFound = st.termFound := rfl
@[simp] theorem Status.finished_resOvf (st : Status) (v : Bool) : (st.finished v).resOvf = st.resOvf := rfl
@[simp] theorem Status.finished_viol (st : Status) (v : Bool) : (st.finished v).viol = st.viol := rfl
@[simp] theorem Status.finished_errcode (st : Status) (v : Bool) : (st.finished v).errcode = 0 := rfl

/-! ### STATUS: failed -/

@[simp] theorem Status.failed_busy (st : Status) (e : CmdError) : (st.failed e).busy = false := rfl
@[simp] theorem Status.failed_done (st : Status) (e : CmdError) : (st.failed e).done = true := rfl
@[simp] theorem Status.failed_err (st : Status) (e : CmdError) : (st.failed e).err = true := rfl
@[simp] theorem Status.failed_valid (st : Status) (e : CmdError) : (st.failed e).valid = false := rfl
@[simp] theorem Status.failed_hdrFound (st : Status) (e : CmdError) : (st.failed e).hdrFound = st.hdrFound := rfl
@[simp] theorem Status.failed_termFound (st : Status) (e : CmdError) : (st.failed e).termFound = st.termFound := rfl
@[simp] theorem Status.failed_resOvf (st : Status) (e : CmdError) : (st.failed e).resOvf = st.resOvf := rfl
@[simp] theorem Status.failed_viol (st : Status) (e : CmdError) : (st.failed e).viol = st.viol := rfl
@[simp] theorem Status.failed_errcode (st : Status) (e : CmdError) : (st.failed e).errcode = e.code := rfl

/-! ### STATUS: acked -/

@[simp] theorem Status.acked_busy (st : Status) (v : Word) : (st.acked v).busy = st.busy := rfl
@[simp] theorem Status.acked_done (st : Status) (v : Word) : (st.acked v).done = (st.done && !v.getLsbD 1) := rfl
@[simp] theorem Status.acked_err (st : Status) (v : Word) : (st.acked v).err = st.err := rfl
@[simp] theorem Status.acked_valid (st : Status) (v : Word) : (st.acked v).valid = st.valid := rfl
@[simp] theorem Status.acked_hdrFound (st : Status) (v : Word) : (st.acked v).hdrFound = st.hdrFound := rfl
@[simp] theorem Status.acked_termFound (st : Status) (v : Word) : (st.acked v).termFound = st.termFound := rfl
@[simp] theorem Status.acked_resOvf (st : Status) (v : Word) : (st.acked v).resOvf = st.resOvf := rfl
@[simp] theorem Status.acked_viol (st : Status) (v : Word) : (st.acked v).viol = (st.viol && !v.getLsbD 7) := rfl
@[simp] theorem Status.acked_errcode (st : Status) (v : Word) : (st.acked v).errcode = st.errcode := rfl

/-! ### STATUS: dropped -/

@[simp] theorem Status.dropped_busy (st : Status) : (st.dropped).busy = st.busy := rfl
@[simp] theorem Status.dropped_done (st : Status) : (st.dropped).done = st.done := rfl
@[simp] theorem Status.dropped_err (st : Status) : (st.dropped).err = st.err := rfl
@[simp] theorem Status.dropped_valid (st : Status) : (st.dropped).valid = st.valid := rfl
@[simp] theorem Status.dropped_hdrFound (st : Status) : (st.dropped).hdrFound = st.hdrFound := rfl
@[simp] theorem Status.dropped_termFound (st : Status) : (st.dropped).termFound = st.termFound := rfl
@[simp] theorem Status.dropped_resOvf (st : Status) : (st.dropped).resOvf = st.resOvf := rfl
@[simp] theorem Status.dropped_viol (st : Status) : (st.dropped).viol = true := rfl
@[simp] theorem Status.dropped_errcode (st : Status) : (st.dropped).errcode = st.errcode := rfl

/-! ### STATUS: scanCleared -/

@[simp] theorem Status.scanCleared_busy (st : Status) : (st.scanCleared).busy = st.busy := rfl
@[simp] theorem Status.scanCleared_done (st : Status) : (st.scanCleared).done = st.done := rfl
@[simp] theorem Status.scanCleared_err (st : Status) : (st.scanCleared).err = st.err := rfl
@[simp] theorem Status.scanCleared_valid (st : Status) : (st.scanCleared).valid = st.valid := rfl
@[simp] theorem Status.scanCleared_hdrFound (st : Status) : (st.scanCleared).hdrFound = false := rfl
@[simp] theorem Status.scanCleared_termFound (st : Status) : (st.scanCleared).termFound = false := rfl
@[simp] theorem Status.scanCleared_resOvf (st : Status) : (st.scanCleared).resOvf = false := rfl
@[simp] theorem Status.scanCleared_viol (st : Status) : (st.scanCleared).viol = st.viol := rfl
@[simp] theorem Status.scanCleared_errcode (st : Status) : (st.scanCleared).errcode = st.errcode := rfl

/-! ### The bits of STATUS -/

theorem flagBit_getLsbD (b : Bool) {k : Nat} (h : k < 32) (n : Nat) :
    (flagBit b k).getLsbD n = (b && decide (n = k)) := by
  cases b
  · simp [flagBit]
  · simp only [flagBit, if_true, BitVec.getLsbD_shiftLeft, BitVec.getLsbD_one]
    by_cases hn : n = k
    · subst hn
      simp [h]
    · simp [hn]
      omega

/-- R25: the single-bit fields of STATUS. -/
theorem statusWord_bits (st : Status) :
    st.word.getLsbD 0 = st.busy ∧ st.word.getLsbD 1 = st.done ∧ st.word.getLsbD 2 = st.err ∧
      st.word.getLsbD 3 = st.valid ∧ st.word.getLsbD 4 = st.hdrFound ∧
      st.word.getLsbD 5 = st.termFound ∧ st.word.getLsbD 6 = st.resOvf ∧
      st.word.getLsbD 7 = st.viol := by
  simp [Status.word, flagBit_getLsbD, -BitVec.getLsbD_eq_getElem, BitVec.getLsbD_or]

/-- R25: ERRCODE in bits 11:8 of STATUS. -/
theorem statusWord_errcode (st : Status) : st.word.extractLsb' 8 4 = st.errcode := by
  apply BitVec.eq_of_getLsbD_eq
  intro i hi
  simp [Status.word, flagBit_getLsbD, -BitVec.getLsbD_eq_getElem, BitVec.getLsbD_or,
    BitVec.getLsbD_extractLsb', hi]
  interval_cases i <;> simp

end Sys2Proof.Machine
end

