-- ==== Sys2Proof/Laws/Memory.lean ====
section
/-! SUPPORT. The laws of lists of cells and of the buffer memory: read after write, what a write
leaves alone, and the canonical form every operation keeps. -/

namespace Sys2Proof.Machine

/-! ### Cells -/

theorem cellGet_cellSet_same {β : Type} (m : List (Nat × β)) (a : Nat) (v : β) :
    cellGet (cellSet m a v) a = some v := by
  induction m with
  | nil => simp [cellSet, cellGet]
  | cons c m ih =>
    obtain ⟨k, w⟩ := c
    unfold cellSet
    split
    · simp [cellGet]
    · split
      · simp [cellGet]
      · simp [cellGet, *]

theorem cellGet_cellSet_other {β : Type} (m : List (Nat × β)) {a b : Nat} (v : β) (h : b ≠ a) :
    cellGet (cellSet m a v) b = cellGet m b := by
  induction m with
  | nil => simp [cellSet, cellGet, h]
  | cons c m ih =>
    obtain ⟨k, w⟩ := c
    unfold cellSet
    split
    · simp [cellGet, h]
    · split
      · subst_vars; simp [cellGet, h]
      · simp [cellGet, ih]

theorem mem_cellSet {β : Type} {m : List (Nat × β)} {a : Nat} {v : β} {c : Nat × β}
    (h : c ∈ cellSet m a v) : c = (a, v) ∨ c ∈ m := by
  induction m with
  | nil => simpa [cellSet] using h
  | cons d m ih =>
    obtain ⟨k, w⟩ := d
    unfold cellSet at h
    split at h
    · simpa using h
    · split at h
      · rcases List.mem_cons.1 h with h | h
        · exact .inl h
        · exact .inr (List.mem_cons_of_mem _ h)
      · rcases List.mem_cons.1 h with h | h
        · exact .inr (h ▸ List.mem_cons_self ..)
        · exact (ih h).imp id (List.mem_cons_of_mem _)

theorem keysRising_cellSet {β : Type} {m : List (Nat × β)} (h : keysRising m) (a : Nat) (v : β) :
    keysRising (cellSet m a v) := by
  induction m with
  | nil => simp [cellSet]
  | cons c m ih =>
    obtain ⟨k, w⟩ := c
    obtain ⟨hk, hm⟩ := List.pairwise_cons.1 h
    unfold cellSet
    split
    · refine List.pairwise_cons.2 ⟨fun d hd => ?_, h⟩
      rcases List.mem_cons.1 hd with rfl | hd
      · assumption
      · exact lt_trans ‹a < k› (hk d hd)
    · split
      · subst_vars; exact List.pairwise_cons.2 ⟨hk, hm⟩
      · refine List.pairwise_cons.2 ⟨fun d hd => ?_, ih hm⟩
        rcases mem_cellSet hd with rfl | hd
        · show k < a; omega
        · exact hk d hd

/-- In canonical form a list of cells is determined by what it holds. -/
theorem keysRising_ext {β : Type} {m m' : List (Nat × β)} (h : keysRising m) (h' : keysRising m')
    (e : ∀ a, cellGet m a = cellGet m' a) : m = m' := by
  have none_of_lt : ∀ {l : List (Nat × β)} {a : Nat}, (∀ c ∈ l, a < c.1) → cellGet l a = none := by
    intro l a hl
    induction l with
    | nil => rfl
    | cons c l ih =>
      have h1 := hl c (List.mem_cons_self ..)
      simp [cellGet, Nat.ne_of_lt h1, ih fun d hd => hl d (List.mem_cons_of_mem _ hd)]
  induction m generalizing m' with
  | nil =>
    cases m' with
    | nil => rfl
    | cons c m' => simpa [cellGet] using e c.1
  | cons c m ih =>
    obtain ⟨k, v⟩ := c
    obtain ⟨hk, hm⟩ := List.pairwise_cons.1 h
    cases m' with
    | nil => simpa [cellGet] using e k
    | cons c' m' =>
      obtain ⟨k', v'⟩ := c'
      obtain ⟨hk', hm'⟩ := List.pairwise_cons.1 h'
      have hkk : k = k' := by
        rcases Nat.lt_trichotomy k k' with hlt | heq | hgt
        · have := e k
          have h2 : cellGet m' k = none := none_of_lt fun c hc => lt_trans hlt (hk' c hc)
          simp [cellGet, Nat.ne_of_lt hlt, h2] at this
        · exact heq
        · have := e k'
          have h2 : cellGet m k' = none := none_of_lt fun c hc => lt_trans hgt (hk c hc)
          simp [cellGet, Nat.ne_of_lt hgt, h2] at this
      subst hkk
      have hv : v = v' := by simpa [cellGet] using e k
      subst hv
      congr 1
      refine ih hm hm' fun a => ?_
      have := e a
      by_cases ha : a = k
      · subst ha
        rw [none_of_lt hk, none_of_lt hk']
      · simpa [cellGet, ha] using this

/-! ### The buffer memory: read after write -/

@[simp] theorem bufByte_cellSet_same (m : Memory) (a : Nat) (b : Byte) :
    bufByte (cellSet m a b) a = b := by
  simp [bufByte, cellGet_cellSet_same]

theorem bufByte_cellSet_other (m : Memory) {a c : Nat} (b : Byte) (h : c ≠ a) :
    bufByte (cellSet m a b) c = bufByte m c := by
  simp [bufByte, cellGet_cellSet_other _ _ h]

@[simp] theorem memRead_length (m : Memory) (a n : Nat) : (memRead m a n).length = n := by
  induction n generalizing a with
  | zero => rfl
  | succ n ih => simp [memRead, ih]

/-- What a byte reads as after `MemWrite` (R10): the byte written, or as before. -/
theorem bufByte_memWrite (m : Memory) (a : Nat) (bs : List Byte) (c : Nat) :
    bufByte (memWrite m a bs) c
      = if a ≤ c ∧ c < a + bs.length then bs.getD (c - a) 0 else bufByte m c := by
  induction bs generalizing m a with
  | nil =>
    rw [memWrite, List.length_nil, if_neg (by omega)]
  | cons b bs ih =>
    rw [memWrite, ih, List.length_cons]
    by_cases hc : c = a
    · subst hc
      have h1 : ¬ (c + 1 ≤ c ∧ c < c + 1 + bs.length) := by omega
      have h2 : c ≤ c ∧ c < c + (bs.length + 1) := by omega
      rw [if_neg h1, if_pos h2]
      simp
    · rw [bufByte_cellSet_other _ _ hc]
      by_cases h1 : a + 1 ≤ c ∧ c < a + 1 + bs.length
      · have h2 : a ≤ c ∧ c < a + (bs.length + 1) := by omega
        rw [if_pos h1, if_pos h2]
        have : c - a = (c - (a + 1)) + 1 := by omega
        rw [this, List.getD_cons_succ]
      · have h2 : ¬ (a ≤ c ∧ c < a + (bs.length + 1)) := by omega
        rw [if_neg h1, if_neg h2]

/-- A write leaves every byte outside its range alone. -/
theorem bufByte_memWrite_outside (m : Memory) (a : Nat) (bs : List Byte) {c : Nat}
    (h : c < a ∨ a + bs.length ≤ c) : bufByte (memWrite m a bs) c = bufByte m c := by
  rw [bufByte_memWrite, if_neg (by omega)]

/-- `MemRead` depends on the bytes of its range only. -/
theorem memRead_congr {m m' : Memory} {a n : Nat}
    (h : ∀ c, a ≤ c → c < a + n → bufByte m' c = bufByte m c) : memRead m' a n = memRead m a n := by
  induction n generalizing a with
  | zero => rfl
  | succ n ih =>
    rw [memRead, memRead, h a (le_refl a) (by omega),
      ih fun c hc hc' => h c (by omega) (by omega)]

theorem memRead_append (m : Memory) (a n k : Nat) :
    memRead m a (n + k) = memRead m a n ++ memRead m (a + n) k := by
  induction n generalizing a with
  | zero => simp [memRead]
  | succ n ih =>
    rw [show n + 1 + k = (n + k) + 1 by omega, memRead, memRead, ih, List.cons_append,
      show a + 1 + n = a + (n + 1) by omega]

/-- Reading the range just written gives the bytes written (R10). -/
theorem memRead_memWrite_same (m : Memory) (a : Nat) (bs : List Byte) :
    memRead (memWrite m a bs) a bs.length = bs := by
  induction bs generalizing m a with
  | nil => rfl
  | cons b bs ih =>
    rw [List.length_cons, memRead, memWrite, ih, bufByte_memWrite_outside _ _ _ (by omega),
      bufByte_cellSet_same]

/-- Reading a range that a write does not touch gives what was there. -/
theorem memRead_memWrite_outside (m : Memory) (a : Nat) (bs : List Byte) {c n : Nat}
    (h : c + n ≤ a ∨ a + bs.length ≤ c) : memRead (memWrite m a bs) c n = memRead m c n :=
  memRead_congr fun d hd hd' => bufByte_memWrite_outside _ _ _ (by omega)

theorem bufByte_memDraw_outside (m : Memory) (a n k : Nat) {c : Nat} (h : c < a ∨ a + n ≤ c) :
    bufByte (memDraw m a n k) c = bufByte m c := by
  induction n generalizing m a k with
  | zero => rfl
  | succ n ih => rw [memDraw, ih _ _ _ (by omega), bufByte_cellSet_other _ _ (by omega)]

/-- A drawn byte is the draw of its number (R233). -/
theorem bufByte_memDraw_inside (m : Memory) (a n k : Nat) {c : Nat} (h : a ≤ c) (h' : c < a + n) :
    bufByte (memDraw m a n k) c = Config.drawByte (k + (c - a)) := by
  induction n generalizing m a k with
  | zero => omega
  | succ n ih =>
    rw [memDraw]
    by_cases hc : c = a
    · subst hc
      rw [bufByte_memDraw_outside _ _ _ _ (by omega), bufByte_cellSet_same]
      simp
    · rw [ih _ _ _ (by omega) (by omega)]
      congr 1
      omega

/-! ### The canonical form -/

theorem memWrite_wf {m : Memory} (h : Memory.wf m) (a : Nat) (bs : List Byte) :
    Memory.wf (memWrite m a bs) := by
  induction bs generalizing m a with
  | nil => exact h
  | cons b bs ih => exact ih (keysRising_cellSet h a b) (a + 1)

theorem memDraw_wf {m : Memory} (h : Memory.wf m) (a n k : Nat) :
    Memory.wf (memDraw m a n k) := by
  induction n generalizing m a k with
  | zero => exact h
  | succ n ih => exact ih (keysRising_cellSet h a _) (a + 1) (k + 1)

theorem mem_memWrite {m : Memory} {a : Nat} {bs : List Byte} {c : Nat × Byte}
    (h : c ∈ memWrite m a bs) : (a ≤ c.1 ∧ c.1 < a + bs.length) ∨ c ∈ m := by
  induction bs generalizing m a with
  | nil => exact .inr h
  | cons b bs ih =>
    rw [List.length_cons]
    rcases ih h with h | h
    · exact .inl (by omega)
    · rcases mem_cellSet h with rfl | h
      · exact .inl ⟨le_refl _, by show a < _; omega⟩
      · exact .inr h

theorem mem_memDraw {m : Memory} {a n k : Nat} {c : Nat × Byte}
    (h : c ∈ memDraw m a n k) : (a ≤ c.1 ∧ c.1 < a + n) ∨ c ∈ m := by
  induction n generalizing m a k with
  | zero => exact .inr h
  | succ n ih =>
    rcases ih h with h | h
    · exact .inl (by omega)
    · rcases mem_cellSet h with rfl | h
      · exact .inl ⟨le_refl _, by show a < _; omega⟩
      · exact .inr h

/-! ### The result table -/

@[simp] theorem resRecord_cellSet_same (res : List (Nat × ResRecord)) (i : Nat) (r : ResRecord) :
    resRecord (cellSet res i r) i = r := by
  simp [resRecord, cellGet_cellSet_same]

theorem resRecord_cellSet_other (res : List (Nat × ResRecord)) {i j : Nat} (r : ResRecord)
    (h : j ≠ i) : resRecord (cellSet res i r) j = resRecord res j := by
  simp [resRecord, cellGet_cellSet_other _ _ h]

theorem mem_drawnTable {i n k : Nat} {c : Nat × ResRecord} (h : c ∈ drawnTable i n k) :
    i ≤ c.1 ∧ c.1 < i + n := by
  induction n generalizing i k with
  | zero => simp [drawnTable] at h
  | succ n ih =>
    rcases List.mem_cons.1 h with rfl | h
    · exact ⟨le_refl _, by show i < _; omega⟩
    · have := ih h; omega

theorem drawnTable_rising (i n k : Nat) : keysRising (drawnTable i n k) := by
  induction n generalizing i k with
  | zero => exact List.Pairwise.nil
  | succ n ih =>
    refine List.pairwise_cons.2 ⟨fun c hc => ?_, ih _ _⟩
    have := mem_drawnTable hc
    show i < c.1
    omega

/-- R235: record `j` of a drawn table holds the draws of its own eight numbers. -/
theorem resRecord_drawnTable {i n k j : Nat} (h : i ≤ j) (h' : j < i + n) :
    resRecord (drawnTable i n k) j = drawnRecord (k + 8 * (j - i)) := by
  induction n generalizing i k with
  | zero => omega
  | succ n ih =>
    by_cases hj : i = j
    · subst hj
      simp [drawnTable, resRecord, cellGet]
    · have := ih (i := i + 1) (k := k + 8) (by omega) (by omega)
      rw [show k + 8 + 8 * (j - (i + 1)) = k + 8 * (j - i) by omega] at this
      rw [← this]
      simp [drawnTable, resRecord, cellGet, Ne.symm hj]

theorem drawnRecord_word (k : Nat) {w : Nat} (h : w < 8) :
    (drawnRecord k).word w = Config.drawWord (k + w) := by
  interval_cases w <;> rfl

end Sys2Proof.Machine
end

