-- ==== Sys2Proof/Laws/Bytes.lean ====
section
/-! SUPPORT. Bytes and words: `be32` and `BE32` are inverse (R9), and the lengths of the byte
sequences the framer writes. -/

namespace Sys2Proof.Machine

@[simp] theorem toBE32_length (v : Word) : (toBE32 v).length = 4 := rfl

/-- R9: `BE32(be32(v)) = v`. -/
@[simp] theorem ofBE32_toBE32 (v : Word) : ofBE32 (toBE32 v) = v := by
  apply BitVec.eq_of_toNat_eq
  have := v.isLt
  simp only [ofBE32, toBE32, List.foldl_cons, List.foldl_nil, BitVec.toNat_ofNat,
    BitVec.extractLsb'_toNat, Nat.shiftRight_eq_div_pow]
  omega

/-- R9: `BE32` of four bytes, written out. -/
theorem ofBE32_four (a b c d : Byte) :
    (ofBE32 [a, b, c, d]).toNat
      = a.toNat * 2 ^ 24 + b.toNat * 2 ^ 16 + c.toNat * 2 ^ 8 + d.toNat := by
  have := a.isLt
  have := b.isLt
  have := c.isLt
  have := d.isLt
  simp only [ofBE32, List.foldl_cons, List.foldl_nil, BitVec.toNat_ofNat]
  omega

/-- `be32` of the value of four bytes gives the four bytes back. -/
theorem toBE32_ofBE32 (a b c d : Byte) : toBE32 (ofBE32 [a, b, c, d]) = [a, b, c, d] := by
  have ha := a.isLt
  have hb := b.isLt
  have hc := c.isLt
  have hd := d.isLt
  have h := ofBE32_four a b c d
  simp only [toBE32, List.cons.injEq, and_true]
  refine ⟨?_, ?_, ?_, ?_⟩ <;> apply BitVec.eq_of_toNat_eq <;>
    simp only [BitVec.extractLsb'_toNat, Nat.shiftRight_eq_div_pow, h] <;> omega

theorem toBE32_memRead (m : Memory) (a : Nat) :
    toBE32 (ofBE32 (memRead m a 4)) = memRead m a 4 := toBE32_ofBE32 _ _ _ _

@[simp] theorem chunkBytes_length (tag d : List Byte) :
    (chunkBytes tag d).length = 8 + tag.length + d.length := by
  simp [chunkBytes]; omega

@[simp] theorem headerRecord_length (o : OperandRegs) : (headerRecord o).length = 13 := rfl

@[simp] theorem tagIhdr_be32 : toBE32 (ofBE32 tagIhdr) = tagIhdr := by decide

@[simp] theorem tagIdat_be32 : toBE32 (ofBE32 tagIdat) = tagIdat := by decide

@[simp] theorem tagIend_be32 : toBE32 (ofBE32 tagIend) = tagIend := by decide

end Sys2Proof.Machine
end

