-- ==== Sys2Proof/Laws/Crc.lean ====
section
/-! SUPPORT. The CRC fold is sequential (R107). -/

namespace Sys2Proof.Machine

@[simp] theorem crcFold_nil (acc : Word) : crcFold acc [] = acc := rfl

@[simp] theorem crcFold_cons (acc : Word) (b : Byte) (bs : List Byte) :
    crcFold acc (b :: bs) = crcFold (crcStep acc b) bs := rfl

theorem crcFold_append (acc : Word) (s t : List Byte) :
    crcFold acc (s ++ t) = crcFold (crcFold acc s) t := by
  induction s generalizing acc with
  | nil => rfl
  | cons b s ih => simp [ih]

theorem crcFold_eq_foldl (acc : Word) (s : List Byte) : crcFold acc s = s.foldl crcStep acc := by
  induction s generalizing acc with
  | nil => rfl
  | cons b s ih => simp [ih]

@[simp] theorem wordByte_zero_setWidth (b : Byte) : wordByte (b.setWidth 32) 0 = b := by
  apply BitVec.eq_of_toNat_eq
  have := b.isLt
  simp [wordByte, BitVec.extractLsb'_toNat]
  omega

end Sys2Proof.Machine
end

