-- ==== Sys2Proof/Laws/Commands.lean ====
section
/-! SUPPORT. What the shared operations and the nine commands can do: one lemma per operation, which
says everything it changes. -/

namespace Sys2Proof.Machine

/-! ### Completion -/

/-- The state at the end of a command's pseudocode, before its completion. -/
def Ended.state : Ended → State
  | .finished _ s => s
  | .raised _ s => s

/-- The STATUS a completion leaves (R204). -/
def Ended.status : Ended → Status
  | .finished v s => s.status.finished v
  | .raised e s => s.status.failed e

/-- R204: a completion changes STATUS and the engine, and nothing else. -/
theorem complete_eq (e : Ended) :
    complete e = (e.state.setStatus e.status).setEngine .idle := by
  cases e <;> rfl

@[simp] theorem complete_finished (v : Bool) (s : State) :
    complete (.finished v s) = { s with status := s.status.finished v, engine := .idle } := rfl

@[simp] theorem complete_raised (e : CmdError) (s : State) :
    complete (.raised e s) = { s with status := s.status.failed e, engine := .idle } := rfl

/-! ### The steps of SCAN and DECODE -/

/-- `t` differs from `s` at most in the counters, the latched header, RES, R_TYPE .. R_END and the
flags HDR_FOUND, TERM_FOUND and RES_OVF: the write set of SCAN and DECODE (R85). -/
structure RecordFrame (s t : State) : Prop where
  rest : t = { s with
    status := { s.status with
      hdrFound := t.status.hdrFound, termFound := t.status.termFound, resOvf := t.status.resOvf }
    chunk := t.chunk, counts := t.counts, header := t.header, res := t.res }

theorem RecordFrame.refl (s : State) : RecordFrame s s := ⟨rfl⟩

theorem RecordFrame.trans {s t u : State} (h : RecordFrame s t) (k : RecordFrame t u) :
    RecordFrame s u := by
  obtain ⟨h⟩ := h
  obtain ⟨k⟩ := k
  constructor
  rw [k, h]

theorem RecordFrame.cfg {s t : State} (h : RecordFrame s t) : t.cfg = s.cfg := by rw [h.rest]

theorem RecordFrame.ops {s t : State} (h : RecordFrame s t) : t.ops = s.ops := by rw [h.rest]

theorem RecordFrame.buf {s t : State} (h : RecordFrame s t) : t.buf = s.buf := by rw [h.rest]

theorem clearResults_frame (s : State) : RecordFrame s (clearResults s) := ⟨rfl⟩

theorem countMade_frame (k : Kind) (s : State) : RecordFrame s (countMade k s) := ⟨rfl⟩

theorem setChunk_frame (c : ChunkRegs) (s : State) : RecordFrame s (s.setChunk c) := ⟨rfl⟩

theorem countBad_frame (r : Rec) (s : State) : RecordFrame s (countBad r s) := by
  unfold countBad
  split <;> exact ⟨rfl⟩

theorem storeRecord_frame (r : Rec) (s : State) : RecordFrame s (storeRecord r s) := by
  unfold storeRecord
  split <;> exact ⟨rfl⟩

theorem emitRecord_frame (r : Rec) (s : State) : RecordFrame s (emitRecord r s) :=
  (countBad_frame r s).trans (storeRecord_frame r _)

theorem latchHeader_frame (a : Nat) (s : State) : RecordFrame s (latchHeader a s) := ⟨rfl⟩

/-- R173: what `emit` does, in its four cases. -/
theorem emitRecord_eq (r : Rec) (s : State) :
    emitRecord r s =
      if s.counts.nrec.toNat < s.cfg.resDepth then
        { s with
          res := cellSet s.res s.counts.nrec.toNat r.words
          counts := { s.counts with
            nrec := s.counts.nrec + 1
            nbad := if r.valid then s.counts.nbad else s.counts.nbad + 1 } }
      else
        { s with
          counts := { s.counts with nbad := if r.valid then s.counts.nbad else s.counts.nbad + 1 }
          status := { s.status with resOvf := true } } := by
  unfold emitRecord storeRecord countBad
  cases r.valid <;> simp <;> split <;> rfl

theorem scanHeaderLatch_frame (r : Rec) (s : State) : RecordFrame s (scanHeaderLatch r s) := by
  unfold scanHeaderLatch
  split
  · exact latchHeader_frame _ _
  · exact .refl s

theorem scanTerminal_frame (r : Rec) (s : State) : RecordFrame s (scanTerminal r s) := by
  unfold scanTerminal
  split
  · exact ⟨rfl⟩
  · exact .refl s

theorem scanCommit_frame (r : Rec) (s : State) : RecordFrame s (scanCommit r s) :=
  (((countMade_frame _ _).trans (scanHeaderLatch_frame _ _)).trans (scanTerminal_frame _ _)).trans
    (emitRecord_frame _ _)

/-- SCAN's loop changes at most its write set (R85). -/
theorem scanLoop_frame (n p : Nat) (s : State) : RecordFrame s (scanLoop n p s) := by
  induction n generalizing p s with
  | zero => exact .refl s
  | succ n ih =>
    rw [scanLoop]
    split
    · dsimp only
      split
      · exact ih _ _
      · exact (scanCommit_frame _ _).trans (ih _ _)
    · exact .refl s

/-- SCAN's steps leave R_TYPE .. R_END alone (R42). -/
theorem scanCommit_chunk (r : Rec) (s : State) : (scanCommit r s).chunk = s.chunk := by
  unfold scanCommit
  rw [emitRecord_eq]
  have h1 : ∀ u : State, (scanTerminal r u).chunk = u.chunk := by
    intro u; unfold scanTerminal; split <;> rfl
  have h2 : ∀ u : State, (scanHeaderLatch r u).chunk = u.chunk := by
    intro u; unfold scanHeaderLatch latchHeader; split <;> rfl
  split <;> simp [h1, h2, countMade]

theorem scanLoop_chunk (n p : Nat) (s : State) : (scanLoop n p s).chunk = s.chunk := by
  induction n generalizing p s with
  | zero => rfl
  | succ n ih =>
    rw [scanLoop]
    split
    · dsimp only
      split
      · exact ih _ _
      · rw [ih, scanCommit_chunk]
    · rfl

/-- The state an error or a result of `read_chunk` carries (R182). -/
def readChunkState : Except (CmdError × State) (Rec × State) → State
  | .ok x => x.2
  | .error e => e.2

theorem readChunk_frame (p : Nat) (s : State) : RecordFrame s (readChunkState (readChunk p s)) := by
  unfold readChunk
  dsimp only
  split
  · exact .refl s
  · split
    · exact (countMade_frame _ _).trans (emitRecord_frame _ _)
    · split
      · exact (countMade_frame _ _).trans (emitRecord_frame _ _)
      · split
        · exact ((countMade_frame _ _).trans (setChunk_frame _ _)).trans (emitRecord_frame _ _)
        · exact (countMade_frame _ _).trans (setChunk_frame _ _)

theorem headerStep_frame (r : Rec) (s : State) :
    (∀ t, headerStep r s = .ok t → RecordFrame s t) ∧
      (∀ e, headerStep r s = .error e → RecordFrame s e.2) := by
  unfold headerStep
  split
  · refine ⟨fun t h => ?_, fun e h => by simp at h⟩
    cases h
    exact latchHeader_frame _ _
  · refine ⟨fun t h => by simp at h, fun e h => ?_⟩
    cases h
    exact emitRecord_frame _ _

theorem structureStep_frame (ph : Phase) (r : Rec) (s : State) :
    (∀ x, structureStep ph r s = .ok x → RecordFrame s x.2) ∧
      (∀ e, structureStep ph r s = .error e → RecordFrame s e.2) := by
  obtain ⟨h1, h2⟩ := headerStep_frame r s
  unfold structureStep
  cases ph with
  | expectHdr =>
    simp only
    split
    · cases h : headerStep r s with
      | ok t => exact ⟨fun x hx => by cases hx; exact h1 t h, fun e he => by simp at he⟩
      | error e => exact ⟨fun x hx => by simp at hx, fun e he => by cases he; exact h2 _ h⟩
    · exact ⟨fun x hx => by simp at hx, fun e he => by cases he; exact emitRecord_frame _ _⟩
  | expectData =>
    simp only
    split
    · exact ⟨fun x hx => by cases hx; exact .refl _, fun e he => by simp at he⟩
    · exact ⟨fun x hx => by simp at hx, fun e he => by cases he; exact emitRecord_frame _ _⟩
  | inData =>
    simp only
    split
    · exact ⟨fun x hx => by cases hx; exact .refl _, fun e he => by simp at he⟩
    · exact ⟨fun x hx => by simp at hx, fun e he => by cases he; exact emitRecord_frame _ _⟩

/-- DECODE's loop changes at most its write set (R85). -/
theorem decodeLoop_frame (n p : Nat) (ph : Phase) (s : State) :
    RecordFrame s (decodeLoop n p ph s).state := by
  induction n generalizing p ph s with
  | zero => exact .refl s
  | succ n ih =>
    have hr := readChunk_frame p s
    rw [decodeLoop]
    cases h : readChunk p s with
    | error e => rw [h] at hr; exact hr
    | ok x =>
      rw [h] at hr
      have hs := structureStep_frame ph x.1 x.2
      simp only
      cases h' : structureStep ph x.1 x.2 with
      | error e => exact hr.trans (hs.2 e h')
      | ok y =>
        have h3 := (hr.trans (hs.1 y h')).trans (emitRecord_frame x.1 y.2)
        simp only
        split
        · exact h3.trans ⟨rfl⟩
        · exact h3.trans (ih _ _ _)

theorem scanBody_frame (s : State) : RecordFrame s (scanBody s).state := by
  unfold scanBody
  simp only
  split
  · exact clearResults_frame s
  · exact (clearResults_frame s).trans (scanLoop_frame _ _ _)

theorem decodeBody_frame (s : State) : RecordFrame s (decodeBody s).state := by
  unfold decodeBody
  simp only
  split
  · exact clearResults_frame s
  · split
    · exact clearResults_frame s
    · exact (clearResults_frame s).trans (decodeLoop_frame _ _ _ _)

/-! ### The commands as bodies -/

/-- The pseudocode of a command; a register-port operation has none. -/
def commandBody (i : Instr) (s : State) : Option Ended :=
  match i with
  | .crcRange => some (crcRangeBody s)
  | .frame => some (frameBody s)
  | .frameHdr => some (frameHdrBody s)
  | .frameEnd => some (frameEndBody s)
  | .emitSig => some (emitSigBody s)
  | .parseAt => some (parseAtBody false s)
  | .parseAtS => some (parseAtBody true s)
  | .scan => some (scanBody s)
  | .decode => some (decodeBody s)
  | .crcFeed _ => none
  | .crcLoad _ => none
  | .statusAck _ => none

/-- A command's meaning is its pseudocode and its completion (R21, R204). -/
theorem exec_command {i : Instr} {s : State} {b : Ended} (h : commandBody i s = some b) :
    exec i s = .next (complete b) := by
  cases i <;> simp [commandBody] at h <;> subst h <;> rfl

theorem commandBody_isSome {i : Instr} (h : isCommand i = true) (s : State) :
    ∃ b, commandBody i s = some b := by
  cases i <;> simp [commandBody, isCommand] at h ⊢

/-- What a framer command's body can do: raise on the state as it was, or write its output and its
result registers (41_framer.md, introduction). -/
theorem putChunk_eq (a : Nat) (tag : Word) (d : List Byte) (s : State) :
    putChunk a tag d s = { s with
      buf := memWrite s.buf a (chunkBytes (toBE32 tag) d), chunk := builtChunk a tag d } := rfl

theorem frameBody_cases (s : State) :
    (∃ e, e ≠ .illegalCommand ∧ frameBody s = .raised e s) ∨
      (s.ops.src.toNat + s.ops.len.toNat ≤ bufSize s ∧
        s.ops.dst.toNat + 12 + s.ops.len.toNat ≤ bufSize s ∧
        frameBody s = .finished false
          (putChunk s.ops.dst.toNat s.ops.type
            (memRead s.buf s.ops.src.toNat s.ops.len.toNat) s)) := by
  unfold frameBody
  simp only
  split
  · exact .inl ⟨_, by decide, rfl⟩
  · split
    · exact .inl ⟨_, by decide, rfl⟩
    · split
      · exact .inl ⟨_, by decide, rfl⟩
      · split
        · exact .inl ⟨_, by decide, rfl⟩
        · exact .inr ⟨by omega, by omega, rfl⟩

theorem frameHdrBody_cases (s : State) :
    (∃ e, e ≠ .illegalCommand ∧ frameHdrBody s = .raised e s) ∨
      (s.ops.dst.toNat + 25 ≤ bufSize s ∧
        frameHdrBody s = .finished false
          (putChunk s.ops.dst.toNat (ofBE32 tagIhdr) (headerRecord s.ops) s)) := by
  unfold frameHdrBody
  simp only
  split
  · exact .inl ⟨_, by decide, rfl⟩
  · split
    · exact .inl ⟨_, by decide, rfl⟩
    · exact .inr ⟨by omega, rfl⟩

theorem frameEndBody_cases (s : State) :
    (∃ e, e ≠ .illegalCommand ∧ frameEndBody s = .raised e s) ∨
      (s.ops.dst.toNat + 12 ≤ bufSize s ∧
        frameEndBody s = .finished false (putChunk s.ops.dst.toNat (ofBE32 tagIend) [] s)) := by
  unfold frameEndBody
  simp only
  split
  · exact .inl ⟨_, by decide, rfl⟩
  · exact .inr ⟨by omega, rfl⟩

theorem emitSigBody_cases (s : State) :
    (∃ e, e ≠ .illegalCommand ∧ emitSigBody s = .raised e s) ∨
      (s.ops.dst.toNat + 8 ≤ bufSize s ∧
        emitSigBody s = .finished false { s with
          buf := memWrite s.buf s.ops.dst.toNat signature
          chunk := { s.chunk with endAddr := BitVec.ofNat 32 (s.ops.dst.toNat + 8) } }) := by
  unfold emitSigBody
  simp only
  split
  · exact .inl ⟨_, by decide, rfl⟩
  · exact .inr ⟨by omega, rfl⟩

theorem crcRangeBody_cases (s : State) :
    crcRangeBody s = .raised .addressRange s ∨
      (s.ops.src.toNat + s.ops.len.toNat ≤ bufSize s ∧
        crcRangeBody s = .finished false { s with
          crcAcc := crcFold s.crcAcc (memRead s.buf s.ops.src.toNat s.ops.len.toNat) }) := by
  unfold crcRangeBody
  split
  · exact .inl rfl
  · exact .inr ⟨by omega, rfl⟩

/-- What R_TYPE .. R_END hold once PARSE_AT has examined the chunk at OFFSET (R150, R153). -/
def examinedChunk (s : State) : ChunkRegs :=
  readChunkRegs s.ops.offset.toNat (memRead s.buf s.ops.offset.toNat 4)
    (ofBE32 (memRead s.buf (s.ops.offset.toNat - 4) 4))
    (ofBE32 (memRead s.buf (s.ops.offset.toNat + 4 +
      (ofBE32 (memRead s.buf (s.ops.offset.toNat - 4) 4)).toNat) 4))
    (crc32 (memRead s.buf s.ops.offset.toNat
      (4 + (ofBE32 (memRead s.buf (s.ops.offset.toNat - 4) 4)).toNat)))

/-- PARSE_AT's pseudocode raises on the state as it was, or reports the chunk it examined; in the
second case the verdict is whether the checksums agree (R150, R153). -/
theorem parseAtBody_cases (strict : Bool) (s : State) :
    (∃ e, e ≠ .illegalCommand ∧ e ≠ .checksumMismatch ∧ parseAtBody strict s = .raised e s) ∨
      ((examinedChunk s).stored ≠ (examinedChunk s).computed ∧ strict = true ∧
        parseAtBody strict s = .raised .checksumMismatch (s.setChunk (examinedChunk s))) ∨
      (((examinedChunk s).stored = (examinedChunk s).computed ∨ strict = false) ∧
        parseAtBody strict s = .finished
          (decide ((examinedChunk s).stored = (examinedChunk s).computed))
          (s.setChunk (examinedChunk s))) := by
  unfold parseAtBody
  dsimp only
  split
  · exact .inl ⟨_, by decide, by decide, rfl⟩
  · split
    · exact .inl ⟨_, by decide, by decide, rfl⟩
    · split
      · exact .inl ⟨_, by decide, by decide, rfl⟩
      · split
        · exact .inl ⟨_, by decide, by decide, rfl⟩
        · split
          · rename_i h
            have h : (examinedChunk s).stored = (examinedChunk s).computed := h
            exact .inr (.inr ⟨.inl h, by rw [decide_eq_true h]; rfl⟩)
          · rename_i h
            have h : (examinedChunk s).stored ≠ (examinedChunk s).computed := h
            split
            · rename_i hs
              exact .inr (.inl ⟨h, hs, rfl⟩)
            · rename_i hs
              exact .inr (.inr ⟨.inr (by simpa using hs), by rw [decide_eq_false h]; rfl⟩)

theorem RecordFrame.wide {s u : State} (h : RecordFrame s u) :
    u = { s with
      status := { s.status with
        hdrFound := u.status.hdrFound, termFound := u.status.termFound
        resOvf := u.status.resOvf }
      crcAcc := u.crcAcc, chunk := u.chunk, counts := u.counts
      header := u.header, res := u.res, buf := u.buf } := by
  have e1 : u.crcAcc = s.crcAcc := by rw [h.rest]
  rw [e1, h.buf]
  exact h.rest

theorem wide_of (s : State) (acc : Word) (c : ChunkRegs) (m : Memory) :
    ({ s with crcAcc := acc, chunk := c, buf := m } : State) = { s with
      status := { s.status with
        hdrFound := s.status.hdrFound, termFound := s.status.termFound
        resOvf := s.status.resOvf }
      crcAcc := acc, chunk := c, counts := s.counts
      header := s.header, res := s.res, buf := m } := rfl

theorem parseAtBody_wide (strict : Bool) (s : State) :
    (parseAtBody strict s).state = { s with
      status := { s.status with
        hdrFound := (parseAtBody strict s).state.status.hdrFound
        termFound := (parseAtBody strict s).state.status.termFound
        resOvf := (parseAtBody strict s).state.status.resOvf }
      crcAcc := (parseAtBody strict s).state.crcAcc, chunk := (parseAtBody strict s).state.chunk
      counts := (parseAtBody strict s).state.counts, header := (parseAtBody strict s).state.header
      res := (parseAtBody strict s).state.res, buf := (parseAtBody strict s).state.buf } := by
  rcases parseAtBody_cases strict s with ⟨_, _, _, h⟩ | ⟨_, _, h⟩ | ⟨_, h⟩ <;> rw [h]
  · exact wide_of s s.crcAcc s.chunk s.buf
  · exact wide_of s s.crcAcc (examinedChunk s) s.buf
  · exact wide_of s s.crcAcc (examinedChunk s) s.buf

/-- What every command leaves alone before its completion: the parameters, CMD, IRQEN, the operand
registers, the engine, the model's own fields, and STATUS but for the three scan flags (R85). -/
theorem commandBody_frame {i : Instr} {s : State} {b : Ended} (h : commandBody i s = some b) :
    b.state = { s with
      status := { s.status with
        hdrFound := b.state.status.hdrFound, termFound := b.state.status.termFound
        resOvf := b.state.status.resOvf }
      crcAcc := b.state.crcAcc, chunk := b.state.chunk, counts := b.state.counts
      header := b.state.header, res := b.state.res, buf := b.state.buf } := by
  cases i with
  | crcRange =>
    cases Option.some.inj h
    rcases crcRangeBody_cases s with h | ⟨_, h⟩ <;> rw [h]
    · exact wide_of s s.crcAcc s.chunk s.buf
    · exact wide_of s _ s.chunk s.buf
  | frame =>
    cases Option.some.inj h
    rcases frameBody_cases s with ⟨_, _, h⟩ | ⟨_, _, h⟩ <;> rw [h]
    · exact wide_of s s.crcAcc s.chunk s.buf
    · rw [putChunk_eq]
      generalize memWrite _ _ _ = m
      generalize builtChunk _ _ _ = c
      exact wide_of s s.crcAcc c m
  | frameHdr =>
    cases Option.some.inj h
    rcases frameHdrBody_cases s with ⟨_, _, h⟩ | ⟨_, h⟩ <;> rw [h]
    · exact wide_of s s.crcAcc s.chunk s.buf
    · rw [putChunk_eq]
      generalize memWrite _ _ _ = m
      generalize builtChunk _ _ _ = c
      exact wide_of s s.crcAcc c m
  | frameEnd =>
    cases Option.some.inj h
    rcases frameEndBody_cases s with ⟨_, _, h⟩ | ⟨_, h⟩ <;> rw [h]
    · exact wide_of s s.crcAcc s.chunk s.buf
    · rw [putChunk_eq]
      generalize memWrite _ _ _ = m
      generalize builtChunk _ _ _ = c
      exact wide_of s s.crcAcc c m
  | emitSig =>
    cases Option.some.inj h
    rcases emitSigBody_cases s with ⟨_, _, h⟩ | ⟨_, h⟩ <;> rw [h]
    · exact wide_of s s.crcAcc s.chunk s.buf
    · exact wide_of s s.crcAcc _ _
  | parseAt => cases Option.some.inj h; exact parseAtBody_wide false s
  | parseAtS => cases Option.some.inj h; exact parseAtBody_wide true s
  | scan => cases Option.some.inj h; exact (scanBody_frame s).wide
  | decode => cases Option.some.inj h; exact (decodeBody_frame s).wide
  | crcFeed v => simp [commandBody] at h
  | crcLoad v => simp [commandBody] at h
  | statusAck v => simp [commandBody] at h

end Sys2Proof.Machine
end

