-- ==== Sys2Proof/Laws/Step.lean ====
section
/-! SUPPORT. What a decoded word is, what a host register write can do, and what one step can do:
said once, with every guard, the induction principle an invariant of every step rests on, and what
a host access does while a command is pending. -/

namespace Sys2Proof.Machine

/-! ### Command words -/

/-- The fields of a command word decode to commands only (R81). -/
theorem decodeFields_isCommand {op : BitVec 4} {strict : Bool} {i : Instr}
    (h : decodeFields op strict = .ok i) : isCommand i = true := by
  unfold decodeFields plainCommand at h
  split at h <;> (try split at h) <;> simp at h <;> subst h <;> rfl

/-- A legal command word is the word of the command it stands for (R82). -/
theorem decodeCommand_ok {v : Word} {i : Instr} (h : decodeCommand v = .ok i) :
    decodeFields (cmdOp v) (cmdStrict v) = .ok i ∧ cmdWord (cmdOp v) (cmdStrict v) = v := by
  unfold decodeCommand at h
  split at h
  · simp at h
  · rename_i hr
    refine ⟨h, ?_⟩
    have hr : v.extractLsb' 5 27 = 0 := by simpa [cmdReserved] using hr
    have hlt : v.toNat < 32 := by
      have := congrArg BitVec.toNat hr
      simp [BitVec.extractLsb'_toNat, Nat.shiftRight_eq_div_pow] at this
      have := v.isLt
      omega
    have small : ∀ n : Fin 32, cmdWord (cmdOp (BitVec.ofNat 32 n.val))
        (cmdStrict (BitVec.ofNat 32 n.val)) = BitVec.ofNat 32 n.val := by decide
    simpa using small ⟨v.toNat, hlt⟩

/-! ### The register map -/

theorem cellGet_mem {β : Type} {m : List (Nat × β)} {a : Nat} {v : β}
    (h : cellGet m a = some v) : (a, v) ∈ m := by
  induction m with
  | nil => simp [cellGet] at h
  | cons c m ih =>
    obtain ⟨k, w⟩ := c
    unfold cellGet at h
    split at h
    · cases h; subst_vars; exact List.mem_cons_self ..
    · exact List.mem_cons_of_mem _ (ih h)

/-- A named register stands at an offset of the register map (R23). -/
theorem locate_named {p : Params} {wa : RegAddr} {r : Reg} (h : locate p wa = .named r) :
    (4 * wa.toNat, r) ∈ regMapLow ++ regMapHigh := by
  unfold locate at h
  dsimp only at h
  split at h
  · cases h; exact cellGet_mem (by assumption)
  · split at h <;> simp at h

theorem eq_regAddr {wa : RegAddr} {k : Nat} (h : 4 * wa.toNat = k) : wa = regAddr k := by
  apply BitVec.eq_of_toNat_eq
  have := wa.isLt
  simp only [regAddr, BitVec.toNat_ofNat]
  omega

theorem locate_cmd {p : Params} {wa : RegAddr} (h : locate p wa = .named .cmd) :
    wa = regAddr 0x000 := by
  have := locate_named h
  simp [regMapLow, regMapHigh] at this
  exact eq_regAddr (by omega)

theorem locate_status {p : Params} {wa : RegAddr} (h : locate p wa = .named .status) :
    wa = regAddr 0x004 := by
  have := locate_named h
  simp [regMapLow, regMapHigh] at this
  exact eq_regAddr (by omega)

theorem locate_crcAcc {p : Params} {wa : RegAddr} (h : locate p wa = .named .crcAcc) :
    wa = regAddr 0x038 := by
  have := locate_named h
  simp [regMapLow, regMapHigh] at this
  exact eq_regAddr (by omega)

theorem locate_crcData {p : Params} {wa : RegAddr} (h : locate p wa = .named .crcData) :
    wa = regAddr 0x03C := by
  have := locate_named h
  simp [regMapLow, regMapHigh] at this
  exact eq_regAddr (by omega)

/-! ### A host register write -/

/-- A plain store changes IRQEN and the operand registers only (R86). -/
theorem storeReg_eq (v : Word) (s : State) (r : Reg) :
    storeReg v s r
      = { s with irqen := (storeReg v s r).irqen, ops := (storeReg v s r).ops } := by
  cases r <;> rfl

/-- Everything a host register write can do (R22, R24, R26, R86, R104, R105, R237). -/
inductive RegWriteCase (wa : RegAddr) (v : Word) (s t : State) : Prop where
  /-- Dropped. -/
  | dropped (busy : s.status.busy = true) (eq : t = dropWrite s)
  /-- The issue of a legal word. -/
  | issued (busy : s.status.busy = false) (addr : wa = regAddr 0x000) (i : Instr)
      (legal : decodeCommand v = .ok i) (eq : t = issue v s)
  /-- The refusal of an illegal word. -/
  | illegal (busy : s.status.busy = false) (addr : wa = regAddr 0x000)
      (bad : ∀ i, decodeCommand v ≠ .ok i) (eq : t = refuseWord v s)
  /-- STATUS_ACK. -/
  | acked (busy : s.status.busy = false) (addr : wa = regAddr 0x004)
      (eq : t = s.setStatus (s.status.acked v))
  /-- CRC_LOAD. -/
  | loaded (busy : s.status.busy = false) (addr : wa = regAddr 0x038) (eq : t = s.setCrcAcc v)
  /-- CRC_FEED. -/
  | fed (busy : s.status.busy = false) (addr : wa = regAddr 0x03C)
      (eq : t = s.setCrcAcc (crcStep s.crcAcc (wordByte v 0)))
  /-- A store, or a write that is ignored. -/
  | stored (busy : s.status.busy = false) (r : Reg) (at' : locate s.cfg wa = .named r)
      (eq : t = storeReg v s r)
  /-- A write to a record or to a reserved offset: ignored. -/
  | ignored (busy : s.status.busy = false) (at' : ∀ r, locate s.cfg wa ≠ .named r) (eq : t = s)

theorem hostRegWrite_cases {wa : RegAddr} {v : Word} {s t : State}
    (h : hostRegWrite wa v s = .next t) : RegWriteCase wa v s t := by
  unfold hostRegWrite at h
  split at h
  · cases h; exact .dropped (by assumption) rfl
  · rename_i hb
    have hb : s.status.busy = false := by simpa using hb
    split at h
    · rename_i hl
      cases h
      unfold writeCmd
      cases hd : decodeCommand v with
      | ok i => exact .issued hb (locate_cmd hl) i hd rfl
      | error e => exact .illegal hb (locate_cmd hl) (by simp [hd]) rfl
    · rename_i hl
      simp only [exec, execStatusAck, hb] at h
      cases h; exact .acked hb (locate_status hl) rfl
    · rename_i hl
      simp only [exec, execCrcLoad, hb] at h
      cases h; exact .loaded hb (locate_crcAcc hl) rfl
    · rename_i hl
      simp only [exec, execCrcFeed, hb] at h
      cases h; exact .fed hb (locate_crcData hl) rfl
    · rename_i r _ _ _ _ hl
      cases h; exact .stored hb r hl rfl
    · rename_i hl
      cases h; exact .ignored hb (by simp [hl]) rfl
    · rename_i hl
      cases h; exact .ignored hb (by simp [hl]) rfl

/-- A host register write always answers a next state. -/
theorem hostRegWrite_next (wa : RegAddr) (v : Word) (s : State) :
    ∃ t, hostRegWrite wa v s = .next t := by
  unfold hostRegWrite
  split
  · exact ⟨_, rfl⟩
  · split <;> first
      | exact ⟨_, rfl⟩
      | (simp only [exec, execStatusAck, execCrcLoad, execCrcFeed]; split <;> exact ⟨_, rfl⟩)

/-! ### The engine's turn and one step -/

/-- Everything the engine's turn can do (R21, R216): nothing, or the pending command whole. -/
inductive EngineCase (s t : State) : Prop where
  | idle (engine : s.engine = .idle) (eq : t = s)
  | performed (op : BitVec 4) (strict : Bool) (i : Instr) (b : Ended)
      (engine : s.engine = .pending op strict) (legal : decodeFields op strict = .ok i)
      (body : commandBody i s = some b) (eq : t = complete b)

theorem engineStep_cases {s t : State} (h : engineStep s = .next t) : EngineCase s t := by
  unfold engineStep at h
  split at h
  · cases h; exact .idle (by assumption) rfl
  · split at h
    · rename_i i hd
      obtain ⟨b, hb⟩ := commandBody_isSome (decodeFields_isCommand hd) s
      rw [exec_command hb] at h
      cases h
      exact .performed _ _ _ _ (by assumption) hd hb rfl
    · simp at h

/-- Everything one step can do: the engine's turn, or one host access, or a reset (R2, R76). -/
inductive StepCase (s t : State) : Prop where
  /-- No event is left: the engine's turn. -/
  | last (inputs : s.inputs = []) (engine : EngineCase s t)
  /-- The engine's turn as an event. -/
  | turn (rest : List Event) (inputs : s.inputs = .engineTurn :: rest)
      (engine : EngineCase (s.setInputs rest) t)
  | regWrite (wa : RegAddr) (v : Word) (rest : List Event)
      (inputs : s.inputs = .regWrite wa v :: rest) (write : RegWriteCase wa v (s.setInputs rest) t)
  | regRead (wa : RegAddr) (rest : List Event) (inputs : s.inputs = .regRead wa :: rest)
      (eq : t = hostRegRead wa (s.setInputs rest))
  | bufWrite (a : Word) (b : Byte) (rest : List Event) (inputs : s.inputs = .bufWrite a b :: rest)
      (eq : t = hostBufWrite a b (s.setInputs rest))
  | bufRead (a : Word) (rest : List Event) (inputs : s.inputs = .bufRead a :: rest)
      (eq : t = hostBufRead a (s.setInputs rest))
  | reset (rest : List Event) (inputs : s.inputs = .reset :: rest)
      (eq : t = resetEvent (s.setInputs rest))

theorem step_cases {s t : State} (h : step s = .next t) : StepCase s t := by
  unfold step at h
  split at h
  · exact .last (by assumption) (engineStep_cases h)
  · rename_i e rest hi
    cases e with
    | engineTurn => exact .turn rest hi (engineStep_cases h)
    | regWrite wa v => exact .regWrite wa v rest hi (hostRegWrite_cases h)
    | regRead wa => cases h; exact .regRead wa rest hi rfl
    | bufWrite a b => cases h; exact .bufWrite a b rest hi rfl
    | bufRead a => cases h; exact .bufRead a rest hi rfl
    | reset => cases h; exact .reset rest hi rfl

/-- A property of State that looks at none of the model's own fields and that every kind of event
keeps is kept by every step. -/
theorem step_keeps {P : State → Prop}
    (own : ∀ s es rs n, P s → P { s with inputs := es, reads := rs, draws := n })
    (performed : ∀ s op strict i b, P s → s.engine = .pending op strict →
      decodeFields op strict = .ok i → commandBody i s = some b → P (complete b))
    (dropped : ∀ s, P s → s.status.busy = true → P (dropWrite s))
    (issued : ∀ s v i, P s → s.status.busy = false → decodeCommand v = .ok i → P (issue v s))
    (illegal : ∀ s v, P s → s.status.busy = false → P (refuseWord v s))
    (acked : ∀ s v, P s → s.status.busy = false → P (s.setStatus (s.status.acked v)))
    (crc : ∀ s v, P s → P (s.setCrcAcc v))
    (stored : ∀ s v r, P s → P (storeReg v s r))
    (bufWritten : ∀ s a b, P s → a < bufSize s → P (s.setBuf (cellSet s.buf a b)))
    (reset : ∀ s, P s → P (resetEvent s))
    {s t : State} (hs : P s) (h : step s = .next t) : P t := by
  have inp : ∀ rest, P (s.setInputs rest) := fun rest => own s rest s.reads s.draws hs
  have eng : ∀ {u}, P u → EngineCase u t → P t := by
    intro u hu hc
    rcases hc with ⟨_, rfl⟩ | ⟨op, strict, i, b, h1, h2, h3, rfl⟩
    · exact hu
    · exact performed _ _ _ _ _ hu h1 h2 h3
  cases step_cases h with
  | last _ hc => exact eng hs hc
  | turn rest _ hc => exact eng (inp rest) hc
  | regWrite wa v rest _ hc =>
    cases hc with
    | dropped hb e => exact e ▸ dropped _ (inp rest) hb
    | issued hb _ i hd e => exact e ▸ issued _ _ i (inp rest) hb hd
    | illegal hb _ _ e => exact e ▸ illegal _ _ (inp rest) hb
    | acked hb _ e => exact e ▸ acked _ _ (inp rest) hb
    | loaded _ _ e => exact e ▸ crc _ _ (inp rest)
    | fed _ _ e => exact e ▸ crc _ _ (inp rest)
    | stored _ r _ e => exact e ▸ stored _ _ r (inp rest)
    | ignored _ _ e => exact e ▸ inp rest
  | regRead wa rest _ e => exact e ▸ own s rest _ _ hs
  | bufWrite a b rest _ e =>
    subst e
    unfold hostBufWrite
    split
    · exact dropped _ (inp rest) (by assumption)
    · split
      · exact bufWritten _ _ _ (inp rest) (by assumption)
      · exact inp rest
  | bufRead a rest _ e => exact e ▸ own s rest _ _ hs
  | reset rest _ e => exact e ▸ reset _ (inp rest)

/-! ### Host accesses while a command is pending -/

theorem pendingInstr_eq {s : State} {op : BitVec 4} {strict : Bool} {i : Instr}
    (he : s.engine = .pending op strict) (hd : decodeFields op strict = .ok i) :
    pendingInstr s = some i := by
  simp [pendingInstr, he, hd]

/-- R22, R73: a register read changes the model's own fields only. -/
theorem step_regRead {s : State} {wa : RegAddr} {rest : List Event}
    (h : s.inputs = .regRead wa :: rest) :
    step s = .next { s with
      inputs := rest
      reads := .reg (regReadValue wa (s.setInputs rest)) :: s.reads
      draws := s.draws + 1 } := by
  simp only [step, h]
  rfl

/-- R62, R73: a buffer read changes the model's own fields only. -/
theorem step_bufRead {s : State} {a : Word} {rest : List Event}
    (h : s.inputs = .bufRead a :: rest) :
    step s = .next { s with
      inputs := rest
      reads := .buf (bufReadValue a (s.setInputs rest)) :: s.reads
      draws := s.draws + 1 } := by
  simp only [step, h]
  rfl

/-- R238: what a register read returns while a command is pending. -/
theorem regReadValue_pending {s : State} {i : Instr} (hb : s.status.busy = true)
    (hp : pendingInstr s = some i) (wa : RegAddr) :
    regReadValue wa s =
      if locInWriteSet i s (locate s.cfg wa) then Config.drawWord s.draws
      else if locate s.cfg wa = .named .status ∧ writesRes i = true
      then statusWithDraw s.status (Config.drawWord s.draws)
      else locValue s (locate s.cfg wa) := by
  simp [regReadValue, locDrawn, scanFlagsDrawn, hb, hp]

/-- R238: what a buffer read returns while a command is pending. -/
theorem bufReadValue_pending {s : State} {i : Instr} (hb : s.status.busy = true)
    (hp : pendingInstr s = some i) {a : Word} (ha : a.toNat < bufSize s) :
    bufReadValue a s =
      if byteInWriteSet i s a.toNat then Config.drawByte s.draws else bufByte s.buf a.toNat := by
  simp [bufReadValue, byteDrawn, ha, hb, hp]

/-- R237, R238: while BUSY = 1 an event other than the engine's turn and a reset changes VIOL and
the model's own fields, and nothing else. -/
theorem step_busy_access {s : State} {e : Event} {rest : List Event} (hb : s.status.busy = true)
    (h : s.inputs = e :: rest) (turn : e ≠ .engineTurn) (reset : e ≠ .reset) :
    ∃ u, step s = .next u ∧ u = { s with
      inputs := rest, reads := u.reads, draws := u.draws
      status := { s.status with viol := u.status.viol } } := by
  cases e with
  | engineTurn => exact absurd rfl turn
  | reset => exact absurd rfl reset
  | regWrite wa v =>
    exact ⟨dropWrite (s.setInputs rest), by simp [step, h, performEvent, hostRegWrite, hb], rfl⟩
  | bufWrite a b =>
    exact ⟨dropWrite (s.setInputs rest), by simp [step, h, performEvent, hostBufWrite, hb], rfl⟩
  | regRead wa => exact ⟨_, step_regRead h, rfl⟩
  | bufRead a => exact ⟨_, step_bufRead h, rfl⟩

end Sys2Proof.Machine
end

