-- ==== Sys2Proof/Laws/Records.lean ====
section
/-! SUPPORT. The induction over the loops of SCAN and DECODE, packaged once: a property that each of
their state changes keeps holds at the end of the command's pseudocode (43_scanner.md R170 to
R174, R177, R182, R185). -/

namespace Sys2Proof.Machine

/-- The state changes SCAN and DECODE are made of keep `P`. -/
structure RecordSteps (P : State → Prop) : Prop where
  /-- `new_record` (R172). -/
  made : ∀ k s, P s → P (countMade k s)
  /-- `emit` (R173). -/
  emitted : ∀ r s, P s → P (emitRecord r s)
  /-- `latch` (R174). -/
  latched : ∀ a s, P s → P (latchHeader a s)
  /-- TERM_FOUND (R177, R185). -/
  terminal : ∀ s, P s → P (s.setStatus { s.status with termFound := true })

theorem scanCommit_keeps {P : State → Prop} (hP : RecordSteps P) (r : Rec) {s : State} (h : P s) :
    P (scanCommit r s) := by
  have h1 := hP.made r.kind s h
  have h2 : P (scanHeaderLatch r (countMade r.kind s)) := by
    unfold scanHeaderLatch
    split
    · exact hP.latched _ _ h1
    · exact h1
  have h3 : P (scanTerminal r (scanHeaderLatch r (countMade r.kind s))) := by
    unfold scanTerminal
    split
    · exact hP.terminal _ h2
    · exact h2
  exact hP.emitted _ _ h3

theorem scanLoop_keeps {P : State → Prop} (hP : RecordSteps P) (n p : Nat) {s : State} (h : P s) :
    P (scanLoop n p s) := by
  induction n generalizing p s with
  | zero => exact h
  | succ n ih =>
    rw [scanLoop]
    split
    · dsimp only
      split
      · exact ih _ h
      · exact ih _ (scanCommit_keeps hP _ h)
    · exact h

theorem scanBody_keeps {P : State → Prop} (hP : RecordSteps P) {s : State}
    (h : P (clearResults s)) : P (scanBody s).state := by
  unfold scanBody
  dsimp only
  split
  · exact h
  · exact scanLoop_keeps hP _ _ h

theorem readChunk_keeps {P : State → Prop} (hP : RecordSteps P) (hc : ∀ c s, P s → P (s.setChunk c))
    (p : Nat) {s : State} (h : P s) : P (readChunkState (readChunk p s)) := by
  unfold readChunk
  dsimp only
  split
  · exact h
  · have h1 := hP.made (kindOf (memRead s.buf (p + 4) 4)) s h
    split
    · exact hP.emitted _ _ h1
    · split
      · exact hP.emitted _ _ h1
      · split
        · exact hP.emitted _ _ (hc _ _ h1)
        · exact hc _ _ h1

theorem structureStep_keeps {P : State → Prop} (hP : RecordSteps P) (ph : Phase) (r : Rec)
    {s : State} (h : P s) :
    (∀ x, structureStep ph r s = .ok x → P x.2) ∧
      (∀ e, structureStep ph r s = .error e → P e.2) := by
  have hr := hP.emitted r s h
  unfold structureStep headerStep
  cases ph <;> dsimp only <;> repeat' split
  all_goals refine ⟨fun x hx => ?_, fun e he => ?_⟩
  all_goals first
    | (simp at hx; done)
    | (simp at he; done)
    | (cases hx; first | exact h | (rename_i h'; split at h' <;> cases h'; exact hP.latched _ _ h))
    | (cases he; first | exact hr | (rename_i h'; split at h' <;> cases h'; exact hP.emitted _ _ h))

theorem decodeLoop_keeps {P : State → Prop} (hP : RecordSteps P)
    (hc : ∀ c s, P s → P (s.setChunk c)) (n p : Nat) (ph : Phase) {s : State} (h : P s) :
    P (decodeLoop n p ph s).state := by
  induction n generalizing p ph s with
  | zero => exact h
  | succ n ih =>
    have hr := readChunk_keeps hP hc p h
    rw [decodeLoop]
    cases e : readChunk p s with
    | error x => rw [e] at hr; exact hr
    | ok x =>
      rw [e] at hr
      have hs := structureStep_keeps hP ph x.1 hr
      dsimp only
      cases e' : structureStep ph x.1 x.2 with
      | error y => exact hs.2 y e'
      | ok y =>
        have h3 := hP.emitted x.1 y.2 (hs.1 y e')
        dsimp only
        split
        · exact hP.terminal _ h3
        · exact ih _ _ h3

theorem decodeBody_keeps {P : State → Prop} (hP : RecordSteps P)
    (hc : ∀ c s, P s → P (s.setChunk c)) {s : State} (h : P (clearResults s)) :
    P (decodeBody s).state := by
  unfold decodeBody
  dsimp only
  split
  · exact h
  · split
    · exact h
    · exact decodeLoop_keeps hP hc _ _ _ h

end Sys2Proof.Machine
end

