-- ==== Sys2Proof/Laws/PerInstr.lean ====
section
/-! SUPPORT. The family EncodeTarget, said once per instruction: where its port write goes and which
words it may carry (30_encoding.md R80, R82, R86). -/

namespace Sys2Proof.Laws.EncodeTarget

open Sys2Proof

/-- A command is a write to CMD of a word whose reserved bits are 0; a register-port operation is a
write to a register other than CMD, of any word. -/
def Statement (i : Instr) : Prop :=
  if isCommand i then (encode i).addr = regAddr 0x000 ∧ cmdReserved (encode i).data = 0
  else (encode i).addr ≠ regAddr 0x000

theorem crcRange : Statement .crcRange := by unfold Statement; decide
theorem frame : Statement .frame := by unfold Statement; decide
theorem frameHdr : Statement .frameHdr := by unfold Statement; decide
theorem frameEnd : Statement .frameEnd := by unfold Statement; decide
theorem emitSig : Statement .emitSig := by unfold Statement; decide
theorem parseAt : Statement .parseAt := by unfold Statement; decide
theorem parseAtS : Statement .parseAtS := by unfold Statement; decide
theorem scan : Statement .scan := by unfold Statement; decide
theorem decode : Statement .decode := by unfold Statement; decide
theorem crcFeed (v : Word) : Statement (.crcFeed v) := by simp [Statement, isCommand, encode, regAddr]
theorem crcLoad (v : Word) : Statement (.crcLoad v) := by simp [Statement, isCommand, encode, regAddr]
theorem statusAck (v : Word) : Statement (.statusAck v) := by
  simp [Statement, isCommand, encode, regAddr]

end Sys2Proof.Laws.EncodeTarget
end

