-- ==== Sys2Proof/Tests/Slice0.lean ====
section
/-! SUPPORT. The model's own tests. The expected values are those of 95_test_vectors.md (the vector
is named), or written out from the rule named. After them, one witness per statement with
hypotheses: a state and operands that meet all of them together, at boundary values where a
statement has several clauses. -/

namespace Sys2Proof.Tests

open Sys2Proof Sys2Proof.Machine Sys2Proof.Safety

/-! ### Helpers -/

/-- A CFP of the conventions of 95_test_vectors.md after reset, with the bytes `bs` at `a` and the
operand registers changed by `f`. -/
def mk (a : Nat) (bs : List Byte) (f : OperandRegs → OperandRegs) : State :=
  let s := State.powerOn { bufAw := 8, resDepth := 8 }
  { s with buf := memWrite [] a bs, ops := f s.ops }

/-- The next state, if the outcome is one. -/
def after : Host.Outcome State Fault Refusal → Option State
  | .next s => some s
  | _ => none

/-- What `f` says of the next state. -/
def see {β : Type} (o : Host.Outcome State Fault Refusal) (f : State → β) : Option β :=
  (after o).map f

/-- The eight words of record `i`. -/
def recordWords (s : State) (i : Nat) : List Word :=
  [0, 1, 2, 3, 4, 5, 6, 7].map (resRecord s.res i).word

/-- R_TYPE .. R_END. -/
def chunkWords (s : State) : List Word :=
  [.rType, .rLen, .rData, .rStored, .rCalc, .rEnd].map (regValue s)

/-- The chunk of V-F1. -/
def hiChunk : List Byte :=
  [0x00, 0x00, 0x00, 0x02, 0x49, 0x44, 0x41, 0x54, 0x68, 0x69, 0xE5, 0xB1, 0x85, 0xE9]

/-- The header chunk `H` of V-F5. -/
def hdrChunk : List Byte :=
  [0x00, 0x00, 0x00, 0x0D, 0x49, 0x48, 0x44, 0x52, 0x00, 0x00, 0x00, 0x03, 0x00, 0x00, 0x00, 0x03,
   0x08, 0x02, 0x00, 0x00, 0x00, 0xD9, 0x4A, 0x22, 0xE8]

/-- `TERM` (R70). -/
def termChunk : List Byte :=
  [0x00, 0x00, 0x00, 0x00, 0x49, 0x45, 0x4E, 0x44, 0xAE, 0x42, 0x60, 0x82]

/-- `SIG` (R66). -/
def sigBytes : List Byte := [137, 80, 78, 71, 13, 10, 26, 10]

/-- The container `P1C`. -/
def p1c : List Byte :=
  sigBytes ++ hdrChunk ++
    [0x00, 0x00, 0x00, 0x0D, 0x49, 0x44, 0x41, 0x54, 0x00, 0x01, 0x02, 0x03, 0x04, 0x05, 0x06, 0x07,
     0x08, 0x09, 0x0A, 0x0B, 0x0C, 0xAB, 0x7D, 0x4E, 0xC0] ++ termChunk

/-- A state whose next event is `e`. -/
def withEvent (s : State) (e : Event) : State := { s with inputs := [e] }

/-- A state in which the command word `v` has just been issued and nothing else is to happen. -/
def issued (s : State) (v : Word) : State := issue v s

/-! ### Well-formedness -/

theorem test_wf_every_command :
    [Instr.crcRange, .frame, .frameHdr, .frameEnd, .emitSig, .parseAt, .parseAtS, .scan, .decode,
      .crcFeed 0xFFFFFFFF, .crcLoad 0, .statusAck 0].all Instr.wf = true := by decide

theorem test_wf_params_smallest : Params.wf { bufAw := 4, resDepth := 1 } = true := by decide

theorem test_wf_params_largest : Params.wf { bufAw := 31, resDepth := 128 } = true := by decide

theorem test_wf_refuses_small_buffer : Params.wf { bufAw := 3, resDepth := 8 } = false := by decide

theorem test_wf_refuses_large_buffer : Params.wf { bufAw := 32, resDepth := 8 } = false := by decide

theorem test_wf_refuses_no_records : Params.wf { bufAw := 8, resDepth := 0 } = false := by decide

theorem test_wf_refuses_many_records : Params.wf { bufAw := 8, resDepth := 129 } = false := by decide

/-! ### Decoding: every constructor, by a word written out from R82 and R86 -/

theorem test_decode_crcRange :
    decodeTableWord 32 0b0000000000000000000000000000_0001 = some .crcRange := by decide

theorem test_decode_frame :
    decodeTableWord 32 0b0000000000000000000000000000_0010 = some .frame := by decide

theorem test_decode_frameHdr :
    decodeTableWord 32 0b0000000000000000000000000000_0011 = some .frameHdr := by decide

theorem test_decode_frameEnd :
    decodeTableWord 32 0b0000000000000000000000000000_0100 = some .frameEnd := by decide

theorem test_decode_emitSig :
    decodeTableWord 32 0b0000000000000000000000000000_0101 = some .emitSig := by decide

theorem test_decode_parseAt :
    decodeTableWord 32 0b000000000000000000000000000_0_0110 = some .parseAt := by decide

theorem test_decode_parseAtS :
    decodeTableWord 32 0b000000000000000000000000000_1_0110 = some .parseAtS := by decide

theorem test_decode_scan :
    decodeTableWord 32 0b0000000000000000000000000000_0111 = some .scan := by decide

theorem test_decode_decode :
    decodeTableWord 32 0b0000000000000000000000000000_1000 = some .decode := by decide

/-- The offset 0x03C, with the operand word 0x149 above its 16 bits. -/
theorem test_decode_crcFeed :
    decodeTableWord 16 (0x03C + 0x149 * 65536) = some (.crcFeed 0x149) := by decide

theorem test_decode_crcLoad : decodeTableWord 16 0x038 = some (.crcLoad 0) := by decide

theorem test_decode_statusAck :
    decodeTableWord 16 (0x004 + 0x82 * 65536) = some (.statusAck 0x82) := by decide

/-- The illegal words of V-E1. -/
theorem test_decode_refuses_illegal_words :
    [0x00000000, 0x00000009, 0x0000000F, 0x00000010, 0x00000017, 0x00000026, 0x80000006,
      0xFFFFFFFF].all (fun w => (decodeTableWord 32 w).isNone) = true := by decide

/-- R83: the three ways a word is illegal, each by its name. -/
theorem test_decode_names_the_reason :
    decodeCommand 0x00000026 = .error .reservedBits ∧ decodeCommand 0x00000009 = .error .illegalOpcode ∧
      decodeCommand 0x00000017 = .error .strictNotAllowed ∧
      decode ⟨0x00C / 4, 5⟩ = .error .notAnOperation := ⟨rfl, rfl, rfl, rfl⟩

/-! ### CRC integrator -/

/-- V-C1. -/
theorem test_crcRange_V_C1 :
    see (exec .crcRange (mk 0x10 [0x49, 0x45, 0x4E, 0x44] fun o => { o with src := 0x10, len := 4 }))
      (fun t => (t.crcAcc, regValue t .crcResult, t.status.word))
      = some (0x51BD9F7D, 0xAE426082, 0x00000002) := by decide +kernel

/-- V-C3c: the end 2^32 + 1 is not wrapped to 1. -/
theorem test_crcRange_V_C3c :
    see (exec .crcRange (mk 0 [] fun o => { o with src := 0xFFFFFFFF, len := 2 }))
      (fun t => (t.crcAcc, t.status.word)) = some (0xFFFFFFFF, 0x00000906) := by decide +kernel

/-- V-C6: bits 31:8 are ignored. -/
theorem test_crcFeed_V_C6 :
    see (exec (.crcFeed 0x00000149) (mk 0 [] id)) (fun t => (t.crcAcc, t.status.word))
      = some (0x22FDE946, 0x00000000) := by decide +kernel

/-- V-C9: dropped while a command is pending. -/
theorem test_crcFeed_V_C9 :
    see (exec (.crcFeed 0x55) (issued (mk 0 [] id) 0x00000001)) (fun t => (t.crcAcc, t.status.word))
      = some (0xFFFFFFFF, 0x00000081) := by decide +kernel

/-- V-C8. -/
theorem test_crcLoad_V_C8 :
    see (exec (.crcLoad 0xFFFFFFFF) { mk 0 [] id with crcAcc := 0x12345678 })
      (fun t => regValue t .crcResult) = some 0x00000000 := by decide +kernel

/-- V-C9. -/
theorem test_crcLoad_V_C9 :
    see (exec (.crcLoad 0) (issued (mk 0 [] id) 0x00000001)) (fun t => (t.crcAcc, t.status.word))
      = some (0xFFFFFFFF, 0x00000081) := by decide +kernel

/-! ### Framer -/

/-- V-F1. -/
theorem test_frame_V_F1 :
    see (exec .frame (mk 0x40 [0x68, 0x69]
        fun o => { o with type := 0x49444154, src := 0x40, len := 2, dst := 0x80 }))
      (fun t => (memRead t.buf 0x80 14, chunkWords t, t.status.word))
      = some (hiChunk, [0x49444154, 2, 0x88, 0xE5B185E9, 0xE5B185E9, 0x8E], 0x00000002) := by
  decide +kernel

/-- V-F10f: an overlap of one byte. -/
theorem test_frame_V_F10f :
    see (exec .frame (mk 0x1F [0xAA, 0xBB]
        fun o => { o with type := 0x49444154, src := 0x1F, len := 2, dst := 0x20 }))
      (fun t => (t.status.word, chunkWords t)) = some (0x00000A06, [0, 0, 0, 0, 0, 0]) := by
  decide +kernel

/-- V-F7: the parameters are packed unchecked, in the order of R67. -/
theorem test_frameHdr_V_F7 :
    see (exec .frameHdr (mk 0 [] fun o => { o with
        width := 0xFFFFFFFF, height := 0x01020304, hparam := 0xFFFFFFFF, hilace := 0xFF }))
      (fun t => (memRead t.buf 0 25, (chunkWords t).drop 1))
      = some ([0x00, 0x00, 0x00, 0x0D, 0x49, 0x48, 0x44, 0x52, 0xFF, 0xFF, 0xFF, 0xFF, 0x01, 0x02,
          0x03, 0x04, 0xFF, 0xFF, 0xFF, 0xFF, 0xFF, 0x35, 0xE3, 0x7D, 0xA8],
        [13, 0x8, 0x35E37DA8, 0x35E37DA8, 0x19]) := by decide +kernel

/-- V-F6b: the dimensions are checked before the range. -/
theorem test_frameHdr_V_F6b :
    see (exec .frameHdr (mk 0 [] fun o => { o with width := 3, height := 0, dst := 0x1000 }))
      (fun t => t.status.word) = some 0x00000306 := by decide +kernel

/-- V-F8a. -/
theorem test_frameEnd_V_F8a :
    see (exec .frameEnd (mk 0 [] fun o => { o with dst := 0xF4 }))
      (fun t => (memRead t.buf 0xF4 12, chunkWords t))
      = some (termChunk, [0x49454E44, 0, 0xFC, 0xAE426082, 0xAE426082, 0x100]) := by decide +kernel

/-- V-F8b. -/
theorem test_frameEnd_V_F8b :
    see (exec .frameEnd (mk 0 [] fun o => { o with dst := 0xF5 })) (fun t => (t.status.word, t.buf))
      = some (0x00000906, []) := by decide +kernel

/-- V-F9a. -/
theorem test_emitSig_V_F9a :
    see (exec .emitSig (mk 0 [] id)) (fun t => (memRead t.buf 0 8, chunkWords t, t.status.word))
      = some (sigBytes, [0, 0, 0, 0, 0, 8], 0x00000002) := by decide +kernel

/-- V-F9b. -/
theorem test_emitSig_V_F9b :
    see (exec .emitSig (mk 0 [] fun o => { o with dst := 249 })) (fun t => (t.status.word, t.buf))
      = some (0x00000906, []) := by decide +kernel

/-! ### Parser -/

/-- The set-up of V-P1 to V-P8. -/
def parseSetup (bs : List Byte) : State :=
  mk 0x80 bs fun o => { o with base := 0x80, limit := 0x8E, offset := 0x84 }

/-- V-P1. -/
theorem test_parseAt_V_P1 :
    see (exec .parseAt (parseSetup hiChunk)) (fun t => (t.status.word, chunkWords t))
      = some (0x0000000A, [0x49444154, 2, 0x88, 0xE5B185E9, 0xE5B185E9, 0x8E]) := by decide +kernel

/-- V-P6: the lenient form does not test the tag. -/
theorem test_parseAt_V_P6 :
    see (exec .parseAt (parseSetup (hiChunk.set 4 0xC9))) (fun t => (t.status.word, chunkWords t))
      = some (0x00000002, [0xC9444154, 2, 0x88, 0xE5B185E9, 0xFB019131, 0x8E]) := by decide +kernel

/-- V-P3: the result registers are written before the raise. -/
theorem test_parseAtS_V_P3 :
    see (exec .parseAtS (parseSetup (hiChunk.set 9 0x6A))) (fun t => (t.status.word, chunkWords t))
      = some (0x00000206, [0x49444154, 2, 0x88, 0xE5B185E9, 0x7CB8D453, 0x8E]) := by decide +kernel

/-- V-P8: a huge declared length is TRUNCATED_BUFFER. -/
theorem test_parseAtS_V_P8 :
    see (exec .parseAtS (parseSetup ([0xFF, 0xFF, 0xFF, 0xFF] ++ hiChunk.drop 4)))
      (fun t => (t.status.word, chunkWords t)) = some (0x00000406, [0, 0, 0, 0, 0, 0]) := by
  decide +kernel

/-! ### Scanner and decoder -/

/-- V-S5: the window begins at the header's tag. -/
theorem test_scan_V_S5 :
    see (exec .scan (mk 0 p1c fun o => { o with base := 12, limit := 70 }))
      (fun t => (t.status.word, [t.counts.nrec, t.counts.nbad], recordWords t 0, t.header.hparam))
      = some (0x00000022, [3, 1], [0x49484452, 0x002, 0xC, 0, 0, 0, 0, 0], 0) := by decide +kernel

/-- V-S12: overlapping truncated matches, the second with a known length. -/
theorem test_scan_V_S12 :
    see (exec .scan (mk 0 (tagIdat ++ tagIdat) fun o => { o with limit := 8 }))
      (fun t => (t.status.word, recordWords t 0, recordWords t 1))
      = some (0x00000002, [0x49444154, 0x102, 0x0, 0, 0, 0, 0, 0],
        [0x49444154, 0x106, 0x4, 0x49444154, 0, 0, 0, 1]) := by decide +kernel

/-- V-D1. -/
theorem test_decode_V_D1 :
    see (exec .decode (mk 0 p1c fun o => { o with limit := 70 }))
      (fun t => (t.status.word, recordWords t 1, chunkWords t,
        [t.header.width, t.header.height, t.header.hparam, t.header.hilace]))
      = some (0x0000003A, [0x49444154, 0x105, 0x25, 0xD, 0x29, 0xAB7D4EC0, 0xAB7D4EC0, 0],
        [0x49454E44, 0, 0x42, 0xAE426082, 0xAE426082, 0x46], [3, 3, 0x00000208, 0]) := by
  decide +kernel

/-- V-D10: truncated inside the terminal chunk. -/
theorem test_decode_V_D10 :
    see (exec .decode (mk 0 p1c fun o => { o with limit := 69 }))
      (fun t => (t.status.word, [t.counts.nrec, t.counts.nbad], recordWords t 2, chunkWords t))
      = some (0x00000416, [3, 1], [0x49454E44, 0x206, 0x3E, 0, 0, 0, 0, 0],
        [0x49444154, 0xD, 0x29, 0xAB7D4EC0, 0xAB7D4EC0, 0x3A]) := by decide +kernel

/-! ### The ports, STATUS and reset -/

/-- V-E2: DONE is kept, VIOL is cleared. -/
theorem test_statusAck_V_E2 :
    see (exec (.statusAck 0x80) { mk 0 [] id with
        status := { Status.zero with done := true, viol := true } })
      (fun t => t.status.word) = some 0x00000002 := by decide

/-- V-E2: dropped while a command is pending. -/
theorem test_statusAck_dropped_V_E2 :
    see (exec (.statusAck 0x82) (issued (mk 0 [] id) 0x00000005)) (fun t => t.status.word)
      = some 0x00000081 := by decide

/-- V-E1: an illegal word completes at once, and CMD holds it. -/
theorem test_illegal_word_V_E1 :
    see (step (withEvent { mk 0 [] id with irqen := 1 } (hostW 0x000 0x80000006)))
      (fun t => (t.status.word, irq t, t.cmd)) = some (0x00000806, true, 0x80000006) := by decide

/-- V-E3. -/
theorem test_irqen_V_E3 :
    see (step (withEvent (mk 0 [] id) (hostW 0x008 0xFFFFFFFF))) (fun t => t.irqen)
      = some 0x00000001 := by decide

/-- V-F7: HILACE keeps its low byte. -/
theorem test_hilace_V_F7 :
    see (step (withEvent (mk 0 [] id) (hostW 0x028 0x1FF))) (fun t => t.ops.hilace)
      = some 0xFF := by decide

/-- V-E4: writes to read-only registers are ignored. -/
theorem test_readOnly_V_E4 :
    see (step (withEvent (mk 0 [] id) (hostW 0x088 0))) (fun t => regValue t .cfgBufLast)
      = some 255 := by decide

/-- V-R1: a reset while FRAME_END is pending. -/
theorem test_reset_V_R1 :
    see (step (withEvent (issued (mk 0 [] id) 0x00000004) .reset))
      (fun t => (t.status.word, t.engine, t.cmd, regValue t .cfgResDepth, t.crcAcc))
      = some (0x00000000, .idle, 0, 8, 0xFFFFFFFF) := by decide +kernel

/-- A placed word is fetched by the very next step (assumption 4). -/
theorem test_withFetchWord_command :
    see (step (State.reset.withFetchWord 32 0x00000005)) (fun t => (memRead t.buf 0 8, t.status.word))
      = some (sigBytes, 0x00000002) := by decide +kernel

theorem test_withFetchWord_operation :
    see (step (State.reset.withFetchWord 16 (0x03C + 0x149 * 65536))) (fun t => t.crcAcc)
      = some 0x22FDE946 := by decide +kernel

/-! ### Witnesses: encoding and steps -/

/-- An idle CFP after reset. -/
def idle : State := mk 0 [] id

/-- FRAME pending on the operands of V-F1. -/
def framePending : State :=
  issued (mk 0x40 [0x68, 0x69] fun o =>
    { o with type := 0x49444154, src := 0x40, len := 2, dst := 0x80 }) 0x00000002

/-- SCAN pending. -/
def scanPending : State := issued (mk 0 p1c fun o => { o with limit := 70 }) 0x00000007

theorem framePending_engineInv : EngineInv framePending :=
  ⟨rfl, rfl, rfl, rfl, rfl, ⟨.frame, rfl⟩, by decide⟩

theorem scanPending_engineInv : EngineInv scanPending :=
  ⟨rfl, rfl, rfl, rfl, rfl, ⟨.scan, rfl⟩, by decide⟩

theorem witness_LegalCommandWordsAreTheNine :
    decodeCommand 0x00000016 = .ok .parseAtS ∧ (0x00000016#32).extractLsb' 5 27 = 0 ∧
      ((0x00000016#32).extractLsb' 0 4).toNat = 6 ∧ (0x00000016#32).getLsbD 4 = true := by
  exact ⟨rfl, by decide, by decide, by decide⟩

theorem witness_DecodeAndEncodeAreInverse :
    (Instr.crcFeed 0xFFFFFFFF).wf = true ∧
      decode ⟨0x03C / 4, 0xFFFFFFFF⟩ = .ok (.crcFeed 0xFFFFFFFF) := ⟨rfl, rfl⟩

theorem witness_EngineTurnRunsThePendingCommand :
    framePending.engine = .pending 0x2 false ∧ decodeFields 0x2 false = .ok .frame ∧
      framePending.inputs = [] ∧ (withEvent framePending .engineTurn).inputs = .engineTurn :: [] ∧
      idle.engine = .idle ∧ idle.inputs = [] ∧
      (withEvent idle .engineTurn).inputs = .engineTurn :: [] :=
  ⟨rfl, rfl, rfl, rfl, rfl, rfl, rfl⟩

theorem witness_OperationWriteRunsItsInstr :
    (withEvent idle (.regWrite (regAddr 0x03C) 0x149)).inputs
        = .regWrite (regAddr 0x03C) 0x149 :: [] ∧
      decode ⟨regAddr 0x03C, 0x149⟩ = .ok (.crcFeed 0x149) ∧ isCommand (.crcFeed 0x149) = false :=
  ⟨rfl, rfl, rfl⟩

theorem witness_LegalWriteToCmdIssues :
    (withEvent idle (.regWrite (regAddr 0x000) 0x00000016)).inputs
        = .regWrite (regAddr 0x000) 0x00000016 :: [] ∧
      decodeCommand 0x00000016 = .ok .parseAtS ∧
      (withEvent idle (.regWrite (regAddr 0x000) 0x00000016)).status.busy = false ∧
      framePending.status.busy = true := ⟨rfl, rfl, rfl, rfl⟩

/-- The words next to the legal ones. -/
theorem witness_IllegalWriteToCmdCompletesAtOnce :
    (withEvent idle (.regWrite (regAddr 0x000) 0x00000009)).inputs
        = .regWrite (regAddr 0x000) 0x00000009 :: [] ∧
      (withEvent idle (.regWrite (regAddr 0x000) 0x00000009)).status.busy = false ∧
      ∀ v ∈ [0x00000000#32, 0x00000009, 0x00000015, 0x00000017, 0x00000026, 0xFFFFFFFF],
        v ∉ [0x00000001#32, 0x00000002, 0x00000003, 0x00000004, 0x00000005, 0x00000006, 0x00000016,
          0x00000007, 0x00000008] := by
  exact ⟨rfl, rfl, by simp⟩

/-! ### Witnesses: the register port -/

/-- The last record of the largest table, and the first and last reserved offsets of both ranges. -/
theorem witness_RecordsAndReservedOffsets :
    Params.wf { bufAw := 31, resDepth := 128 } = true ∧ 127 < 128 ∧ 7 < 8 ∧
      idle.cfg.wf = true ∧
      (∀ wa ∈ [regAddr 0x08C, regAddr 0x0FC],
        0x08C ≤ 4 * wa.toNat ∧ 4 * wa.toNat ≤ 0x0FC) ∧
      (∀ wa ∈ [regAddr 0x200, regAddr 0x1FFC], 0x100 + 32 * idle.cfg.resDepth ≤ 4 * wa.toNat) := by
  decide +kernel

/-- HILACE, IRQEN and a register without reserved bits. -/
theorem witness_PlainRegisterWritesStore :
    ∀ c ∈ [(0x028, Reg.hilace), (0x008, .irqen), (0x00C, .src), (0x034, .offset)],
      (withEvent idle (.regWrite (regAddr c.1) 0xFFFFFFFF)).inputs
          = .regWrite (regAddr c.1) 0xFFFFFFFF :: [] ∧
        (withEvent idle (.regWrite (regAddr c.1) 0xFFFFFFFF)).status.busy = false ∧
        locate idle.cfg (regAddr c.1) = .named c.2 ∧
        c.2 ∈ [Reg.irqen, .src, .len, .dst, .type, .width, .height, .hparam, .hilace, .base, .limit,
          .offset] := by decide +kernel

/-- A read-only register, a record and a reserved offset. -/
theorem witness_OtherRegisterWritesAreIgnored :
    ∀ a ∈ [0x088, 0x100, 0x08C],
      (withEvent idle (.regWrite (regAddr a) 5)).inputs = .regWrite (regAddr a) 5 :: [] ∧
        (withEvent idle (.regWrite (regAddr a) 5)).status.busy = false ∧
        ∀ r ∈ [Reg.cmd, .status, .irqen, .src, .len, .dst, .type, .width, .height, .hparam, .hilace,
          .base, .limit, .offset, .crcAcc, .crcData],
          locate idle.cfg (regAddr a) ≠ .named r := by decide +kernel

theorem witness_IdleRegisterReadReturnsValue :
    (withEvent idle (.regRead (regAddr 0x088))).inputs = .regRead (regAddr 0x088) :: [] ∧
      (withEvent idle (.regRead (regAddr 0x088))).status.busy = false := ⟨rfl, rfl⟩

/-- The last address of BUF and the first past it, idle and busy. -/
theorem witness_BufferPortReadsAndWritesBytes :
    (withEvent idle (.bufRead 255)).inputs = .bufRead 255 :: [] ∧
      (255#32).toNat < 2 ^ idle.cfg.bufAw ∧
      byteDrawn (withEvent idle (.bufRead 255)) 255 = false ∧
      2 ^ idle.cfg.bufAw ≤ (256#32).toNat ∧
      (withEvent idle (.bufWrite 255 7)).inputs = .bufWrite 255 7 :: [] ∧
      idle.status.busy = false ∧ framePending.status.busy = true ∧
      (withEvent framePending (.bufWrite 256 7)).inputs = .bufWrite 256 7 :: [] := by decide

/-! ### Witnesses: hazards and reset -/

theorem witness_WriteWhileBusyIsDropped :
    (withEvent framePending (hostW 0x000 1)).inputs = hostW 0x000 1 :: [] ∧
      (withEvent framePending (hostW 0x000 1)).status.busy = true ∧
      (∃ wa v, hostW 0x000 1 = .regWrite wa v) ∧
      (withEvent framePending (.bufWrite 0 7)).inputs = .bufWrite 0 7 :: [] ∧
      ∃ a b, Event.bufWrite 0 7 = .bufWrite a b :=
  ⟨rfl, rfl, ⟨_, _, rfl⟩, rfl, ⟨_, _, rfl⟩⟩

/-- FRAME pending with an output range that passes BUF_SIZE. -/
def framePast : State := issued (mk 0 [] fun o => { o with len := 2, dst := 250 }) 0x00000002

theorem framePast_engineInv : EngineInv framePast :=
  ⟨rfl, rfl, rfl, rfl, rfl, ⟨.frame, rfl⟩, by decide⟩

/-- Under FRAME: R_LEN, in the write set and where the output range passes BUF_SIZE; R_NREC, a
record, a reserved offset and STATUS. Under SCAN: a record and STATUS. -/
theorem witness_ReadsWhileBusy_registers :
    (EngineInv (withEvent framePending (.regRead (regAddr 0x048))) ∧
      (withEvent framePending (.regRead (regAddr 0x048))).inputs = .regRead (regAddr 0x048) :: [] ∧
      (withEvent framePending (.regRead (regAddr 0x048))).engine = .pending 0x2 false ∧
      decodeFields 0x2 false = .ok .frame) ∧
    (EngineInv (withEvent framePast (.regRead (regAddr 0x048))) ∧
      framePast.engine = .pending 0x2 false ∧ 0 < 14 ∧ 14 = 12 + framePast.ops.len.toNat ∧
      2 ^ framePast.cfg.bufAw < framePast.ops.dst.toNat + 14) ∧
    (Reg.rLen ∈ [Reg.rType, .rLen, .rData, .rStored, .rCalc, .rEnd] ∧
      locate framePending.cfg (regAddr 0x048) = .named .rLen ∧
      framePending.ops.dst.toNat + 14 ≤ 2 ^ framePending.cfg.bufAw) ∧
    (Reg.rNrec ∉ [Reg.rType, .rLen, .rData, .rStored, .rCalc, .rEnd] ∧
      locate framePending.cfg (regAddr 0x05C) = .named .rNrec) ∧
    locate framePending.cfg (regAddr 0x1FC) = .record 7 7 ∧
    locate framePending.cfg (regAddr 0x200) = .reserved ∧
    locate framePending.cfg (regAddr 0x004) = .named .status ∧
    (EngineInv (withEvent scanPending (.regRead (regAddr 0x100))) ∧
      scanPending.engine = .pending 0x7 false ∧ decodeFields 0x7 false = .ok .scan ∧
      locate scanPending.cfg (regAddr 0x100) = .record 0 0 ∧
      locate scanPending.cfg (regAddr 0x004) = .named .status) :=
  ⟨⟨framePending_engineInv, rfl, rfl, rfl⟩,
    ⟨framePast_engineInv, rfl, by decide, by decide, by decide⟩,
    ⟨by decide, rfl, by decide⟩, ⟨by decide, rfl⟩, rfl, rfl, rfl,
    ⟨scanPending_engineInv, rfl, rfl, rfl, rfl⟩⟩

/-- The first and the last byte of FRAME's write set, and the bytes beside them; and a byte of a
range that passes BUF_SIZE. -/
theorem witness_ReadsWhileBusy_buffer :
    (withEvent framePending (.bufRead 0x80)).inputs = .bufRead 0x80 :: [] ∧
      EngineInv (withEvent framePending (.bufRead 0x80)) ∧ framePending.engine = .pending 0x2 false ∧
      decodeFields 0x2 false = .ok .frame ∧ (0x80#32).toNat < 2 ^ framePending.cfg.bufAw ∧
      14 = 12 + framePending.ops.len.toNat ∧
      (∀ a ∈ [0x80, 0x8D], framePending.ops.dst.toNat + 14 ≤ 2 ^ framePending.cfg.bufAw ∧
        framePending.ops.dst.toNat ≤ a ∧ a < framePending.ops.dst.toNat + 14) ∧
      0x7F < framePending.ops.dst.toNat ∧ framePending.ops.dst.toNat + 14 ≤ 0x8E ∧
      (EngineInv (withEvent framePast (.bufRead 255)) ∧ (255#32).toNat < 2 ^ framePast.cfg.bufAw ∧
        2 ^ framePast.cfg.bufAw < framePast.ops.dst.toNat + 14) :=
  ⟨rfl, framePending_engineInv, rfl, rfl, by decide, by decide, by decide, by decide, by decide,
    framePast_engineInv, by decide, by decide⟩

/-- A framer command, a parser command and SCAN, with locations outside their write sets. -/
theorem witness_CommandsChangeOnlyTheirWriteSet :
    isCommand .frame = true ∧ byteInWriteSet .frame framePending 0x7F = false ∧
      byteInWriteSet .frame framePending 0x80 = true ∧
      locInWriteSet .frame framePending (.named .crcAcc) = false ∧ isCommand .parseAt = true ∧
      isCommand .scan = true ∧ locInWriteSet .scan scanPending (.named .rEnd) = false := by decide

/-- A reset with nothing pending, with FRAME pending and with SCAN pending. -/
theorem witness_ResetEventResetsAndAbandons :
    (withEvent idle .reset).inputs = .reset :: [] ∧ pendingInstr (withEvent idle .reset) = none ∧
      (withEvent framePending .reset).inputs = .reset :: [] ∧
      pendingInstr (withEvent framePending .reset) = some .frame ∧
      byteInWriteSet .frame (withEvent framePending .reset) 0x8D = true ∧
      13 = (withEvent framePending .reset).draws + (0x8D - framePending.ops.dst.toNat) ∧
      byteInWriteSet .frame (withEvent framePending .reset) 0x8E = false ∧
      pendingInstr (withEvent scanPending .reset) = some .scan ∧
      7 < (withEvent scanPending .reset).cfg.resDepth := by decide

theorem witness_ParametersNeverChange : ∃ t, step framePending = .next t := ⟨_, rfl⟩

/-! ### Witnesses: completion, STATUS and the integrator -/

theorem witness_EveryCommandCompletes : isCommand .crcRange = true := rfl

/-- BUSY falls at a completion and at a reset, and rises at an issue. -/
theorem witness_BusyChangesOnlyAtIssueCompletionReset :
    (∃ t, step framePending = .next t ∧ framePending.status.busy = true ∧
        t.status.busy = false) ∧
      (∃ t, step (withEvent framePending .reset) = .next t ∧
        (withEvent framePending .reset).status.busy = true ∧ t.status.busy = false) ∧
      (∃ t, step (withEvent idle (hostW 0x000 0x00000001)) = .next t ∧
        (withEvent idle (hostW 0x000 0x00000001)).status.busy = false ∧ t.status.busy = true) :=
  ⟨⟨_, rfl, rfl, rfl⟩, ⟨_, rfl, rfl, rfl⟩, ⟨_, rfl, rfl, rfl⟩⟩

theorem witness_StatusAckClearsDoneAndViol :
    idle.status.busy = false ∧ framePending.status.busy = true := ⟨rfl, rfl⟩

/-- A completion; an acknowledgement; a legal and an illegal write to CMD; clearing DONE_IE. -/
theorem witness_InterruptFollowsCompletion :
    (isCommand .frame = true ∧ ∃ t, exec .frame framePending = .next t) ∧
      (idle.status.busy = false ∧ (0x82#32).getLsbD 1 = true ∧
        ∃ t, exec (.statusAck 0x82) idle = .next t) ∧
      (∀ v ∈ [0x00000001#32, 0x00000009],
        (withEvent idle (.regWrite (regAddr 0x000) v)).status.busy = false ∧
        ∃ t, step (withEvent idle (.regWrite (regAddr 0x000) v)) = .next t) ∧
      (withEvent idle (.regWrite (regAddr 0x008) 0)).status.busy = false ∧
      (0#32).getLsbD 0 = false ∧
      (∃ t, step (withEvent idle (.regWrite (regAddr 0x008) 0)) = .next t) ∧
      ∃ t, step (withEvent framePending .reset) = .next t := by
  refine ⟨⟨rfl, _, rfl⟩, ⟨rfl, rfl, _, rfl⟩, fun v hv => ?_, rfl, rfl, ⟨_, rfl⟩, _, rfl⟩
  fin_cases hv <;> exact ⟨rfl, _, rfl⟩

/-- The last range that fits (empty, at BUF_SIZE) and the first that does not. -/
theorem witness_CrcRangeIntegratesTheRange :
    ({ idle.ops with src := 256, len := 0 } : OperandRegs).src.toNat + 0 ≤ 2 ^ idle.cfg.bufAw ∧
      2 ^ idle.cfg.bufAw < (255#32).toNat + (2#32).toNat := by decide

theorem witness_CrcFeedAndCrcLoad :
    idle.status.busy = false ∧ framePending.status.busy = true := ⟨rfl, rfl⟩

/-- An idle CFP, and two pieces that end exactly at BUF_SIZE. -/
theorem witness_CrcIntegratorLaws :
    idle.status.busy = false ∧ (0x20#32).toNat + (4#32).toNat + (220#32).toNat ≤ bufSize idle ∧
      bufSize idle < 2 ^ 32 := by decide

theorem witness_OneByteCorruptionChangesTheChecksum : (0x68 : Byte) ≠ 0x69 := by decide

/-- The four ways CRC_ACC changes. -/
theorem witness_CrcAccIsSeparate :
    (isCommand .frame = true ∧ Instr.frame ≠ .crcRange) ∧
      (∀ e ∈ [hostW 0x038 0, hostW 0x03C 1],
        ∃ t, step (withEvent idle e) = .next t ∧ t.crcAcc ≠ (withEvent idle e).crcAcc) ∧
      (∃ t, step (withEvent { idle with crcAcc := 0 } .reset) = .next t ∧
        t.crcAcc ≠ (withEvent { idle with crcAcc := 0 } .reset).crcAcc) ∧
      ∃ t, step (issued (mk 0 [0] fun o => { o with len := 1 }) 0x00000001) = .next t ∧
        t.crcAcc ≠ (issued (mk 0 [0] fun o => { o with len := 1 }) 0x00000001).crcAcc := by
  refine ⟨by decide, fun e he => ?_, ⟨_, rfl, by decide +kernel⟩, ⟨_, rfl, by decide +kernel⟩⟩
  fin_cases he <;> exact ⟨_, rfl, by decide +kernel⟩

/-! ### Witnesses: the framer -/

/-- FRAME's five cases, each at a boundary: tag byte 0x80; LEN = 0xFFFFFFF4; LEN = 0xFFFFFFF3; an
overlap of one byte (V-F10f); and the successes at BUF_SIZE (V-F4d), in place (V-F10a) and adjacent
(V-F10c). -/
theorem witness_FrameBuildsChunk :
    (∃ b ∈ toBE32 0x80414141, 0x80 ≤ b.toNat) ∧
      (∀ b ∈ toBE32 0x49444154, b.toNat < 0x80) ∧ 0xFFFFFFF3 < (0xFFFFFFF4#32).toNat ∧
      (0xFFFFFFF3#32).toNat ≤ 0xFFFFFFF3 ∧ 2 ^ idle.cfg.bufAw < 0 + (0xFFFFFFF3#32).toNat ∧
      2 ^ idle.cfg.bufAw < (245#32).toNat + 12 + 0 ∧
      (0x1F + 2 ≤ 2 ^ idle.cfg.bufAw ∧ 0x20 + 12 + 2 ≤ 2 ^ idle.cfg.bufAw ∧
        (0 < 2 ∧ 0x1F ≠ 0x20 + 8 ∧ 0x1F < 0x20 + 12 + 2 ∧ 0x20 < 0x1F + 2)) ∧
      (∀ c ∈ [(0, 0, 244), (0x28, 3, 0x20), (0x2E, 2, 0x20)],
        c.1 + c.2.1 ≤ 2 ^ idle.cfg.bufAw ∧ c.2.2 + 12 + c.2.1 ≤ 2 ^ idle.cfg.bufAw ∧
        ¬ (0 < c.2.1 ∧ c.1 ≠ c.2.2 + 8 ∧ c.1 < c.2.2 + 12 + c.2.1 ∧ c.2.2 < c.1 + c.2.1)) := by
  decide

/-- The window that is exactly the chunk. -/
theorem witness_FramedChunkParsesValid :
    (∃ t, exec .frame framePending = .next t ∧ t.status.err = false) ∧
      (0x80#32).toNat ≤ framePending.ops.dst.toNat ∧
      framePending.ops.dst.toNat + 12 + framePending.ops.len.toNat ≤ (0x8E#32).toNat ∧
      (0x8E#32).toNat ≤ bufSize framePending := by
  refine ⟨⟨_, rfl, by decide +kernel⟩, by decide, by decide, by decide⟩

theorem witness_InPlaceFramingKeepsTheData :
    let s := mk 0x28 [0xAA, 0xBB, 0xCC] fun o =>
      { o with type := 0x49444154, src := 0x28, len := 3, dst := 0x20 }
    (∀ b ∈ toBE32 s.ops.type, b.toNat < 0x80) ∧ s.ops.src.toNat = s.ops.dst.toNat + 8 ∧
      s.ops.dst.toNat + 12 + s.ops.len.toNat ≤ bufSize s ∧ bufSize s < 2 ^ 32 := by decide

/-- FRAME_HDR's three cases; 231 is the last DST that fits and 232 the first that does not. -/
theorem witness_FrameHdrBuildsHeader :
    ((0 : Word) = 0 ∨ (3 : Word) = 0) ∧
      ((1 : Word) ≠ 0 ∧ 2 ^ idle.cfg.bufAw < (232#32).toNat + 25) ∧
      (231#32).toNat + 25 ≤ 2 ^ idle.cfg.bufAw := by decide

theorem witness_FrameEndBuildsTerminal :
    2 ^ idle.cfg.bufAw < (245#32).toNat + 12 ∧ (244#32).toNat + 12 ≤ 2 ^ idle.cfg.bufAw := by
  decide

theorem witness_EmitSigWritesSignature :
    2 ^ idle.cfg.bufAw < (249#32).toNat + 8 ∧ (248#32).toNat + 8 ≤ 2 ^ idle.cfg.bufAw := by
  decide

/-- Source data for a container at 186, which ends exactly at BUF_SIZE. -/
def containerSource (src : Word) : State :=
  mk 0 [] fun o => { o with width := 3, height := 3, src := src, len := 13 }

/-- The data just before the container, and already in place. -/
theorem witness_FourCommandsBuildAContainer :
    ((containerSource 173).ops.width ≠ 0 ∧ (containerSource 173).ops.height ≠ 0 ∧ bufSize (containerSource 173) < 2 ^ 32 ∧
      186 + 57 + (containerSource 173).ops.len.toNat ≤ bufSize (containerSource 173) ∧
      (containerSource 173).ops.src.toNat + (containerSource 173).ops.len.toNat ≤ bufSize (containerSource 173) ∧
      (containerSource 173).ops.src.toNat + (containerSource 173).ops.len.toNat ≤ 186) ∧
    ((containerSource 227).ops.width ≠ 0 ∧ (containerSource 227).ops.height ≠ 0 ∧ bufSize (containerSource 227) < 2 ^ 32 ∧
      186 + 57 + (containerSource 227).ops.len.toNat ≤ bufSize (containerSource 227) ∧
      (containerSource 227).ops.src.toNat + (containerSource 227).ops.len.toNat ≤ bufSize (containerSource 227) ∧
      (containerSource 227).ops.src.toNat = 186 + 41) := by
  constructor <;> decide

/-! ### Witnesses: the parser -/

/-- PARSE_AT's five cases, each at a boundary: V-P7a, V-P7b, V-P4a, V-P4d, V-P6s, V-P5 and V-P1. -/
theorem witness_ParseAtExaminesChunk :
    ¬ (0x8F ≤ 0x8E ∧ 0x8E ≤ 2 ^ idle.cfg.bufAw) ∧ ¬ (0x80 ≤ 0x101 ∧ 0x101 ≤ 2 ^ idle.cfg.bufAw) ∧
      (0x80 ≤ 0x8E ∧ 0x8E ≤ 2 ^ idle.cfg.bufAw ∧ 0x83 < 0x80 + 4 ∧ 0x8E < 0x87 + 8) ∧
      (0x80 + 4 ≤ 0x84 ∧ 0x84 + 8 ≤ 0x8E ∧
        ∃ b ∈ memRead (parseSetup (hiChunk.set 4 0xC9)).buf 0x84 4, 0x80 ≤ b.toNat) ∧
      (∀ b ∈ memRead (parseSetup hiChunk).buf 0x84 4, b.toNat < 0x80) ∧
      0x8E < 0x84 + 8 + (ofBE32 (memRead (parseSetup (hiChunk.set 3 3)).buf 0x80 4)).toNat ∧
      0x84 + 8 + (ofBE32 (memRead (parseSetup hiChunk).buf 0x80 4)).toNat = 0x8E := by
  decide +kernel

/-- V-P1 (the two forms agree), V-P6 (the tag) and V-P2 (the checksum). -/
theorem witness_LenientAndStrictAgree :
    (∀ b ∈ memRead (parseSetup hiChunk).buf 0x84 4, b.toNat < 0x80) ∧
      see (exec .parseAt (parseSetup hiChunk)) (fun t => t.status.valid) = some true ∧
      see (exec .parseAtS (parseSetup (hiChunk.set 4 0xC9))) (fun t => t.status.errcode) = some 1 ∧
      see (exec .parseAtS (parseSetup (hiChunk.set 9 0x6A))) (fun t => t.status.errcode)
        = some 2 := by decide +kernel

theorem witness_ParserLeavesScanResultsAlone :
    (Instr.parseAt = .parseAt ∨ Instr.parseAt = .parseAtS) ∧
      (Instr.parseAtS = .parseAt ∨ Instr.parseAtS = .parseAtS) := by decide

theorem agreeOn_cellSet {m : Memory} {a lo hi : Nat} (b : Byte) (h : a < lo ∨ hi ≤ a) :
    AgreeOn m (cellSet m a b) lo hi := fun c hc hc' =>
  bufByte_cellSet_other m b (by omega)

/-- A memory that differs in the byte just past the window. -/
theorem witness_ParsersReadOnlyTheirWindow :
    Instr.decode ∈ [Instr.parseAt, .parseAtS, .scan, .decode] ∧
      AgreeOn scanPending.buf (cellSet scanPending.buf 70 0xFF) scanPending.ops.base.toNat
        scanPending.ops.limit.toNat :=
  ⟨by decide, agreeOn_cellSet _ (by decide)⟩

/-! ### Witnesses: the scanner and the decoder -/

/-- A window one byte too far, an inverted one, a good one and the longest that holds no tag. -/
theorem witness_ScanRaisesOnlyAddressRange :
    ¬ (0 ≤ 257 ∧ 257 ≤ 2 ^ idle.cfg.bufAw) ∧ ¬ (10 ≤ 9 ∧ 9 ≤ 2 ^ idle.cfg.bufAw) ∧
      (0 ≤ 256 ∧ 256 ≤ 2 ^ idle.cfg.bufAw) ∧ (253 ≤ 256 ∧ 256 - 253 < 4) := by decide

theorem witness_ScanLoopIsTheWhileLoop : scanPending.ops.limit.toNat - 0 ≤ 70 := by decide

/-- A SCAN that meets the statement's hypotheses with at least `n` records, of which the last has
the flag bits 3:0 `v`. -/
def scanShows (s : State) (n : Nat) (v : BitVec 4) : Prop :=
  ∃ t, exec .scan s = .next t ∧ t.status.err = false ∧ s.cfg.wf = true ∧
    n ≤ t.counts.nrec.toNat ∧ (resRecord t.res (n - 1)).flags.extractLsb' 0 4 = v

/-- V-S2 (the third record, valid), V-S3 (a mismatch), V-S5 (no known length), V-S12 (a known
length past LIMIT) and a valid header chunk of length 3 (V-D16's). -/
theorem witness_ScanRecordsAreSound :
    scanShows scanPending 3 0b0101 ∧
      scanShows (mk 0 (p1c.set 46 4) fun o => { o with limit := 70 }) 2 0b0100 ∧
      scanShows (mk 0 p1c fun o => { o with base := 12, limit := 70 }) 1 0b0010 ∧
      scanShows (mk 0 (tagIdat ++ tagIdat) fun o => { o with limit := 8 }) 2 0b0110 ∧
      scanShows (mk 0 (chunkBytes tagIhdr [1, 2, 3]) fun o => { o with limit := 15 }) 1 0b1101 := by
  refine ⟨⟨_, rfl, ?_⟩, ⟨_, rfl, ?_⟩, ⟨_, rfl, ?_⟩, ⟨_, rfl, ?_⟩, _, rfl, ?_⟩ <;> decide +kernel

/-- The data of P1C's data chunk. -/
def p1cData : List Byte := [0, 1, 2, 3, 4, 5, 6, 7, 8, 9, 10, 11, 12]

theorem witness_ScanFindsEveryChunkOfAContainer :
    (defaultHeader 3 3).length = 13 ∧ [p1cData] ≠ [] ∧
      (∀ d ∈ [p1cData], d.length ≠ 0x49484452 ∧ d.length ≠ 0x49444154 ∧ d.length ≠ 0x49454E44) ∧
      HoldsAt scanPending.buf scanPending.ops.base.toNat
        (container (defaultHeader 3 3) [p1cData]) ∧
      scanPending.ops.limit.toNat
        = scanPending.ops.base.toNat + (container (defaultHeader 3 3) [p1cData]).length ∧
      scanPending.ops.limit.toNat ≤ bufSize scanPending ∧
      [p1cData].length + 2 ≤ scanPending.cfg.resDepth ∧ [p1cData][0]? = some p1cData := by
  unfold HoldsAt
  decide +kernel

/-- V-S7, V-D3 and V-D2: the three codes. -/
theorem witness_DecodeRaisesItsErrorsInOrder_first :
    ¬ (10 ≤ 9 ∧ 9 ≤ 2 ^ idle.cfg.bufAw) ∧ (0 ≤ 7 ∧ 7 ≤ 2 ^ idle.cfg.bufAw ∧ 7 < 0 + 8) ∧
      memRead (mk 0 (p1c.set 0 0x88) id).buf 0 8
        ≠ [0x89, 0x50, 0x4E, 0x47, 0x0D, 0x0A, 0x1A, 0x0A] ∧ (9#4 ≠ 0 ∧ 4#4 ≠ 0 ∧ 6#4 ≠ 0) := by
  decide +kernel

/-- DECODE of `bs` at 0 with this LIMIT, after a header of dimensions `h` and data chunks `ds`
accepted up to address `p`: the hypotheses of the statement but for the code's. -/
def acceptedTo (bs : List Byte) (limit : Nat) (h : Option (Word × Word)) (ds : List (List Byte))
    (p : Nat) : Prop :=
  limit ≤ 2 ^ 8 ∧ (h = none → ds = []) ∧ h.all (fun d => d.1 ≠ 0 && d.2 ≠ 0) = true ∧
    bs.take p = openContainer h ds ∧ p = 0 + (openContainer h ds).length ∧ p ≤ limit

/-- V-D12 (no room for length and tag), V-D11 (the tag), V-D10 (the length) and V-D4 (the
checksum). -/
theorem witness_DecodeRaisesItsErrorsInOrder_chunk :
    (acceptedTo (sigBytes ++ hdrChunk ++ chunkBytes tagIdat [1]) 46 (some (3, 3)) [[1]] 46 ∧
      46 < 46 + 8) ∧
    (acceptedTo (sigBytes ++ hdrChunk ++ chunkBytes [0x49, 0x44, 0x41, 0xD4] [1]) 46
        (some (3, 3)) [] 33 ∧ 33 + 8 ≤ 46 ∧ ∃ b ∈ [0x49#8, 0x44, 0x41, 0xD4], 0x80 ≤ b.toNat) ∧
    (acceptedTo p1c 69 (some (3, 3)) [p1cData] 58 ∧ (∀ b ∈ tagIend, b.toNat < 0x80) ∧
      69 < 58 + 12 + (ofBE32 ((p1c.drop 58).take 4)).toNat) ∧
    (acceptedTo (p1c.set 46 4) 70 (some (3, 3)) [] 33 ∧
      33 + 12 + (ofBE32 (((p1c.set 46 4).drop 33).take 4)).toNat ≤ 70 ∧
      0xAB7D4EC0 ≠ crc32 (((p1c.set 46 4).drop 37).take 17)) := by
  unfold acceptedTo
  decide +kernel

/-- V-D6 (the first chunk is no header), V-D13 (width 0), V-D16 (length 3) and V-D7, V-D14 and V-D15
(a terminal chunk before any data, a second header, a terminal chunk with data). -/
theorem witness_DecodeRaisesItsErrorsInOrder_structure :
    (acceptedTo (sigBytes ++ chunkBytes tagIdat [1] ++ termChunk) 33 none [] 8 ∧
      tagIdat ≠ [0x49, 0x48, 0x44, 0x52]) ∧
    (acceptedTo (sigBytes ++ chunkBytes tagIhdr (defaultHeader 0 3)) 33 none [] 8 ∧
      ofBE32 ((defaultHeader 0 3).take 4) = 0) ∧
    (acceptedTo (sigBytes ++ chunkBytes tagIhdr [1, 2, 3]) 23 none [] 8 ∧
      ofBE32 ((chunkBytes tagIhdr [1, 2, 3]).take 4) ≠ 13) ∧
    (acceptedTo (sigBytes ++ hdrChunk ++ termChunk) 45 (some (3, 3)) [] 33 ∧
      tagIend ≠ [0x49, 0x44, 0x41, 0x54] ∧ ([] : List (List Byte)) = []) ∧
    (acceptedTo (sigBytes ++ hdrChunk ++ chunkBytes tagIdat [1] ++ hdrChunk) 71 (some (3, 3)) [[1]]
        46 ∧ tagIhdr ≠ [0x49, 0x44, 0x41, 0x54] ∧ tagIhdr ≠ [0x49, 0x45, 0x4E, 0x44]) ∧
    (acceptedTo (sigBytes ++ hdrChunk ++ chunkBytes tagIdat [1] ++ chunkBytes tagIend [9]) 59
        (some (3, 3)) [[1]] 46 ∧ tagIend ≠ [0x49, 0x44, 0x41, 0x54] ∧
      ofBE32 ((chunkBytes tagIend [9]).take 4) ≠ 0) := by
  unfold acceptedTo
  decide +kernel

/-- V-D9: LIMIT past the container's end. -/
def trailing : State := mk 0 p1c fun o => { o with limit := 100 }

theorem witness_DecodeAcceptsEveryContainer :
    (3 : Word) ≠ 0 ∧ [p1cData] ≠ [] ∧ trailing.cfg.wf = true ∧
      HoldsAt trailing.buf trailing.ops.base.toNat (container (defaultHeader 3 3) [p1cData]) ∧
      trailing.ops.base.toNat + (container (defaultHeader 3 3) [p1cData]).length
        ≤ trailing.ops.limit.toNat ∧
      trailing.ops.limit.toNat ≤ bufSize trailing ∧ 0 + 1 < trailing.cfg.resDepth := by
  unfold HoldsAt
  decide +kernel

theorem witness_DecodeSuccessMeansAContainer :
    ∃ t, exec .decode trailing = .next t ∧ t.status.err = false ∧ trailing.cfg.wf = true := by
  refine ⟨_, rfl, by decide +kernel, by decide⟩

/-- V-D10: a DECODE whose last record is the bad one. -/
theorem witness_DecodeMakesAtMostOneBadRecord :
    ∃ t, exec .decode (mk 0 p1c fun o => { o with limit := 69 }) = .next t ∧
      (mk 0 p1c fun o => { o with limit := 69 }).cfg.wf = true ∧ 1 + 1 < t.counts.nrec.toNat ∧
      t.status.resOvf = false ∧ t.counts.nbad = 1 := by
  refine ⟨_, rfl, by decide, by decide +kernel, by decide +kernel, by decide +kernel⟩

/-- V-D1 and V-D4: a success and a CHECKSUM_MISMATCH. -/
theorem witness_DecodeReportsItsLastChunk_window :
    (∃ t, exec .decode trailing = .next t ∧ t.status.errcode ∈ [0#4, 2, 3, 7]) ∧
      ∃ t, exec .decode (mk 0 (p1c.set 46 4) fun o => { o with limit := 70 }) = .next t ∧
        t.status.errcode = 2 := by
  exact ⟨⟨_, rfl, by decide +kernel⟩, ⟨_, rfl, by decide +kernel⟩⟩

/-- A DECODE that drops no record and ends with this code and counters. -/
def decodeShows (s : State) (code : BitVec 4) (nrec nbad : Nat) : Prop :=
  ∃ t, exec .decode s = .next t ∧ s.cfg.wf = true ∧ t.status.resOvf = false ∧
    t.status.errcode = code ∧ t.counts.nrec.toNat = nrec ∧ t.counts.nbad.toNat = nbad

/-- V-D1, V-D4, V-D10 (a truncated last record), V-D12 (truncated without one) and V-D2 (no
record). -/
theorem witness_DecodeReportsItsLastChunk_records :
    decodeShows trailing 0 3 0 ∧
      decodeShows (mk 0 (p1c.set 46 4) fun o => { o with limit := 70 }) 2 2 1 ∧
      decodeShows (mk 0 p1c fun o => { o with limit := 69 }) 4 3 1 ∧
      decodeShows (mk 0 p1c fun o => { o with limit := 58 }) 4 2 0 ∧
      decodeShows (mk 0 (p1c.set 0 0x88) fun o => { o with limit := 70 }) 6 0 0 := by
  refine ⟨⟨_, rfl, ?_⟩, ⟨_, rfl, ?_⟩, ⟨_, rfl, ?_⟩, ⟨_, rfl, ?_⟩, _, rfl, ?_⟩ <;> decide +kernel

/-- V-D9 in the largest buffer memory. -/
def trailingLarge : State := { trailing with cfg := { trailing.cfg with bufAw := 31 } }

/-- Both windows, and both forms of the premise on the length fields. -/
theorem witness_ScanAgreesWithDecode :
    (∃ t, exec .decode trailing = .next t ∧ t.status.err = false ∧ trailing.cfg.wf = true ∧
      trailing.cfg.bufAw ≤ 30 ∧ ∃ o o' : OperandRegs,
        o = { t.ops with base := trailing.ops.base + 8, limit := t.chunk.endAddr } ∧
        o' = { t.ops with limit := t.chunk.endAddr }) ∧
      ∃ t, exec .decode trailingLarge = .next t ∧ t.status.err = false ∧
        trailingLarge.cfg.wf = true ∧
        memRead trailingLarge.buf trailingLarge.ops.base.toNat
            (container (defaultHeader 3 3) [p1cData]).length
          = container (defaultHeader 3 3) [p1cData] ∧
        t.chunk.endAddr.toNat = trailingLarge.ops.base.toNat
          + (container (defaultHeader 3 3) [p1cData]).length ∧
        ∀ d ∈ [p1cData],
          d.length ≠ 0x49484452 ∧ d.length ≠ 0x49444154 ∧ d.length ≠ 0x49454E44 := by
  refine ⟨⟨_, rfl, by decide +kernel, by decide, by decide, _, _, rfl, rfl⟩, _, rfl, ?_⟩
  decide +kernel

/-- A memory that differs in the byte just past the container. -/
theorem witness_DecodeIgnoresBytesAfterTheContainer :
    ∃ t, exec .decode trailing = .next t ∧ t.status.err = false ∧ trailing.cfg.wf = true ∧
      AgreeOn trailing.buf (cellSet trailing.buf 70 0xFF) trailing.ops.base.toNat
        t.chunk.endAddr.toNat :=
  ⟨_, rfl, by decide +kernel, by decide, agreeOn_cellSet _ (by decide +kernel)⟩

/-! ### Witnesses: invariants -/

/-- A state that meets every invariant, in which FRAME is pending. -/
theorem witness_EveryStepKeepsEngineInv :
    EngineInv framePending ∧ ∃ t, step framePending = .next t :=
  ⟨framePending_engineInv, _, rfl⟩

theorem witness_EveryStepKeepsErrorInv :
    ErrorInv framePending ∧ ∃ t, step framePending = .next t :=
  ⟨by unfold ErrorInv; decide, _, rfl⟩

theorem witness_EveryStepKeepsReservedInv :
    ReservedInv framePending ∧ ∃ t, step framePending = .next t :=
  ⟨by unfold ReservedInv; decide, _, rfl⟩

theorem witness_EveryStepKeepsStorageInv :
    StorageInv framePending ∧ ∃ t, step framePending = .next t :=
  ⟨by unfold StorageInv; decide, _, rfl⟩

theorem witness_EveryStepKeepsTableInv :
    TableInv scanPending ∧ ∃ t, step scanPending = .next t :=
  ⟨by unfold TableInv; decide, _, rfl⟩

theorem witness_EveryStepHasAMove : EngineInv framePending := framePending_engineInv

/-- FRAME pending with a dropped write and a read before the engine's turn, before the end of the
events, and before a reset. -/
theorem witness_PendingCommandIsPerformed :
    ∀ post ∈ [[Event.engineTurn, hostR 0x004], [], [.reset, hostR 0x004]],
      EngineInv { framePending with inputs := [hostW 0x010 99, hostR 0x004] ++ post } ∧
        ({ framePending with inputs := [hostW 0x010 99, hostR 0x004] ++ post } : State).engine
          = .pending 0x2 false ∧ decodeFields 0x2 false = .ok .frame ∧
        Event.engineTurn ∉ [hostW 0x010 99, hostR 0x004] ∧
        Event.reset ∉ [hostW 0x010 99, hostR 0x004] := by
  intro post _
  exact ⟨framePending_engineInv, rfl, rfl, by decide, by decide⟩

/-- WAIT with no poll before the engine's turn, and with two. -/
theorem witness_WaitReadsBusyZero :
    ∀ k ∈ [0, 2], EngineInv { framePending with inputs := hostWait k } ∧
      ({ framePending with inputs := hostWait k } : State).status.busy = true ∧
      ({ framePending with inputs := hostWait k } : State).inputs = hostWait k := by
  intro k _
  exact ⟨framePending_engineInv, rfl, rfl⟩

end Sys2Proof.Tests
end

section
/-! PROOF. The register port (10_state.md R22 to R46): where the registers stand, what a host write
stores, what it leaves alone, and what a read returns. -/

namespace Sys2Proof.Proofs

open Sys2Proof.Machine Sys2Proof.Safety

/-! ### The register map -/

/-- Settles O8: the offsets of R23 are those of the model's map, which no parameter moves. -/
theorem registersStandAtTheirOffsets : Obligations.RegistersStandAtTheirOffsets := by
  intro p
  have low : ∀ c ∈ regMapLow,
      cellGet (regMapLow ++ regMapHigh) (4 * (regAddr c.1).toNat) = some c.2 := by decide
  have high : ∀ c ∈ regMapHigh,
      cellGet (regMapLow ++ regMapHigh) (4 * (regAddr c.1).toNat) = some c.2 := by decide
  refine ⟨fun c hc => ?_, fun c hc => ?_⟩
  · simp only [locate, low c hc]
  · simp only [locate, high c hc]

theorem cellGet_eq_none {β : Type} {m : List (Nat × β)} {a : Nat} (h : ∀ c ∈ m, c.1 ≠ a) :
    cellGet m a = none := by
  cases e : cellGet m a with
  | none => rfl
  | some v => exact absurd rfl (h _ (cellGet_mem e))

/-- R46, R47: past 0x088 the register port reaches the result table or nothing. -/
theorem locate_past_named (p : Params) {wa : RegAddr} (h : 0x08C ≤ 4 * wa.toNat) :
    locate p wa =
      if 0x100 ≤ 4 * wa.toNat ∧ 4 * wa.toNat < 0x100 + 32 * p.resDepth
      then .record ((4 * wa.toNat - 0x100) / 32) ((4 * wa.toNat - 0x100) % 32 / 4)
      else .reserved := by
  have named : ∀ c ∈ regMapLow ++ regMapHigh, c.1 ≤ 0x088 := by decide
  have none : cellGet (regMapLow ++ regMapHigh) (4 * wa.toNat) = none :=
    cellGet_eq_none fun c hc => by have := named c hc; omega
  simp only [locate, none]

/-- R61: a word-aligned offset below 0x2000 is four times its word address. -/
theorem regAddr_offset {k : Nat} (h : k < 0x800) : 4 * (regAddr (4 * k)).toNat = 4 * k := by
  simp only [regAddr, BitVec.toNat_ofNat]
  omega

/-- Settles O9: record and word number of an offset are its quotient and remainder by 32. -/
theorem recordsAndReservedOffsets : Obligations.RecordsAndReservedOffsets := by
  refine ⟨fun p i w hp hi hw => ?_, fun s wa _ hoff => ?_⟩
  · have hdepth : p.resDepth ≤ 128 := by
      simp only [Params.wf, Bool.and_eq_true, decide_eq_true_eq] at hp
      exact hp.2
    have hwa := regAddr_offset (k := 64 + 8 * i + w) (by omega)
    rw [show 0x100 + 32 * i + 4 * w = 4 * (64 + 8 * i + w) by omega,
      locate_past_named p (by omega), if_pos (by omega), hwa,
      show (4 * (64 + 8 * i + w) - 0x100) / 32 = i by omega,
      show (4 * (64 + 8 * i + w) - 0x100) % 32 / 4 = w by omega]
  · have hl : locate s.cfg wa = .reserved := by
      rw [locate_past_named s.cfg (by omega), if_neg (by omega)]
    exact ⟨hl, by rw [hl]; rfl⟩

/-! ### Host writes -/

/-- The registers a host write stores a word to (R27, R28 to R38). -/
def plainRegs : List Reg :=
  [.irqen, .src, .len, .dst, .type, .width, .height, .hparam, .hilace, .base, .limit, .offset]

/-- The registers a host write can have an effect on (R22, R86). -/
def writableRegs : List Reg :=
  [.cmd, .status, .irqen, .src, .len, .dst, .type, .width, .height, .hparam, .hilace, .base, .limit,
    .offset, .crcAcc, .crcData]

theorem plainRegs_writable : ∀ r ∈ plainRegs, r ∈ writableRegs := by decide

/-- R22, R27, R35: a stored word less its reserved bits is what the register then reads. -/
theorem regValue_storeReg_same (v : Word) (s : State) {r : Reg} (h : r ∈ plainRegs) :
    regValue (storeReg v s r) r = (if r = .irqen then v &&& 0x00000001
      else if r = .hilace then v &&& 0x000000FF else v) := by
  cases r <;> simp [plainRegs] at h <;> rfl

/-- R22: a store to a register that is not plain is ignored. -/
theorem storeReg_of_not_plain (v : Word) (s : State) {r : Reg} (h : r ∉ plainRegs) :
    storeReg v s r = s := by
  cases r <;> simp [plainRegs] at h <;> rfl

/-- R22: a store changes the value of no other register. -/
theorem regValue_storeReg_other (v : Word) (s : State) {r r' : Reg} (h : r' ≠ r) :
    regValue (storeReg v s r) r' = regValue s r' := by
  by_cases hr : r ∈ plainRegs
  · cases r <;> simp [plainRegs] at hr <;> cases r' <;> trivial
  · rw [storeReg_of_not_plain v s hr]

/-- R86: a host write to a plain register while idle is a store. -/
theorem hostRegWrite_plain {s : State} {wa : RegAddr} {r : Reg} (v : Word)
    (hb : s.status.busy = false) (hl : locate s.cfg wa = .named r) (hr : r ∈ plainRegs) :
    hostRegWrite wa v s = .next (storeReg v s r) := by
  simp only [hostRegWrite, hb, hl]
  cases r <;> simp [plainRegs] at hr <;> rfl

/-- Settles O10: while idle the write is a store, and a store changes one register. -/
theorem plainRegisterWritesStore : Obligations.PlainRegisterWritesStore := by
  intro s wa v rest r hin hb hl hr
  refine ⟨storeReg v (s.setInputs rest) r, ?_, regValue_storeReg_same v _ hr, fun r' h => ?_, ?_⟩
  · rw [step, hin]
    exact hostRegWrite_plain (s := s.setInputs rest) v hb hl hr
  · rw [regValue_storeReg_other v _ h]
    cases r' <;> rfl
  · exact storeReg_eq v (s.setInputs rest) r

/-- Settles O11: every way a host write can have an effect needs one of the sixteen registers. -/
theorem otherRegisterWritesAreIgnored : Obligations.OtherRegisterWritesAreIgnored := by
  intro s wa v rest hin hb hother
  obtain ⟨t, ht⟩ := hostRegWrite_next wa v (s.setInputs rest)
  have away : ∀ c ∈ regMapLow, c.2 ∈ writableRegs → wa ≠ regAddr c.1 := by
    rintro c hc hw rfl
    exact hother c.2 hw ((registersStandAtTheirOffsets s.cfg).1 c hc)
  have same : t = s.setInputs rest := by
    cases hostRegWrite_cases ht with
    | dropped busy _ => exact absurd (hb.symm.trans busy) (by decide)
    | issued _ addr _ _ _ => exact absurd addr (away (0x000, .cmd) (by decide) (by decide))
    | illegal _ addr _ _ => exact absurd addr (away (0x000, .cmd) (by decide) (by decide))
    | acked _ addr _ => exact absurd addr (away (0x004, .status) (by decide) (by decide))
    | loaded _ addr _ => exact absurd addr (away (0x038, .crcAcc) (by decide) (by decide))
    | fed _ addr _ => exact absurd addr (away (0x03C, .crcData) (by decide) (by decide))
    | stored _ r hl eq =>
      rw [eq]
      exact storeReg_of_not_plain v _ fun hr => hother r (plainRegs_writable r hr) hl
    | ignored _ _ eq => exact eq
  rw [step, hin]
  exact ht.trans (congrArg _ same)

theorem exec_statusAck_idle {s : State} (v : Word) (hb : s.status.busy = false) :
    exec (.statusAck v) s = .next (s.setStatus (s.status.acked v)) := by
  simp [exec, execStatusAck, hb]

theorem exec_statusAck_busy {s : State} (v : Word) (hb : s.status.busy = true) :
    exec (.statusAck v) s = .next (dropWrite s) := by
  simp [exec, execStatusAck, hb]

/-- Settles O22, by the two forms of the write: taken while idle, dropped while busy. -/
theorem statusAckClearsDoneAndViol : Obligations.StatusAckClearsDoneAndViol := by
  intro s v
  refine ⟨rfl, fun hb => ?_, fun hb => ?_⟩
  · have acked : s.status.acked v = { s.status with
        done := if v.getLsbD 1 then false else s.status.done
        viol := if v.getLsbD 7 then false else s.status.viol } := by
      unfold Status.acked
      cases v.getLsbD 1 <;> cases v.getLsbD 7 <;> simp
    rw [exec_statusAck_idle v hb, acked]
    rfl
  · rw [exec_statusAck_busy v hb]
    rfl

/-! ### Host reads -/

/-- R22: an idle CFP's register read returns no draw. -/
theorem regReadValue_idle {s : State} (hb : s.status.busy = false) (wa : RegAddr) :
    regReadValue wa s = locValue s (locate s.cfg wa) := by
  simp [regReadValue, locDrawn, scanFlagsDrawn, hb]

theorem locValue_setInputs (s : State) (es : List Event) (l : RegLoc) :
    locValue (s.setInputs es) l = locValue s l := by
  cases l with
  | named r => cases r <;> rfl
  | record i w => rfl
  | reserved => rfl

/-- Settles O12: nothing is drawn while idle, so the read returns the value at its address. -/
theorem idleRegisterReadReturnsValue : Obligations.IdleRegisterReadReturnsValue := by
  intro s wa rest hin hb
  refine ⟨?_, rfl, rfl, rfl, rfl⟩
  rw [step_regRead hin, regReadValue_idle (s := s.setInputs rest) hb, locValue_setInputs]
  rfl

/-! ### The parameters -/

/-- R44: the frame of a command holds the parameters. -/
theorem commandBody_cfg {i : Instr} {s : State} {b : Ended} (h : commandBody i s = some b) :
    b.state.cfg = s.cfg := by
  rw [commandBody_frame h]

theorem complete_cfg (b : Ended) : (complete b).cfg = b.state.cfg := by
  rw [complete_eq]
  rfl

/-- R44: no step changes the parameters. -/
theorem step_cfg {s t : State} (h : step s = .next t) : t.cfg = s.cfg :=
  step_keeps (P := fun u => u.cfg = s.cfg)
    (own := fun _ _ _ _ h => h)
    (performed := fun _ _ _ _ b h _ _ hb =>
      (complete_cfg b).trans ((commandBody_cfg hb).trans h))
    (dropped := fun _ h _ => h)
    (issued := fun _ _ _ h _ _ => h)
    (illegal := fun _ _ h _ => h)
    (acked := fun _ _ h _ => h)
    (crc := fun _ _ h => h)
    (stored := fun u v r h => by rw [storeReg_eq]; exact h)
    (bufWritten := fun _ _ _ h _ => h)
    (reset := fun _ h => h)
    rfl h

/-- Settles O19: both registers are functions of the parameters, which `step_cfg` keeps. -/
theorem parametersNeverChange : Obligations.ParametersNeverChange := by
  refine ⟨fun s => ?_, fun s t h => ?_⟩
  · have high := (registersStandAtTheirOffsets s.cfg).2
    exact ⟨high (0x084, .cfgResDepth) (by simp), rfl, high (0x088, .cfgBufLast) (by simp), rfl⟩
  · have hcfg := step_cfg h
    exact ⟨hcfg, by simp only [regValue, hcfg], by simp only [regValue, bufSize, hcfg]⟩

/-! ### The engine's turn -/

/-- R21: the engine's turn runs the pending command. -/
theorem engineStep_pending {s : State} {op : BitVec 4} {strict : Bool} {i : Instr}
    (he : s.engine = .pending op strict) (hd : decodeFields op strict = .ok i) :
    engineStep s = exec i s := by
  simp only [engineStep, he, hd]

/-- R216: an idle engine's turn changes nothing. -/
theorem engineStep_idle {s : State} (he : s.engine = .idle) : engineStep s = .next s := by
  simp only [engineStep, he]

/-- R21: with no event left the step is the engine's turn. -/
theorem step_of_no_inputs {s : State} (h : s.inputs = []) : step s = engineStep s := by
  simp only [step, h]

/-- R21, R76: the engine's turn as the next event. -/
theorem step_engineTurn {s : State} {rest : List Event} (h : s.inputs = .engineTurn :: rest) :
    step s = engineStep (s.setInputs rest) := by
  simp only [step, h, performEvent]

/-- Settles O4: both kinds of turn are the engine's step. -/
theorem engineTurnRunsThePendingCommand : Obligations.EngineTurnRunsThePendingCommand := by
  refine ⟨fun s op strict i he hd => ⟨fun hin => ?_, fun rest hin => ?_⟩,
    fun s he => ⟨fun hin => ?_, fun rest hin => ?_⟩⟩
  · rw [step_of_no_inputs hin, engineStep_pending he hd]
  · rw [step_engineTurn hin]
    exact engineStep_pending (s := s.setInputs rest) he hd
  · rw [step_of_no_inputs hin, engineStep_idle he]
  · rw [step_engineTurn hin]
    exact engineStep_idle (s := s.setInputs rest) he

end Sys2Proof.Proofs
end

section
/-! PROOF. The invariants of 10_state.md (R20, R25, R22, R43, R45) are kept by every step. Each
proof fills in `step_keeps`; what a command does is said once, by `commandBody_keeps`. -/

namespace Sys2Proof.Proofs

open Sys2Proof.Machine Sys2Proof.Safety

/-! ### What a command keeps -/

/-- A property that the output of the framer, the parser and the integrator does not touch, and that
the record steps and `clear_results` keep, holds where a command's pseudocode ends (R85). -/
theorem commandBody_keeps {P : State → Prop} (hP : RecordSteps P)
    (cleared : ∀ s, P s → P (clearResults s)) (crc : ∀ v s, P s → P (s.setCrcAcc v))
    (chunk : ∀ c s, P s → P (s.setChunk c)) (buf : ∀ m s, P s → P (s.setBuf m))
    {i : Instr} {s : State} {b : Ended} (hb : commandBody i s = some b) (h : P s) : P b.state := by
  have put : ∀ a tag d, P (putChunk a tag d s) := fun a tag d => chunk _ _ (buf _ _ h)
  have parse : ∀ strict, P (parseAtBody strict s).state := by
    intro strict
    rcases parseAtBody_cases strict s with ⟨_, _, _, e⟩ | ⟨_, _, e⟩ | ⟨_, e⟩ <;> rw [e]
    · exact h
    · exact chunk _ _ h
    · exact chunk _ _ h
  cases i with
  | crcRange =>
    cases hb
    rcases crcRangeBody_cases s with e | ⟨_, e⟩ <;> rw [e]
    · exact h
    · exact crc _ _ h
  | frame =>
    cases hb
    rcases frameBody_cases s with ⟨_, _, e⟩ | ⟨_, _, e⟩ <;> rw [e]
    · exact h
    · exact put _ _ _
  | frameHdr =>
    cases hb
    rcases frameHdrBody_cases s with ⟨_, _, e⟩ | ⟨_, e⟩ <;> rw [e]
    · exact h
    · exact put _ _ _
  | frameEnd =>
    cases hb
    rcases frameEndBody_cases s with ⟨_, _, e⟩ | ⟨_, e⟩ <;> rw [e]
    · exact h
    · exact put _ _ _
  | emitSig =>
    cases hb
    rcases emitSigBody_cases s with ⟨_, _, e⟩ | ⟨_, e⟩ <;> rw [e]
    · exact h
    · exact chunk { s.chunk with endAddr := _ } _ (buf (memWrite s.buf _ signature) s h)
  | parseAt => cases hb; exact parse false
  | parseAtS => cases hb; exact parse true
  | scan => cases hb; exact scanBody_keeps hP (cleared s h)
  | decode => cases hb; exact decodeBody_keeps hP chunk (cleared s h)
  | crcFeed v => cases hb
  | crcLoad v => cases hb
  | statusAck v => cases hb

/-! ### The engine's invariant -/

/-- R20: an engine with BUSY = 0 is idle. -/
theorem engine_idle_of_not_busy {s : State} (h : EngineInv s) (hb : s.status.busy = false) :
    s.engine = .idle := by
  unfold EngineInv at h
  split at h
  · assumption
  · simp [hb] at h

/-- R20: an idle engine with BUSY = 0 meets the invariant, whatever the other fields hold. -/
theorem engineInv_of_idle {s : State} (he : s.engine = .idle) (hb : s.status.busy = false) :
    EngineInv s := by
  simp [EngineInv, he, hb]

/-- R203: the issue of a legal word leaves its command pending, with DONE, ERR, ERRCODE and VALID
0. -/
theorem issue_engineInv {v : Word} {i : Instr} (s : State) (h : decodeCommand v = .ok i) :
    EngineInv (issue v s) := by
  obtain ⟨hd, hw⟩ := decodeCommand_ok h
  exact ⟨rfl, rfl, rfl, rfl, rfl, ⟨i, hd⟩, hw.symm⟩

theorem complete_engineInv (b : Ended) : EngineInv (complete b) := by
  cases b <;> rfl

theorem storeReg_engineInv (v : Word) {s : State} (r : Reg) (h : EngineInv s) :
    EngineInv (storeReg v s r) := by
  rw [storeReg_eq]
  exact h

/-- Settles O52: only an issue makes the engine pending, and every completion and reset leaves it
idle with BUSY = 0. -/
theorem everyStepKeepsEngineInv : Obligations.EveryStepKeepsEngineInv := fun _ _ hs hstep =>
  step_keeps (P := EngineInv)
    (own := fun _ _ _ _ h => h)
    (performed := fun _ _ _ _ b _ _ _ _ => complete_engineInv b)
    (dropped := fun _ h _ => h)
    (issued := fun s _ _ _ _ hd => issue_engineInv s hd)
    (illegal := fun s _ h hb => engineInv_of_idle (engine_idle_of_not_busy (s := s) h hb) hb)
    (acked := fun s _ h hb => engineInv_of_idle (engine_idle_of_not_busy (s := s) h hb) hb)
    (crc := fun _ _ h => h)
    (stored := fun _ v r h => storeReg_engineInv v r h)
    (bufWritten := fun _ _ _ h _ => h)
    (reset := fun _ _ => engineInv_of_idle rfl rfl)
    hs hstep

/-! ### The reserved bits -/

/-- R45, R174: the latched R_HILACE is one byte of the header record. -/
theorem latchedHeader_hilace_reserved (h : List Byte) :
    (latchedHeader h).hilace &&& 0xFFFFFF00 = 0 := by
  show (byteAt h 12).setWidth 32 &&& 0xFFFFFF00#32 = 0#32
  apply BitVec.eq_of_getLsbD_eq
  intro i hi
  interval_cases i <;> simp

/-- R170: the cleared R_HILACE is 0. -/
theorem clearResults_reservedInv {s : State} (h : ReservedInv s) :
    ReservedInv (clearResults s) := by
  obtain ⟨hirqen, hhilace, -⟩ := h
  exact ⟨hirqen, hhilace, BitVec.zero_and⟩

theorem latchHeader_reservedInv (a : Nat) {s : State} (h : ReservedInv s) :
    ReservedInv (latchHeader a s) := by
  obtain ⟨hirqen, hhilace, -⟩ := h
  exact ⟨hirqen, hhilace, latchedHeader_hilace_reserved _⟩

/-- R232: a reset sets all three registers to 0. -/
theorem resetEvent_reservedInv (s : State) : ReservedInv (resetEvent s) :=
  ⟨BitVec.zero_and, BitVec.zero_and, BitVec.zero_and⟩

theorem emitRecord_reservedInv (r : Rec) {s : State} (h : ReservedInv s) :
    ReservedInv (emitRecord r s) := by
  rw [emitRecord_eq]
  split <;> exact h

theorem recordSteps_reservedInv : RecordSteps ReservedInv where
  made _ _ h := h
  emitted r _ h := emitRecord_reservedInv r h
  latched a _ h := latchHeader_reservedInv a h
  terminal _ h := h

theorem complete_reservedInv {b : Ended} (h : ReservedInv b.state) : ReservedInv (complete b) := by
  rw [complete_eq]
  exact h

/-- R22, R27, R35: a store masks the reserved bits of IRQEN and HILACE. -/
theorem storeReg_reservedInv (v : Word) {s : State} (r : Reg) (h : ReservedInv s) :
    ReservedInv (storeReg v s r) := by
  obtain ⟨hirqen, hhilace, hheader⟩ := h
  have irqen : (storeReg v s r).irqen &&& 0xFFFFFFFE = 0 := by
    by_cases hr : r = .irqen
    · subst hr
      show v &&& 0x00000001 &&& 0xFFFFFFFE = 0
      rw [BitVec.and_assoc]
      exact BitVec.and_zero
    · have same : (storeReg v s r).irqen = s.irqen := regValue_storeReg_other v s (Ne.symm hr)
      rw [same, hirqen]
  have hilace : (storeReg v s r).ops.hilace &&& 0xFFFFFF00 = 0 := by
    by_cases hr : r = .hilace
    · subst hr
      show v &&& 0x000000FF &&& 0xFFFFFF00 = 0
      rw [BitVec.and_assoc]
      exact BitVec.and_zero
    · have same : (storeReg v s r).ops.hilace = s.ops.hilace :=
        regValue_storeReg_other v s (Ne.symm hr)
      rw [same, hhilace]
  exact ⟨irqen, hilace, by rw [storeReg_eq]; exact hheader⟩

/-- Settles O54: a latch writes one byte to R_HILACE, a store masks IRQEN and HILACE, and nothing
else but a reset writes the three. -/
theorem everyStepKeepsReservedInv : Obligations.EveryStepKeepsReservedInv := fun _ _ hs hstep =>
  step_keeps (P := ReservedInv)
    (own := fun _ _ _ _ h => h)
    (performed := fun _ _ _ _ _ h _ _ hb => complete_reservedInv
      (commandBody_keeps recordSteps_reservedInv (fun _ h => clearResults_reservedInv h)
        (fun _ _ h => h) (fun _ _ h => h) (fun _ _ h => h) hb h))
    (dropped := fun _ h _ => h)
    (issued := fun _ _ _ h _ _ => h)
    (illegal := fun _ _ h _ => h)
    (acked := fun _ _ h _ => h)
    (crc := fun _ _ h => h)
    (stored := fun _ v r h => storeReg_reservedInv v r h)
    (bufWritten := fun _ _ _ h _ => h)
    (reset := fun s _ => resetEvent_reservedInv s)
    hs hstep

/-! ### The result table and the latched header -/

/-- R173: `emit` stores while there is room, and marks RES_OVF only when the table is full. -/
theorem emitRecord_tableInv (r : Rec) {s : State} (h : TableInv s) :
    TableInv (emitRecord r s) := by
  obtain ⟨hle, hovf, hheader⟩ := h
  rw [emitRecord_eq]
  split
  · rename_i hroom
    have hnext : (s.counts.nrec + 1).toNat ≤ s.cfg.resDepth := by
      rw [BitVec.toNat_add]
      exact (Nat.mod_le _ _).trans hroom
    exact ⟨hnext, fun ho => absurd (hovf ho) (Nat.ne_of_lt hroom), hheader⟩
  · exact ⟨hle, fun _ => by dsimp only; omega, hheader⟩

theorem clearResults_tableInv (s : State) : TableInv (clearResults s) :=
  ⟨Nat.zero_le _, nofun, fun _ => rfl⟩

theorem latchHeader_tableInv (a : Nat) {s : State} (h : TableInv s) :
    TableInv (latchHeader a s) := by
  obtain ⟨hle, hovf, -⟩ := h
  exact ⟨hle, hovf, nofun⟩

theorem resetEvent_tableInv (s : State) : TableInv (resetEvent s) :=
  ⟨Nat.zero_le _, nofun, fun _ => rfl⟩

theorem recordSteps_tableInv : RecordSteps TableInv where
  made _ _ h := h
  emitted r _ h := emitRecord_tableInv r h
  latched a _ h := latchHeader_tableInv a h
  terminal _ h := h

theorem complete_tableInv {b : Ended} (h : TableInv b.state) : TableInv (complete b) := by
  cases b <;> exact h

theorem storeReg_tableInv (v : Word) {s : State} (r : Reg) (h : TableInv s) :
    TableInv (storeReg v s r) := by
  rw [storeReg_eq]
  exact h

/-- Settles O56: only the record steps of SCAN and DECODE, which start from cleared results, and a
reset write the table's counters and the latched header. -/
theorem everyStepKeepsTableInv : Obligations.EveryStepKeepsTableInv := fun _ _ hs hstep =>
  step_keeps (P := TableInv)
    (own := fun _ _ _ _ h => h)
    (performed := fun _ _ _ _ _ h _ _ hb => complete_tableInv
      (commandBody_keeps recordSteps_tableInv (fun s _ => clearResults_tableInv s)
        (fun _ _ h => h) (fun _ _ h => h) (fun _ _ h => h) hb h))
    (dropped := fun _ h _ => h)
    (issued := fun _ _ _ h _ _ => h)
    (illegal := fun _ _ h _ => h)
    (acked := fun _ _ h _ => h)
    (crc := fun _ _ h => h)
    (stored := fun _ v r h => storeReg_tableInv v r h)
    (bufWritten := fun _ _ _ h _ => h)
    (reset := fun s _ => resetEvent_tableInv s)
    hs hstep

end Sys2Proof.Proofs
end

section
/-! PROOF. A pending command is performed on the engine's turn, or abandoned by a reset (10_state.md
R21; 60_exceptions.md R204; 70_reset_and_hazards.md R233). -/

namespace Sys2Proof.Proofs

open Sys2Proof.Machine Sys2Proof.Safety

/-! ### Runs -/

section
variable {M : Host.Core} {s t u : M.State} {k : Nat}

theorem run_succ (k : Nat) (h : M.step s = .next t) : M.run (k + 1) s = M.run k t := by
  rw [Host.Core.run, h]

/-- A run of one step or more begins with a step. -/
theorem step_of_run_succ (h : M.run (k + 1) s = .next u) :
    ∃ t, M.step s = .next t ∧ M.run k t = .next u := by
  rw [Host.Core.run] at h
  split at h
  · exact ⟨_, ‹_›, h⟩
  · cases h
  · cases h

/-- A run that reaches `u` in `k` steps goes on from `u`. -/
theorem run_add (n : Nat) (h : M.run k s = .next u) : M.run (k + n) s = M.run n u := by
  induction k generalizing s with
  | zero => cases h; rw [Nat.zero_add]
  | succ k ih =>
    obtain ⟨t, hs, ht⟩ := step_of_run_succ h
    rw [Nat.succ_add, run_succ _ hs, ih ht]

end

/-! ### The fate of a pending command -/

/-- R21, R204: the engine's turn performs and completes the pending command, and takes no event. -/
theorem engineStep_completes {s : State} {op : BitVec 4} {strict : Bool} {i : Instr}
    (he : s.engine = .pending op strict) (hd : decodeFields op strict = .ok i) :
    ∃ t, engineStep s = .next t ∧ t.inputs = s.inputs ∧ t.engine = .idle ∧
      t.status.busy = false ∧ t.status.done = true := by
  obtain ⟨b, hb⟩ := commandBody_isSome (decodeFields_isCommand hd) s
  refine ⟨complete b, by rw [engineStep_pending he hd, exec_command hb], ?_, ?_⟩
  · have inputs : b.state.inputs = s.inputs := by rw [commandBody_frame hb]
    rw [complete_eq]
    exact inputs
  · cases b <;> exact ⟨rfl, rfl, rfl⟩

/-- R233: a reset abandons a pending command. -/
theorem step_reset {s : State} {rest : List Event} (h : s.inputs = .reset :: rest) :
    step s = .next (resetEvent (s.setInputs rest)) := by
  simp only [step, h, performEvent]

/-- R20: a busy CFP that meets the engine's invariant holds a legal command. -/
theorem engineInv_pending {s : State} {op : BitVec 4} {strict : Bool} (h : EngineInv s)
    (he : s.engine = .pending op strict) :
    s.status.busy = true ∧ ∃ i, decodeFields op strict = .ok i := by
  simp only [EngineInv, he] at h
  obtain ⟨hb, -, -, -, -, hd, -⟩ := h
  exact ⟨hb, hd⟩

/-- R237, R238: the accesses before the engine's turn and any reset change VIOL and the model's own
fields, and nothing else. -/
theorem run_busy_accesses {s : State} {pre post : List Event} (hb : s.status.busy = true)
    (hin : s.inputs = pre ++ post) (turn : .engineTurn ∉ pre) (reset : .reset ∉ pre) :
    ∃ u : State, Host.Core.run core pre.length s = .next u ∧ u = { s with
      inputs := post, reads := u.reads, draws := u.draws
      status := { s.status with viol := u.status.viol } } := by
  induction pre generalizing s with
  | nil => exact ⟨s, rfl, by rw [show post = s.inputs from hin.symm]⟩
  | cons e pre ih =>
    simp only [List.mem_cons, not_or] at turn reset
    obtain ⟨turn, turns⟩ := turn
    obtain ⟨reset, resets⟩ := reset
    obtain ⟨v, hstep, hv⟩ := step_busy_access hb hin (Ne.symm turn) (Ne.symm reset)
    obtain ⟨u, hrun, hu⟩ := ih (s := v) (by rw [hv]; exact hb) (by rw [hv]; rfl) turns resets
    refine ⟨u, (run_succ (M := core) _ hstep).trans hrun, ?_⟩
    rw [hu, hv]

/-- R21, R233: while a command is pending, every step takes one event, or completes the command. -/
theorem step_pending {s : State} (h : EngineInv s) (he : s.engine ≠ .idle) :
    ∃ t, step s = .next t ∧ (t.engine = .idle ∨ ∃ e, s.inputs = e :: t.inputs) := by
  cases hp : s.engine with
  | idle => exact absurd hp he
  | pending op strict =>
    obtain ⟨hb, i, hd⟩ := engineInv_pending h hp
    cases hin : s.inputs with
    | nil =>
      obtain ⟨t, ht, -, idle, -⟩ := engineStep_completes hp hd
      exact ⟨t, (step_of_no_inputs hin).trans ht, .inl idle⟩
    | cons e rest =>
      by_cases turn : e = .engineTurn
      · subst turn
        obtain ⟨t, ht, -, idle, -⟩ := engineStep_completes (s := s.setInputs rest) hp hd
        exact ⟨t, (step_engineTurn hin).trans ht, .inl idle⟩
      by_cases reset : e = .reset
      · subst reset
        exact ⟨_, step_reset hin, .inl rfl⟩
      obtain ⟨t, ht, eq⟩ := step_busy_access hb hin turn reset
      exact ⟨t, ht, .inr ⟨e, by rw [eq]⟩⟩

/-- R21: weak fairness in the model's finite form. -/
theorem engine_becomes_idle {es : List Event} {s : State} (h : EngineInv s) (hin : s.inputs = es) :
    ∃ (k : Nat) (t : State),
      k ≤ es.length + 1 ∧ Host.Core.run core k s = .next t ∧ t.engine = .idle := by
  induction es generalizing s with
  | nil =>
    by_cases he : s.engine = .idle
    · exact ⟨0, s, Nat.zero_le _, rfl, he⟩
    obtain ⟨t, ht, idle | ⟨e, hcons⟩⟩ := step_pending h he
    · exact ⟨1, t, le_refl _, run_succ (M := core) 0 ht, idle⟩
    · cases hin.symm.trans hcons
  | cons e es ih =>
    by_cases he : s.engine = .idle
    · exact ⟨0, s, Nat.zero_le _, rfl, he⟩
    obtain ⟨t, ht, idle | ⟨e', hcons⟩⟩ := step_pending h he
    · exact ⟨1, t, by simp, run_succ (M := core) 0 ht, idle⟩
    · cases hin.symm.trans hcons
      obtain ⟨k, u, hk, hu, idle⟩ := ih (everyStepKeepsEngineInv s t h ht) rfl
      exact ⟨k + 1, u, Nat.succ_le_succ hk, (run_succ (M := core) k ht).trans hu, idle⟩

/-- R21: where the engine's turn is next, the step is the turn with that event taken off. -/
theorem step_at_turn {s : State} (h : s.inputs = [] ∨ ∃ rest, s.inputs = .engineTurn :: rest) :
    step s = engineStep (s.setInputs s.inputs.tail) := by
  rcases h with h | ⟨rest, h⟩
  · rw [step_of_no_inputs h, h, List.tail_nil, ← h]
    rfl
  · rw [step_engineTurn h, h, List.tail_cons]

/-- Settles O59: the accesses before leave the command pending; then the turn performs it, or a
reset abandons it. -/
theorem pendingCommandIsPerformed : Obligations.PendingCommandIsPerformed := by
  refine ⟨fun s h => engine_becomes_idle h rfl, ?_⟩
  intro s op strict i pre post h he hd hin hturn hreset
  obtain ⟨hb, -⟩ := engineInv_pending h he
  obtain ⟨u, hrun, hu⟩ := run_busy_accesses hb hin hturn hreset
  have hue : u.engine = .pending op strict := by rw [hu]; exact he
  have hui : u.inputs = post := by rw [hu]
  refine ⟨fun hpost => ?_, fun rest hpost => ?_⟩
  · have turn : step u = engineStep (u.setInputs post.tail) := by
      rw [step_at_turn (by rwa [hui]), hui]
    obtain ⟨t, ht, hti, idle, hbusy, hdone⟩ :=
      engineStep_completes (s := u.setInputs post.tail) hue hd
    exact ⟨u, t, hrun, hu, turn.trans (engineStep_pending (s := u.setInputs post.tail) hue hd),
      turn.trans ht, hti, idle, hbusy, hdone⟩
  · have abandoned := step_reset (hui.trans hpost)
    exact ⟨_, (run_add 1 hrun).trans (run_succ (M := core) 0 abandoned), rfl, rfl, rfl⟩

end Sys2Proof.Proofs
end

section
/-! PROOF. What the records of a SCAN say (43_scanner.md R171 to R178; 10_state.md R47, R48): the
record of one match in closed form, the words it is stored as, and an invariant of SCAN's loop. -/

namespace Sys2Proof.Proofs

open Sys2Proof.Machine Sys2Proof.Safety

/-! ### The record of a match

R175 and R176, field by field, for the match at tag address `p`. -/

/-- LEN_KNOWN: the length field before the tag lies in the window. -/
def matchLenKnown (s : State) (p : Nat) : Bool := decide (s.ops.base.toNat + 4 ≤ p)

/-- LEN. -/
def matchLen (s : State) (p : Nat) : Word :=
  if matchLenKnown s p then ofBE32 (memRead s.buf (p - 4) 4) else 0

/-- TRUNC. -/
def matchTrunc (s : State) (p : Nat) : Bool :=
  !matchLenKnown s p || decide (s.ops.limit.toNat < p + 8 + (matchLen s p).toNat)

/-- STORED. -/
def matchStored (s : State) (p : Nat) : Word :=
  if matchTrunc s p then 0 else ofBE32 (memRead s.buf (p + 4 + (matchLen s p).toNat) 4)

/-- CALC. -/
def matchCalc (s : State) (p : Nat) : Word :=
  if matchTrunc s p then 0 else crc32 (memRead s.buf p (4 + (matchLen s p).toNat))

/-- VALID. -/
def matchValid (s : State) (p : Nat) : Bool :=
  !matchTrunc s p && decide (matchStored s p = matchCalc s p)

/-- MALFORMED. -/
def matchMalformed (s : State) (tag : List Byte) (p : Nat) : Bool :=
  decide (kindOf tag = .ihdr) && (matchValid s p && decide (matchLen s p ≠ 13))

/-- The record of the match of tag bytes `tag` at `p`. -/
def matchRecord (s : State) (tag : List Byte) (p : Nat) : Rec where
  tag := ofBE32 tag
  kind := kindOf tag
  tagAddr := p
  index := kindCount s.counts (kindOf tag)
  len := matchLen s p
  dataAddr := if matchValid s p then p + 4 else 0
  stored := matchStored s p
  computed := matchCalc s p
  valid := matchValid s p
  trunc := matchTrunc s p
  lenKnown := matchLenKnown s p
  malformed := matchMalformed s tag p

/-- R175: `eval_match` fills the record but for MALFORMED. -/
theorem evalMatch_newRecord (s : State) (tag : List Byte) (p : Nat) :
    evalMatch s p (newRecord tag p s.counts)
      = { matchRecord s tag p with malformed := false } := by
  by_cases known : matchLenKnown s p = true
  · have hp : p ≥ s.ops.base.toNat + 4 := of_decide_eq_true known
    have len : matchLen s p = ofBE32 (memRead s.buf (p - 4) 4) := if_pos known
    by_cases trunc : matchTrunc s p = true
    · have past : p + 8 + (matchLen s p).toNat > s.ops.limit.toNat := by
        simpa [matchTrunc, known] using trunc
      simp [evalMatch, hp, ← len, past, matchRecord, newRecord, matchStored, matchCalc, matchValid,
        trunc, known]
    · have inside : ¬ p + 8 + (matchLen s p).toNat > s.ops.limit.toNat := by
        simpa [matchTrunc, known] using trunc
      have stored : matchStored s p = ofBE32 (memRead s.buf (p + 4 + (matchLen s p).toNat) 4) :=
        if_neg trunc
      have computed : matchCalc s p = crc32 (memRead s.buf p (4 + (matchLen s p).toNat)) :=
        if_neg trunc
      have valid : matchValid s p = decide (matchStored s p = matchCalc s p) := by
        simp [matchValid, trunc]
      by_cases agree : matchStored s p = matchCalc s p <;>
        simp [evalMatch, hp, ← len, inside, ← stored, ← computed, agree, matchRecord, newRecord,
          valid, trunc, known]
  · have hp : ¬ p ≥ s.ops.base.toNat + 4 := by simpa [matchLenKnown] using known
    have trunc : matchTrunc s p = true := by simp [matchTrunc, known]
    simp [evalMatch, hp, matchRecord, newRecord, matchLen, matchStored, matchCalc, matchValid,
      trunc, known]

/-- R171, R176: the record SCAN makes. -/
theorem scanRecord_eq (s : State) (tag : List Byte) (p : Nat) :
    scanRecord s tag p = matchRecord s tag p := by
  have malformed : (kindOf tag = .ihdr ∧ matchValid s p = true ∧ matchLen s p ≠ 13)
      ↔ matchMalformed s tag p = true := by simp [matchMalformed]
  rw [scanRecord, evalMatch_newRecord]
  by_cases hm : matchMalformed s tag p = true
  · refine (if_pos (malformed.2 hm)).trans ?_
    rw [matchRecord, hm]
  · refine (if_neg fun h => hm (malformed.1 h)).trans ?_
    rw [matchRecord, eq_false_of_ne_true hm]

/-- The record of a match depends on the window only, but for its INDEX. -/
theorem matchRecord_congr {s u : State} (hops : u.ops = s.ops) (hbuf : u.buf = s.buf)
    (tag : List Byte) (p : Nat) :
    matchRecord u tag p
      = { matchRecord s tag p with index := kindCount u.counts (kindOf tag) } := by
  have known : matchLenKnown u p = matchLenKnown s p := by simp only [matchLenKnown, hops]
  have len : matchLen u p = matchLen s p := by simp only [matchLen, known, hbuf]
  have trunc : matchTrunc u p = matchTrunc s p := by simp only [matchTrunc, known, len, hops]
  have stored : matchStored u p = matchStored s p := by
    simp only [matchStored, trunc, len, hbuf]
  have computed : matchCalc u p = matchCalc s p := by simp only [matchCalc, trunc, len, hbuf]
  have valid : matchValid u p = matchValid s p := by
    simp only [matchValid, trunc, stored, computed]
  have malformed : matchMalformed u tag p = matchMalformed s tag p := by
    simp only [matchMalformed, valid, len]
  simp only [matchRecord, known, len, trunc, stored, computed, valid, malformed]

/-! ### FLAGS -/

/-- R48: the bits of FLAGS. -/
theorem flags_getLsbD (r : Rec) (n : Nat) : r.flags.getLsbD n =
    (r.valid && decide (n = 0) || r.trunc && decide (n = 1) || r.lenKnown && decide (n = 2) ||
      r.malformed && decide (n = 3) ||
      decide (8 ≤ n) && (BitVec.ofNat 2 r.kind.num).getLsbD (n - 8)) := by
  have kind : BitVec.ofNat 32 (256 * r.kind.num)
      = (BitVec.ofNat 2 r.kind.num).setWidth 32 <<< 8 := by cases r.kind <;> rfl
  have high : ((BitVec.ofNat 2 r.kind.num).setWidth 32 <<< 8).getLsbD n
      = (decide (8 ≤ n) && (BitVec.ofNat 2 r.kind.num).getLsbD (n - 8)) := by
    rw [BitVec.getLsbD_shiftLeft, BitVec.getLsbD_setWidth]
    by_cases h : 10 ≤ n
    · rw [BitVec.getLsbD_of_ge _ (n - 8) (by omega)]
      simp
    · have hn : n < 32 := by omega
      have hn8 : n - 8 < 32 := by omega
      have h8 : (!decide (n < 8)) = decide (8 ≤ n) := by simp [← decide_not]
      simp only [hn, hn8, h8, decide_true, Bool.true_and]
  simp only [Rec.flags, kind, BitVec.getLsbD_or, high, flagBit_getLsbD _ (show 0 < 32 by decide),
    flagBit_getLsbD _ (show 1 < 32 by decide), flagBit_getLsbD _ (show 2 < 32 by decide),
    flagBit_getLsbD _ (show 3 < 32 by decide)]

/-- R48: KIND in bits 9:8 of FLAGS. -/
theorem flags_kind (r : Rec) : r.flags.extractLsb' 8 2 = BitVec.ofNat 2 r.kind.num := by
  apply BitVec.eq_of_getLsbD_eq
  intro i hi
  simp [BitVec.getLsbD_extractLsb', flags_getLsbD, hi, -BitVec.getLsbD_eq_getElem]
  omega

/-- R48: bits 7:4 of FLAGS are 0. -/
theorem flags_reserved_low (r : Rec) : r.flags.extractLsb' 4 4 = 0 := by
  apply BitVec.eq_of_getLsbD_eq
  intro i hi
  simp [BitVec.getLsbD_extractLsb', flags_getLsbD, hi, -BitVec.getLsbD_eq_getElem]
  omega

/-- R48: bits 31:10 of FLAGS are 0. -/
theorem flags_reserved_high (r : Rec) : r.flags.extractLsb' 10 22 = 0 := by
  apply BitVec.eq_of_getLsbD_eq
  intro i hi
  have kind := BitVec.getLsbD_of_ge (BitVec.ofNat 2 r.kind.num) (10 + i - 8) (by omega)
  simp [BitVec.getLsbD_extractLsb', flags_getLsbD, hi, kind, -BitVec.getLsbD_eq_getElem]
  omega

/-- R189: two bits tell the kinds apart. -/
theorem kindNum_inj {k k' : Kind} (h : BitVec.ofNat 2 k.num = BitVec.ofNat 2 k'.num) : k = k' := by
  cases k <;> cases k' <;> simp [Kind.num] at h ⊢

/-! ### The records stored -/

/-- `r` is the record of the match at `p` in SCAN's window, but for its INDEX. -/
structure StoredMatch (s : State) (p : Nat) (r : ResRecord) : Prop where
  low : s.ops.base.toNat ≤ p
  high : p + 4 ≤ s.ops.limit.toNat
  kind : kindOf (memRead s.buf p 4) ≠ .other
  words : r = { (matchRecord s (memRead s.buf p 4) p).words with index := r.index }

/-- How many of the first `j` records have KIND `k` (R172). -/
def kindsBefore (res : List (Nat × ResRecord)) (j : Nat) (k : BitVec 2) : Nat :=
  ((List.range j).filter (fun m => (resRecord res m).flags.extractLsb' 8 2 = k)).length

theorem kindsBefore_succ (res : List (Nat × ResRecord)) (j : Nat) (k : BitVec 2) :
    kindsBefore res (j + 1) k = kindsBefore res j k +
      if (resRecord res j).flags.extractLsb' 8 2 = k then 1 else 0 := by
  by_cases h : (resRecord res j).flags.extractLsb' 8 2 = k <;>
    simp [kindsBefore, List.range_succ, List.filter_append, h]

theorem kindsBefore_le (res : List (Nat × ResRecord)) (j : Nat) (k : BitVec 2) :
    kindsBefore res j k ≤ j :=
  (List.length_filter_le _ _).trans_eq List.length_range

theorem kindsBefore_cellSet (res : List (Nat × ResRecord)) {j n : Nat} (r : ResRecord)
    (k : BitVec 2) (h : j ≤ n) : kindsBefore (cellSet res n r) j k = kindsBefore res j k := by
  unfold kindsBefore
  congr 1
  refine List.filter_congr fun m hm => ?_
  have hm : m < j := List.mem_range.1 hm
  rw [resRecord_cellSet_other res r (by omega)]

/-- Where SCAN goes on after the record `r` (R178). -/
def recordEnd (r : ResRecord) : Nat :=
  if r.flags.getLsbD 0 then r.tagAddr.toNat + 8 + r.len.toNat else r.tagAddr.toNat + 1

/-! ### What SCAN does for one match -/

/-- The state SCAN emits its record in (R171): the counters count the record, RES is untouched. -/
theorem beforeEmit_eq (r : Rec) (s : State) :
    (scanTerminal r (scanHeaderLatch r (countMade r.kind s))).counts = countRecord s.counts r.kind ∧
      (scanTerminal r (scanHeaderLatch r (countMade r.kind s))).res = s.res ∧
      (scanTerminal r (scanHeaderLatch r (countMade r.kind s))).cfg = s.cfg := by
  unfold scanTerminal scanHeaderLatch latchHeader
  split <;> split <;> exact ⟨rfl, rfl, rfl⟩

/-- R173: SCAN stores the record of a match in the next place while there is one. -/
theorem scanCommit_room (r : Rec) {s : State} (h : s.counts.nrec.toNat < s.cfg.resDepth) :
    (scanCommit r s).res = cellSet s.res s.counts.nrec.toNat r.words ∧
      (scanCommit r s).counts.nrec = s.counts.nrec + 1 := by
  obtain ⟨hcounts, hres, hcfg⟩ := beforeEmit_eq r s
  have nrec : (countRecord s.counts r.kind).nrec = s.counts.nrec := rfl
  rw [scanCommit, emitRecord_eq, hcounts, hres, hcfg, nrec, if_pos h]
  exact ⟨rfl, rfl⟩

/-- R173: SCAN drops the record of a match where the table is full. -/
theorem scanCommit_full (r : Rec) {s : State} (h : ¬ s.counts.nrec.toNat < s.cfg.resDepth) :
    (scanCommit r s).res = s.res ∧ (scanCommit r s).counts.nrec = s.counts.nrec := by
  obtain ⟨hcounts, hres, hcfg⟩ := beforeEmit_eq r s
  have nrec : (countRecord s.counts r.kind).nrec = s.counts.nrec := rfl
  rw [scanCommit, emitRecord_eq, hcounts, hcfg, nrec, if_neg h]
  exact ⟨hres, rfl⟩

/-- R172: SCAN counts the record of a match under its kind. -/
theorem scanCommit_kindCount (r : Rec) (s : State) {k : Kind} (hk : k ≠ .other) :
    kindCount (scanCommit r s).counts k
      = if r.kind = k then kindCount s.counts k + 1 else kindCount s.counts k := by
  obtain ⟨hcounts, -, -⟩ := beforeEmit_eq r s
  have emitted : kindCount (scanCommit r s).counts k
      = kindCount (countRecord s.counts r.kind) k := by
    rw [scanCommit, emitRecord_eq, hcounts]
    split <;> cases k <;> rfl
  rw [emitted]
  cases k with
  | ihdr => rfl
  | idat => rfl
  | iend => rfl
  | other => exact absurd rfl hk

/-! ### The invariant of SCAN's loop -/

/-- What SCAN of `s` keeps of its state `u` at position `p`: the records stored so far are those of
matches of the window, in order and indexed by kind, and while the table has room its counters count
them. -/
structure ScanInv (s u : State) (p : Nat) : Prop where
  frame : RecordFrame s u
  position : s.ops.base.toNat ≤ p
  fits : u.counts.nrec.toNat ≤ s.cfg.resDepth
  stored : ∀ j, j < u.counts.nrec.toNat →
    StoredMatch s (resRecord u.res j).tagAddr.toNat (resRecord u.res j)
  index : ∀ j, j < u.counts.nrec.toNat → (resRecord u.res j).index.toNat
    = kindsBefore u.res j ((resRecord u.res j).flags.extractLsb' 8 2)
  order : ∀ j, j + 1 < u.counts.nrec.toNat →
    recordEnd (resRecord u.res j) ≤ (resRecord u.res (j + 1)).tagAddr.toNat
  last : ∀ j, j + 1 = u.counts.nrec.toNat → recordEnd (resRecord u.res j) ≤ p
  counted : u.counts.nrec.toNat < s.cfg.resDepth → ∀ k, k ≠ Kind.other →
    (kindCount u.counts k).toNat = kindsBefore u.res u.counts.nrec.toNat (BitVec.ofNat 2 k.num)

theorem scanInv_start (s : State) : ScanInv s (clearResults s) s.ops.base.toNat where
  frame := clearResults_frame s
  position := le_refl _
  fits := Nat.zero_le _
  stored _ h := absurd h (Nat.not_lt_zero _)
  index _ h := absurd h (Nat.not_lt_zero _)
  order _ h := absurd h (Nat.not_lt_zero _)
  last _ h := absurd h (Nat.succ_ne_zero _)
  counted _ k _ := by cases k <;> rfl

theorem ScanInv.mono {s u : State} {p p' : Nat} (h : ScanInv s u p) (hp : p ≤ p') :
    ScanInv s u p' :=
  { h with position := h.position.trans hp, last := fun j hj => (h.last j hj).trans hp }

theorem scanAdvance_ge (r : Rec) (p : Nat) : p ≤ scanAdvance r p := by
  unfold scanAdvance
  split <;> omega

/-- R178: the stored words of a record say where SCAN goes on. -/
theorem recordEnd_words (r : Rec) (h : r.tagAddr < 2 ^ 32) :
    recordEnd r.words = scanAdvance r r.tagAddr := by
  have valid : r.words.flags.getLsbD 0 = r.valid := by
    show r.flags.getLsbD 0 = r.valid
    simp [flags_getLsbD, -BitVec.getLsbD_eq_getElem]
  have tagAddr : r.words.tagAddr.toNat = r.tagAddr := Nat.mod_eq_of_lt h
  rw [recordEnd, valid, tagAddr]
  rfl

/-- The stored words of SCAN's record of a match in the window. -/
theorem scanRecord_storedMatch {s u : State} {p : Nat} (hops : u.ops = s.ops)
    (hbuf : u.buf = s.buf) (low : s.ops.base.toNat ≤ p) (high : p + 4 ≤ s.ops.limit.toNat)
    (kind : kindOf (memRead s.buf p 4) ≠ .other) :
    StoredMatch s p (scanRecord u (memRead s.buf p 4) p).words where
  low := low
  high := high
  kind := kind
  words := by rw [scanRecord_eq, matchRecord_congr hops hbuf]; rfl

/-- R173: a record that finds the table full changes nothing the invariant speaks of. -/
theorem ScanInv.commit_full {s u : State} {p : Nat} {r : Rec} (h : ScanInv s u p)
    (full : ¬ u.counts.nrec.toNat < u.cfg.resDepth) : ScanInv s (scanCommit r u) p := by
  obtain ⟨hres, hnrec⟩ := scanCommit_full r full
  exact {
    frame := h.frame.trans (scanCommit_frame r u)
    position := h.position
    fits := by rw [hnrec]; exact h.fits
    stored := by rw [hnrec, hres]; exact h.stored
    index := by rw [hnrec, hres]; exact h.index
    order := by rw [hnrec, hres]; exact h.order
    last := by rw [hnrec, hres]; exact h.last
    counted := by
      rw [hnrec, ← h.frame.cfg]
      exact fun room => absurd room full }

/-- R172, R173: storing the record of a match at `p` where the table has room. -/
theorem ScanInv.commit_room {s u : State} {p : Nat} {r : Rec} (h : ScanInv s u p)
    (wf : s.cfg.wf = true) (room : u.counts.nrec.toNat < u.cfg.resDepth)
    (new : StoredMatch s r.tagAddr r.words) (hp : r.tagAddr = p) (hkind : r.kind ≠ .other)
    (hindex : r.index = kindCount u.counts r.kind) :
    ScanInv s (scanCommit r u) (scanAdvance r p) := by
  obtain ⟨hres, hnrec⟩ := scanCommit_room r room
  rw [h.frame.cfg] at room
  have depth : s.cfg.resDepth ≤ 128 := by
    simp only [Params.wf, Bool.and_eq_true, decide_eq_true_eq] at wf
    exact wf.2
  have small : r.tagAddr < 2 ^ 32 := by
    have := s.ops.limit.isLt
    have := new.high
    omega
  have hn : (scanCommit r u).counts.nrec.toNat = u.counts.nrec.toNat + 1 := by
    rw [hnrec, BitVec.toNat_add]
    exact Nat.mod_eq_of_lt (by simp; omega)
  have here : resRecord (scanCommit r u).res u.counts.nrec.toNat = r.words := by
    rw [hres, resRecord_cellSet_same]
  have old : ∀ j, j < u.counts.nrec.toNat →
      resRecord (scanCommit r u).res j = resRecord u.res j := fun j hj => by
    rw [hres, resRecord_cellSet_other _ _ (Nat.ne_of_lt hj)]
  have before : ∀ j k, j ≤ u.counts.nrec.toNat →
      kindsBefore (scanCommit r u).res j k = kindsBefore u.res j k := fun j k hj => by
    rw [hres, kindsBefore_cellSet _ _ _ hj]
  have tagAddr : r.words.tagAddr.toNat = r.tagAddr := Nat.mod_eq_of_lt small
  have kindBits : r.words.flags.extractLsb' 8 2 = BitVec.ofNat 2 r.kind.num := flags_kind r
  exact {
    frame := h.frame.trans (scanCommit_frame r u)
    position := h.position.trans (scanAdvance_ge r p)
    fits := by omega
    stored := fun j hj => by
      rcases Nat.lt_succ_iff_lt_or_eq.1 (hn ▸ hj) with hj | rfl
      · rw [old j hj]
        exact h.stored j hj
      · rw [here, tagAddr]
        exact new
    index := fun j hj => by
      rcases Nat.lt_succ_iff_lt_or_eq.1 (hn ▸ hj) with hj | rfl
      · rw [old j hj, before j _ hj.le]
        exact h.index j hj
      · rw [here, before _ _ le_rfl, kindBits, ← h.counted room _ hkind, ← hindex]
        rfl
    order := fun j hj => by
      rcases Nat.lt_succ_iff_lt_or_eq.1 (hn ▸ hj) with hj | hj
      · rw [old j (by omega), old _ hj]
        exact h.order j hj
      · rw [old j (by omega), hj, here, tagAddr, hp]
        exact h.last j hj
    last := fun j hj => by
      obtain rfl : j = u.counts.nrec.toNat := by omega
      rw [here, recordEnd_words r small, hp]
    counted := fun _ k hk => by
      have counted := h.counted room k hk
      have le := kindsBefore_le u.res u.counts.nrec.toNat (BitVec.ofNat 2 k.num)
      rw [hn, kindsBefore_succ, before _ _ le_rfl, here, kindBits, scanCommit_kindCount r u hk,
        ← counted]
      by_cases e : r.kind = k
      · rw [if_pos e, if_pos (by rw [e]), BitVec.toNat_add]
        exact Nat.mod_eq_of_lt (by simp; omega)
      · rw [if_neg e, if_neg fun bits => e (kindNum_inj bits)]
        rfl }

/-- R171: one match of the loop keeps the invariant. -/
theorem ScanInv.commit {s u : State} {p : Nat} (h : ScanInv s u p) (wf : s.cfg.wf = true)
    (high : p + 4 ≤ s.ops.limit.toNat) (kind : kindOf (memRead s.buf p 4) ≠ .other) :
    ScanInv s (scanCommit (scanRecord u (memRead s.buf p 4) p) u)
      (scanAdvance (scanRecord u (memRead s.buf p 4) p) p) := by
  have new := scanRecord_storedMatch h.frame.ops h.frame.buf h.position high kind
  rw [scanRecord_eq] at new ⊢
  by_cases room : u.counts.nrec.toNat < u.cfg.resDepth
  · exact h.commit_room wf room new rfl kind rfl
  · exact (h.commit_full room).mono (scanAdvance_ge _ _)

/-- R171: SCAN's loop keeps the invariant. -/
theorem ScanInv.loop {s u : State} {p : Nat} (n : Nat) (h : ScanInv s u p)
    (wf : s.cfg.wf = true) : ∃ p', ScanInv s (scanLoop n p u) p' := by
  induction n generalizing u p with
  | zero => exact ⟨p, h⟩
  | succ n ih =>
    rw [scanLoop, h.frame.ops, h.frame.buf]
    split
    · rename_i high
      dsimp only
      split
      · exact ih (h.mono (Nat.le_succ p))
      · rename_i kind
        exact ih (h.commit wf high kind)
    · exact ⟨p, h⟩

/-- R171: a SCAN without error ends in a state that meets the invariant of its loop. -/
theorem scan_scanInv {s t : State} (h : exec .scan s = .next t) (herr : t.status.err = false)
    (wf : s.cfg.wf = true) : ∃ u p, ScanInv s u p ∧ t.res = u.res ∧ t.counts = u.counts := by
  cases (exec_command (show commandBody .scan s = some (scanBody s) from rfl)).symm.trans h
  unfold scanBody at herr ⊢
  dsimp only at herr ⊢
  split at herr
  · cases herr
  · rename_i window
    obtain ⟨p, hp⟩ :=
      (scanInv_start s).loop (s.ops.limit.toNat - s.ops.base.toNat) wf
    rw [if_neg window]
    exact ⟨_, p, hp, rfl, rfl⟩

/-! ### What a stored record says -/

section
variable {s : State} {p : Nat} {r : ResRecord} (h : StoredMatch s p r)
include h

theorem StoredMatch.tag : r.tag = ofBE32 (memRead s.buf p 4) := by rw [h.words]; rfl

theorem StoredMatch.flags : r.flags = (matchRecord s (memRead s.buf p 4) p).flags := by
  rw [h.words]; rfl

theorem StoredMatch.len : r.len = matchLen s p := by rw [h.words]; rfl

theorem StoredMatch.stored : r.stored = matchStored s p := by rw [h.words]; rfl

theorem StoredMatch.computed : r.computed = matchCalc s p := by rw [h.words]; rfl

theorem StoredMatch.dataAddr : r.dataAddr.toNat = if matchValid s p then p + 4 else 0 := by
  have words : r.dataAddr.toNat = (if matchValid s p then p + 4 else 0) % 2 ^ 32 := by
    rw [h.words]
    exact BitVec.toNat_ofNat _ _
  have := s.ops.limit.isLt
  have := h.high
  rw [words, Nat.mod_eq_of_lt]
  split <;> omega

theorem StoredMatch.valid : r.flags.getLsbD 0 = matchValid s p := by
  simp [h.flags, flags_getLsbD, matchRecord, -BitVec.getLsbD_eq_getElem]

theorem StoredMatch.trunc : r.flags.getLsbD 1 = matchTrunc s p := by
  simp [h.flags, flags_getLsbD, matchRecord, -BitVec.getLsbD_eq_getElem]

theorem StoredMatch.lenKnown : r.flags.getLsbD 2 = matchLenKnown s p := by
  simp [h.flags, flags_getLsbD, matchRecord, -BitVec.getLsbD_eq_getElem]

theorem StoredMatch.malformed :
    r.flags.getLsbD 3 = matchMalformed s (memRead s.buf p 4) p := by
  simp [h.flags, flags_getLsbD, matchRecord, -BitVec.getLsbD_eq_getElem]

end

/-- Settles O43: by the invariant of SCAN's loop, each stored record is that of a match. -/
theorem scanRecordsAreSound : Obligations.ScanRecordsAreSound := by
  intro s t hexec herr wf j p limit r k valid trunc lenKnown malformed hj hr hp hlimit hk hvalid
    htrunc hknown hmalformed
  obtain ⟨u, pos, hu, hres, hcounts⟩ := scan_scanInv hexec herr wf
  rw [hcounts] at hj
  have m : StoredMatch s p r := by
    rw [hp, hr, hres]
    exact hu.stored j hj
  have index := hu.index j hj
  have order := hu.order j
  rw [← hres, ← hr] at index order
  subst hlimit hk
  rw [m.valid] at hvalid
  rw [m.trunc] at htrunc
  rw [m.lenKnown] at hknown
  rw [m.malformed] at hmalformed
  subst hvalid htrunc hknown hmalformed
  refine ⟨m.low, m.high, m.kind, m.tag, ?_, ?_, ?_, ?_, ?_, ?_, ?_, ?_, ?_, m.dataAddr, ?_,
    index, ?_⟩
  · rw [m.flags, flags_kind]; rfl
  · rw [m.flags, flags_reserved_low]
  · rw [m.flags, flags_reserved_high]
  · simp [matchLenKnown]
  · rw [m.len, matchLen]
  · simp [matchTrunc, m.len]
  · intro ht
    simp [m.stored, m.computed, matchStored, matchCalc, ht]
  · intro ht
    simp [m.stored, m.computed, m.len, matchStored, matchCalc, ht]
  · simp [matchValid, m.stored, m.computed]
  · simp [matchMalformed, m.len]
  · intro hnext
    rw [hcounts] at hnext
    have order := order hnext
    rwa [recordEnd, m.valid, ← hp] at order

end Sys2Proof.Proofs
end

section
/-! PROOF. The parse commands read no byte outside their window (20_memory.md R75): each of their
operations commutes with exchanging BUF for a memory that agrees with it on the window. -/

namespace Sys2Proof.Proofs

open Sys2Proof.Machine Sys2Proof.Safety

/-! ### Exchanging BUF -/

/-- `BUF` and `m` agree on the window. -/
def AgreeInWindow (s : State) (m : Memory) : Prop :=
  AgreeOn s.buf m s.ops.base.toNat s.ops.limit.toNat

/-- A read inside the window is the same on both memories. -/
theorem AgreeInWindow.memRead_eq {s : State} {m : Memory} (h : AgreeInWindow s m) {a n : Nat}
    (low : s.ops.base.toNat ≤ a) (high : a + n ≤ s.ops.limit.toNat) :
    memRead m a n = memRead s.buf a n :=
  memRead_congr fun c hc hc' => h c (low.trans hc) (hc'.trans_le high)

/-- SCAN and DECODE move neither the window nor the memory (R85). -/
theorem AgreeInWindow.frame {s t : State} {m : Memory} (h : AgreeInWindow s m)
    (frame : RecordFrame s t) : AgreeInWindow t m := by
  unfold AgreeInWindow
  rw [frame.buf, frame.ops]
  exact h

/-- The end of a command's pseudocode with another memory. -/
def endedSetBuf (m : Memory) : Ended → Ended
  | .finished v s => .finished v (s.setBuf m)
  | .raised e s => .raised e (s.setBuf m)

/-- The answer of a step of DECODE with another memory; `f` exchanges it in the result. -/
def answerSetBuf {α : Type} (m : Memory) (f : α → α) :
    Except (CmdError × State) α → Except (CmdError × State) α
  | .ok x => .ok (f x)
  | .error e => .error (e.1, e.2.setBuf m)

theorem complete_setBuf (b : Ended) (m : Memory) :
    complete (endedSetBuf m b) = (complete b).setBuf m := by
  cases b <;> rfl

theorem windowOk_setBuf (s : State) (m : Memory) : windowOk (s.setBuf m) = windowOk s :=
  windowOk_congr rfl rfl

theorem clearResults_setBuf (s : State) (m : Memory) :
    clearResults (s.setBuf m) = (clearResults s).setBuf m := rfl

theorem countMade_setBuf (k : Kind) (s : State) (m : Memory) :
    countMade k (s.setBuf m) = (countMade k s).setBuf m := rfl

theorem setChunk_setBuf (c : ChunkRegs) (s : State) (m : Memory) :
    (s.setBuf m).setChunk c = (s.setChunk c).setBuf m := rfl

theorem emitRecord_setBuf (r : Rec) (s : State) (m : Memory) :
    emitRecord r (s.setBuf m) = (emitRecord r s).setBuf m := by
  rw [emitRecord_eq, emitRecord_eq, State.setBuf_counts, State.setBuf_cfg]
  split <;> rfl

theorem scanTerminal_setBuf (r : Rec) (s : State) (m : Memory) :
    scanTerminal r (s.setBuf m) = (scanTerminal r s).setBuf m := by
  unfold scanTerminal
  split <;> rfl

/-! ### PARSE_AT -/

/-- R150: every byte is read after the check that it lies in the window. -/
theorem parseAtBody_setBuf (strict : Bool) {s : State} {m : Memory} (h : AgreeInWindow s m) :
    parseAtBody strict (s.setBuf m) = endedSetBuf m (parseAtBody strict s) := by
  unfold parseAtBody
  dsimp only
  rw [windowOk_setBuf, State.setBuf_ops, State.setBuf_buf]
  split
  · rfl
  split
  · rfl
  rename_i header
  rw [h.memRead_eq (a := s.ops.offset.toNat - 4) (by omega) (by omega),
    h.memRead_eq (a := s.ops.offset.toNat) (n := 4) (by omega) (by omega)]
  split
  · rfl
  split
  · rfl
  rename_i whole
  rw [h.memRead_eq (n := 4) (by omega) (by omega), h.memRead_eq (by omega) (by omega)]
  split
  · rfl
  split <;> rfl

/-! ### SCAN -/

/-- The whole chunk of a record, from its tag to its checksum field, lies in the window. -/
structure ChunkInWindow (s : State) (r : Rec) : Prop where
  low : s.ops.base.toNat ≤ r.tagAddr
  high : r.tagAddr + 8 + r.len.toNat ≤ s.ops.limit.toNat

/-- R174: the latch reads the 13 data bytes of a header chunk. -/
theorem latchHeader_setBuf {s : State} {m : Memory} (h : AgreeInWindow s m) {r : Rec}
    (chunk : ChunkInWindow s r) (len : r.len = 13) :
    latchHeader (r.tagAddr + 4) (s.setBuf m) = (latchHeader (r.tagAddr + 4) s).setBuf m := by
  have low := chunk.low
  have high := chunk.high
  have bytes : memRead m (r.tagAddr + 4) 13 = memRead s.buf (r.tagAddr + 4) 13 :=
    h.memRead_eq (by omega) (by simp [len] at high; omega)
  unfold latchHeader
  rw [State.setBuf_buf, bytes]
  rfl

section
variable {s : State} {m : Memory} {p : Nat}

/-- R175: the length field is read only where it lies in the window. -/
theorem matchLen_setBuf (h : AgreeInWindow s m) (high : p + 4 ≤ s.ops.limit.toNat) :
    matchLen (s.setBuf m) p = matchLen s p := by
  have same : matchLenKnown (s.setBuf m) p = matchLenKnown s p := rfl
  rw [matchLen, matchLen, same]
  split
  · rename_i known
    have low := of_decide_eq_true known
    rw [State.setBuf_buf, h.memRead_eq (by omega) (by omega)]
  · rfl

theorem matchTrunc_setBuf (h : AgreeInWindow s m) (high : p + 4 ≤ s.ops.limit.toNat) :
    matchTrunc (s.setBuf m) p = matchTrunc s p := by
  rw [matchTrunc, matchLen_setBuf h high]
  rfl

/-- R175: a match that is not truncated ends in the window. -/
theorem matchEnd_of_not_trunc (h : ¬ matchTrunc s p = true) :
    p + 8 + (matchLen s p).toNat ≤ s.ops.limit.toNat := by
  simp only [matchTrunc, Bool.or_eq_true, decide_eq_true_eq, not_or, not_lt] at h
  exact h.2

theorem matchStored_setBuf (h : AgreeInWindow s m) (low : s.ops.base.toNat ≤ p)
    (high : p + 4 ≤ s.ops.limit.toNat) : matchStored (s.setBuf m) p = matchStored s p := by
  rw [matchStored, matchStored, matchTrunc_setBuf h high, matchLen_setBuf h high]
  split
  · rfl
  · rename_i whole
    have := matchEnd_of_not_trunc whole
    rw [State.setBuf_buf, h.memRead_eq (by omega) (by omega)]

theorem matchCalc_setBuf (h : AgreeInWindow s m) (low : s.ops.base.toNat ≤ p)
    (high : p + 4 ≤ s.ops.limit.toNat) : matchCalc (s.setBuf m) p = matchCalc s p := by
  rw [matchCalc, matchCalc, matchTrunc_setBuf h high, matchLen_setBuf h high]
  split
  · rfl
  · rename_i whole
    have := matchEnd_of_not_trunc whole
    rw [State.setBuf_buf, h.memRead_eq (by omega) (by omega)]

/-- R175, R176: the record of a match in the window is the same on both memories. -/
theorem matchRecord_setBuf (h : AgreeInWindow s m) (low : s.ops.base.toNat ≤ p)
    (high : p + 4 ≤ s.ops.limit.toNat) (tag : List Byte) :
    matchRecord (s.setBuf m) tag p = matchRecord s tag p := by
  have known : matchLenKnown (s.setBuf m) p = matchLenKnown s p := rfl
  have len := matchLen_setBuf h high
  have trunc := matchTrunc_setBuf h high
  have stored := matchStored_setBuf h low high
  have computed := matchCalc_setBuf h low high
  have valid : matchValid (s.setBuf m) p = matchValid s p := by
    simp only [matchValid, trunc, stored, computed]
  have malformed : matchMalformed (s.setBuf m) tag p = matchMalformed s tag p := by
    simp only [matchMalformed, valid, len]
  simp only [matchRecord, known, len, trunc, stored, computed, valid, malformed,
    State.setBuf_counts]

/-- R175: the chunk of a valid match lies in the window. -/
theorem matchRecord_chunkInWindow (low : s.ops.base.toNat ≤ p) (tag : List Byte)
    (valid : (matchRecord s tag p).valid = true) : ChunkInWindow s (matchRecord s tag p) where
  low := low
  high := by
    have valid : matchValid s p = true := valid
    have whole : ¬ matchTrunc s p = true := fun trunc => by simp [matchValid, trunc] at valid
    exact matchEnd_of_not_trunc whole

end

/-- R176: only the chunk of a valid record is latched. -/
theorem scanHeaderLatch_setBuf {s : State} {m : Memory} (h : AgreeInWindow s m) {r : Rec}
    (chunk : r.valid = true → ChunkInWindow s r) :
    scanHeaderLatch r (s.setBuf m) = (scanHeaderLatch r s).setBuf m := by
  unfold scanHeaderLatch
  rw [State.setBuf_status]
  split
  · rename_i latched
    obtain ⟨-, valid, len, -⟩ := latched
    exact latchHeader_setBuf h (chunk valid) len
  · rfl

theorem scanCommit_setBuf {s : State} {m : Memory} (h : AgreeInWindow s m) {r : Rec}
    (chunk : r.valid = true → ChunkInWindow s r) :
    scanCommit r (s.setBuf m) = (scanCommit r s).setBuf m := by
  have latch : scanHeaderLatch r (countMade r.kind (s.setBuf m))
      = (scanHeaderLatch r (countMade r.kind s)).setBuf m :=
    scanHeaderLatch_setBuf (s := countMade r.kind s) h
      fun valid => ⟨(chunk valid).low, (chunk valid).high⟩
  rw [scanCommit, latch, scanTerminal_setBuf, emitRecord_setBuf, scanCommit]

/-- R171: SCAN's loop, from a position in the window on. -/
theorem scanLoop_setBuf (n : Nat) {p : Nat} {s : State} {m : Memory} (h : AgreeInWindow s m)
    (low : s.ops.base.toNat ≤ p) : scanLoop n p (s.setBuf m) = (scanLoop n p s).setBuf m := by
  induction n generalizing p s with
  | zero => rfl
  | succ n ih =>
    rw [scanLoop, scanLoop, State.setBuf_ops]
    split
    · rename_i high
      dsimp only
      rw [State.setBuf_buf, h.memRead_eq low high]
      split
      · exact ih h (low.trans (Nat.le_succ p))
      · rw [scanRecord_eq, scanRecord_eq, matchRecord_setBuf h low high,
          scanCommit_setBuf h (matchRecord_chunkInWindow low _)]
        refine ih (h.frame (scanCommit_frame _ _)) ?_
        rw [(scanCommit_frame _ _).ops]
        exact low.trans (scanAdvance_ge _ _)
    · rfl

theorem scanBody_setBuf {s : State} {m : Memory} (h : AgreeInWindow s m) :
    scanBody (s.setBuf m) = endedSetBuf m (scanBody s) := by
  have loop := scanLoop_setBuf (s.ops.limit.toNat - s.ops.base.toNat)
    (h.frame (clearResults_frame s)) (le_refl s.ops.base.toNat)
  unfold scanBody
  dsimp only
  rw [windowOk_setBuf, State.setBuf_ops, clearResults_setBuf, loop]
  split <;> rfl

/-! ### DECODE -/

/-- R181: the signature is compared after the check that it lies in the window. -/
theorem checkSignature_setBuf {s : State} {m : Memory} (h : AgreeInWindow s m) :
    checkSignature (s.setBuf m) = checkSignature s := by
  unfold checkSignature
  dsimp only
  rw [State.setBuf_ops, State.setBuf_buf]
  split
  · rfl
  · rw [h.memRead_eq (le_refl _) (by omega)]

/-- R182: every byte of a chunk is read after the check that it lies in the window. -/
theorem readChunk_setBuf {p : Nat} {s : State} {m : Memory} (h : AgreeInWindow s m)
    (low : s.ops.base.toNat ≤ p) :
    readChunk p (s.setBuf m)
      = answerSetBuf m (Prod.map id (·.setBuf m)) (readChunk p s) := by
  unfold readChunk
  dsimp only
  rw [State.setBuf_ops, State.setBuf_buf, State.setBuf_counts]
  split
  · rfl
  rw [h.memRead_eq (a := p) (by omega) (by omega),
    h.memRead_eq (a := p + 4) (n := 4) (by omega) (by omega)]
  simp only [countMade_setBuf, setChunk_setBuf, emitRecord_setBuf]
  split
  · rfl
  split
  · rfl
  rw [h.memRead_eq (n := 4) (by omega) (by omega), h.memRead_eq (by omega) (by omega)]
  split <;> rfl

/-- R182: an accepted chunk begins with its length field at `p` and lies in the window. -/
theorem readChunk_ok_chunkInWindow {p : Nat} {s : State} {x : Rec × State}
    (low : s.ops.base.toNat ≤ p) (h : readChunk p s = .ok x) : ChunkInWindow s x.1 := by
  unfold readChunk at h
  dsimp only at h
  split at h
  · cases h
  split at h
  · cases h
  split at h
  · cases h
  split at h
  · cases h
  cases h
  exact ⟨low.trans (Nat.le_add_right p 4), Nat.le_of_not_lt ‹_›⟩

/-- R184: the header test looks at the data bytes of a 13-byte chunk only. -/
theorem headerAccepted_setBuf {s : State} {m : Memory} (h : AgreeInWindow s m) {r : Rec}
    (chunk : ChunkInWindow s r) : headerAccepted r (s.setBuf m) = headerAccepted r s := by
  have low := chunk.low
  have high := chunk.high
  by_cases len : r.len = 13
  · have bytes : memRead m (r.tagAddr + 4) 13 = memRead s.buf (r.tagAddr + 4) 13 :=
      h.memRead_eq (by omega) (by simp [len] at high; omega)
    simp only [headerAccepted, State.setBuf_buf, bytes]
  · simp only [headerAccepted, decide_eq_false len, Bool.false_and]

theorem headerAccepted_len {r : Rec} {s : State} (h : headerAccepted r s = true) :
    r.len = 13 := by
  simp only [headerAccepted, Bool.and_eq_true, decide_eq_true_eq] at h
  obtain ⟨⟨⟨len, -⟩, -⟩, -⟩ := h
  exact len

theorem headerStep_setBuf {s : State} {m : Memory} (h : AgreeInWindow s m) {r : Rec}
    (chunk : ChunkInWindow s r) :
    headerStep r (s.setBuf m) = answerSetBuf m (·.setBuf m) (headerStep r s) := by
  unfold headerStep
  rw [headerAccepted_setBuf h chunk]
  split
  · rename_i accepted
    rw [latchHeader_setBuf h chunk (headerAccepted_len accepted)]
    rfl
  · rw [emitRecord_setBuf]
    rfl

theorem structureStep_setBuf (ph : Phase) {s : State} {m : Memory} (h : AgreeInWindow s m) {r : Rec}
    (chunk : ChunkInWindow s r) :
    structureStep ph r (s.setBuf m)
      = answerSetBuf m (Prod.map id (·.setBuf m)) (structureStep ph r s) := by
  cases ph with
  | expectHdr =>
    simp only [structureStep, headerStep_setBuf h chunk, emitRecord_setBuf]
    split
    · cases headerStep r s <;> rfl
    · rfl
  | expectData =>
    simp only [structureStep, emitRecord_setBuf]
    split <;> rfl
  | inData =>
    simp only [structureStep, emitRecord_setBuf]
    split <;> rfl

/-- R180: DECODE's loop, from a position in the window on. -/
theorem decodeLoop_setBuf (n : Nat) {p : Nat} (ph : Phase) {s : State} {m : Memory}
    (h : AgreeInWindow s m) (low : s.ops.base.toNat ≤ p) :
    decodeLoop n p ph (s.setBuf m) = endedSetBuf m (decodeLoop n p ph s) := by
  induction n generalizing p ph s with
  | zero => rfl
  | succ n ih =>
    have hread := readChunk_frame p s
    rw [decodeLoop, decodeLoop, readChunk_setBuf h low]
    cases read : readChunk p s with
    | error e => rfl
    | ok x =>
      obtain ⟨r, s1⟩ := x
      rw [read] at hread
      have chunk : ChunkInWindow s r := readChunk_ok_chunkInWindow low read
      have chunk1 : ChunkInWindow s1 r := by
        have ops : s1.ops = s.ops := hread.ops
        exact ⟨ops ▸ chunk.low, ops ▸ chunk.high⟩
      have hstep := (structureStep_frame ph r s1).1
      have next : structureStep ph r (s1.setBuf m)
          = answerSetBuf m (Prod.map id (·.setBuf m)) (structureStep ph r s1) :=
        structureStep_setBuf ph (h.frame hread) chunk1
      simp only [answerSetBuf, Prod.map_apply, id, next]
      cases step : structureStep ph r s1 with
      | error e => rfl
      | ok y =>
        obtain ⟨ph', s2⟩ := y
        have frame := (RecordFrame.trans hread (hstep _ step)).trans (emitRecord_frame r s2)
        simp only [Prod.map_apply, id, emitRecord_setBuf]
        split
        · rfl
        · refine ih _ (h.frame frame) ?_
          rw [frame.ops]
          exact chunk.low.trans (by omega)

theorem decodeBody_setBuf {s : State} {m : Memory} (h : AgreeInWindow s m) :
    decodeBody (s.setBuf m) = endedSetBuf m (decodeBody s) := by
  have agree := h.frame (clearResults_frame s)
  have loop := decodeLoop_setBuf (s.ops.limit.toNat - s.ops.base.toNat) .expectHdr agree
    (Nat.le_add_right s.ops.base.toNat 8)
  unfold decodeBody
  dsimp only
  rw [windowOk_setBuf, State.setBuf_ops, clearResults_setBuf, checkSignature_setBuf agree, loop]
  split
  · rfl
  · cases checkSignature (clearResults s) <;> rfl

/-! ### The four commands -/

theorem exec_setBuf_of_commandBody {i : Instr} {s : State} {m : Memory} {b : Ended}
    (h : commandBody i s = some b) (h' : commandBody i (s.setBuf m) = some (endedSetBuf m b)) :
    ∃ t, exec i s = .next t ∧ exec i (s.setBuf m) = .next (t.setBuf m) :=
  ⟨complete b, exec_command h, by rw [exec_command h', complete_setBuf]⟩

/-- Settles O40: exchanging BUF for a memory that agrees with it on the window commutes with the
pseudocode of each of the four commands, by induction over the loops of SCAN and DECODE. -/
theorem parsersReadOnlyTheirWindow : Obligations.ParsersReadOnlyTheirWindow := by
  intro s m i hi h
  simp only [List.mem_cons, List.not_mem_nil, or_false] at hi
  rcases hi with rfl | rfl | rfl | rfl
  · exact exec_setBuf_of_commandBody rfl (congrArg some (parseAtBody_setBuf false h))
  · exact exec_setBuf_of_commandBody rfl (congrArg some (parseAtBody_setBuf true h))
  · exact exec_setBuf_of_commandBody rfl (congrArg some (scanBody_setBuf h))
  · exact exec_setBuf_of_commandBody rfl (congrArg some (decodeBody_setBuf h))

end Sys2Proof.Proofs
end

section
/-! PROOF. The buffer memory and the result table (20_memory.md R60, R62; 10_state.md R47): the
host's byte accesses, what a command stores, and the form and range every step keeps. -/

namespace Sys2Proof.Proofs

open Sys2Proof.Machine Sys2Proof.Safety

/-! ### The host buffer port -/

/-- R62: a buffer read past BUF_SIZE returns 0. -/
theorem bufReadValue_past {s : State} {a : Word} (h : bufSize s ≤ a.toNat) :
    bufReadValue a s = 0x00 := by
  rw [bufReadValue, if_neg (Nat.not_lt.2 h)]

/-- R62: a buffer read that R238 makes no draw returns the byte. -/
theorem bufReadValue_not_drawn {s : State} {a : Word} (h : a.toNat < bufSize s)
    (hd : byteDrawn s a.toNat = false) : bufReadValue a s = bufByte s.buf a.toNat := by
  rw [bufReadValue, if_pos h, hd]
  rfl

theorem step_bufWrite {s : State} {a : Word} {b : Byte} {rest : List Event}
    (h : s.inputs = .bufWrite a b :: rest) :
    step s = .next (hostBufWrite a b (s.setInputs rest)) := by
  simp only [step, h, performEvent]

section
variable {s : State} {a : Word}

theorem hostBufWrite_busy (b : Byte) (hb : s.status.busy = true) :
    hostBufWrite a b s = dropWrite s := if_pos hb

theorem hostBufWrite_past (b : Byte) (hb : s.status.busy = false) (h : bufSize s ≤ a.toNat) :
    hostBufWrite a b s = s := by
  simp [hostBufWrite, hb, Nat.not_lt.2 h]

theorem hostBufWrite_inside (b : Byte) (hb : s.status.busy = false) (h : a.toNat < bufSize s) :
    hostBufWrite a b s = s.setBuf (cellSet s.buf a.toNat b) := by
  simp [hostBufWrite, hb, h]

end

/-- Settles O13: the two answers of a buffer read and the three fates of a buffer write. -/
theorem bufferPortReadsAndWritesBytes : Obligations.BufferPortReadsAndWritesBytes := by
  refine ⟨fun s a rest hin => ?_, fun s a b rest hin => ?_⟩
  · exact ⟨_, step_bufRead hin, fun past => bufReadValue_past (s := s.setInputs rest) past,
      fun inside hd => bufReadValue_not_drawn (s := s.setInputs rest) inside hd⟩
  · refine ⟨_, step_bufWrite hin, fun hb => ?_, fun hb past => ?_, fun hb inside => ?_⟩
    · exact hostBufWrite_busy b (s := s.setInputs rest) hb
    · exact hostBufWrite_past b (s := s.setInputs rest) hb past
    · rw [hostBufWrite_inside b (s := s.setInputs rest) hb inside]
      exact ⟨rfl, bufByte_cellSet_same _ _ _, fun c hc => bufByte_cellSet_other _ _ hc⟩

/-! ### Form and range of a list of cells -/

/-- Keys strictly rising, and all below `n`. -/
def CellsWithin {β : Type} (n : Nat) (m : List (Nat × β)) : Prop :=
  keysRising m ∧ ∀ c ∈ m, c.1 < n

theorem storageInv_iff (s : State) :
    StorageInv s ↔ CellsWithin (bufSize s) s.buf ∧ CellsWithin s.cfg.resDepth s.res :=
  and_assoc.symm

theorem CellsWithin.cellSet {β : Type} {n : Nat} {m : List (Nat × β)} (h : CellsWithin n m)
    {a : Nat} (v : β) (ha : a < n) : CellsWithin n (cellSet m a v) := by
  obtain ⟨rising, below⟩ := h
  refine ⟨keysRising_cellSet rising a v, fun c hc => ?_⟩
  rcases mem_cellSet hc with rfl | hc
  · exact ha
  · exact below c hc

theorem CellsWithin.memWrite {n a : Nat} {m : Memory} {bs : List Byte} (h : CellsWithin n m)
    (ha : a + bs.length ≤ n) : CellsWithin n (memWrite m a bs) := by
  obtain ⟨rising, below⟩ := h
  refine ⟨memWrite_wf rising a bs, fun c hc => ?_⟩
  rcases mem_memWrite hc with ⟨-, hlt⟩ | hc
  · exact hlt.trans_le ha
  · exact below c hc

/-- R233: what a reset draws stays in BUF, where it draws anything. -/
theorem CellsWithin.memDraw {n a l : Nat} {m : Memory} (h : CellsWithin n m) (k : Nat)
    (ha : l = 0 ∨ a + l ≤ n) : CellsWithin n (memDraw m a l k) := by
  obtain ⟨rising, below⟩ := h
  refine ⟨memDraw_wf rising a l k, fun c hc => ?_⟩
  rcases mem_memDraw hc with ⟨hle, hlt⟩ | hc
  · omega
  · exact below c hc

/-- R235: a drawn table has a record at each index below RES_DEPTH. -/
theorem drawnTable_cellsWithin (n k : Nat) : CellsWithin n (drawnTable 0 n k) :=
  ⟨drawnTable_rising 0 n k, fun c hc => by have := mem_drawnTable hc; omega⟩

/-! ### What a command stores -/

/-- `m` is BUF after the command `i` stored its output `bs` from DST, inside BUF (R85). -/
structure OutputStored (i : Instr) (s : State) (m : Memory) (bs : List Byte) : Prop where
  length : bs.length = outLength i s
  fits : s.ops.dst.toNat + outLength i s ≤ bufSize s
  eq : m = memWrite s.buf s.ops.dst.toNat bs

/-- R120, R122, R123: a chunk of `12 + LEN` bytes is stored. -/
theorem putChunk_outputStored {i : Instr} {s : State} (tag : Word) {d : List Byte}
    (length : 12 + d.length = outLength i s)
    (fits : s.ops.dst.toNat + outLength i s ≤ bufSize s) :
    OutputStored i s (putChunk s.ops.dst.toNat tag d s).buf (chunkBytes (toBE32 tag) d) where
  length := by rw [chunkBytes_length, toBE32_length, length]
  fits := fits
  eq := rfl

/-- R60, R85: a command leaves BUF alone, or stores its output. -/
theorem commandBody_buf {i : Instr} {s : State} {b : Ended} (hb : commandBody i s = some b) :
    b.state.buf = s.buf ∨ ∃ bs, OutputStored i s b.state.buf bs := by
  have parse : ∀ strict, (parseAtBody strict s).state.buf = s.buf := by
    intro strict
    rcases parseAtBody_cases strict s with ⟨_, _, _, e⟩ | ⟨_, _, e⟩ | ⟨_, e⟩ <;>
      exact congrArg (·.state.buf) e
  cases i with
  | crcRange =>
    cases hb
    rcases crcRangeBody_cases s with e | ⟨_, e⟩ <;> rw [e] <;> exact .inl rfl
  | frame =>
    cases hb
    rcases frameBody_cases s with ⟨_, _, e⟩ | ⟨_, fits, e⟩ <;> rw [e]
    · exact .inl rfl
    · exact .inr ⟨_, putChunk_outputStored _ (by rw [memRead_length]; rfl)
        (by rwa [Nat.add_assoc] at fits)⟩
  | frameHdr =>
    cases hb
    rcases frameHdrBody_cases s with ⟨_, _, e⟩ | ⟨fits, e⟩ <;> rw [e]
    · exact .inl rfl
    · exact .inr ⟨_, putChunk_outputStored _ rfl fits⟩
  | frameEnd =>
    cases hb
    rcases frameEndBody_cases s with ⟨_, _, e⟩ | ⟨fits, e⟩ <;> rw [e]
    · exact .inl rfl
    · exact .inr ⟨_, putChunk_outputStored _ rfl fits⟩
  | emitSig =>
    cases hb
    rcases emitSigBody_cases s with ⟨_, _, e⟩ | ⟨fits, e⟩ <;> rw [e]
    · exact .inl rfl
    · exact .inr ⟨signature, rfl, fits, rfl⟩
  | parseAt => cases hb; exact .inl (parse false)
  | parseAtS => cases hb; exact .inl (parse true)
  | scan => cases hb; exact .inl (scanBody_frame s).buf
  | decode => cases hb; exact .inl (decodeBody_frame s).buf
  | crcFeed v => cases hb
  | crcLoad v => cases hb
  | statusAck v => cases hb

theorem commandBody_buf_within {i : Instr} {s : State} {b : Ended}
    (hb : commandBody i s = some b) (h : CellsWithin (bufSize s) s.buf) :
    CellsWithin (bufSize b.state) b.state.buf := by
  rw [bufSize_congr (commandBody_cfg hb)]
  rcases commandBody_buf hb with e | ⟨bs, out⟩
  · rw [e]
    exact h
  · rw [out.eq]
    exact h.memWrite (out.length ▸ out.fits)

/-- R173: `emit` stores below RES_DEPTH or drops the record. -/
theorem emitRecord_res_within (r : Rec) {s : State} (h : CellsWithin s.cfg.resDepth s.res) :
    CellsWithin (emitRecord r s).cfg.resDepth (emitRecord r s).res := by
  rw [emitRecord_eq]
  split
  · exact h.cellSet _ ‹_›
  · exact h

theorem recordSteps_res_within : RecordSteps (fun s => CellsWithin s.cfg.resDepth s.res) where
  made _ _ h := h
  emitted r _ h := emitRecord_res_within r h
  latched _ _ h := h
  terminal _ h := h

/-- R60, R47: a command keeps the form and the range of both memories. -/
theorem complete_storageInv {i : Instr} {s : State} {b : Ended} (hb : commandBody i s = some b)
    (h : StorageInv s) : StorageInv (complete b) := by
  rw [storageInv_iff] at h
  obtain ⟨hbuf, hres⟩ := h
  have buf := commandBody_buf_within hb hbuf
  have res := commandBody_keeps recordSteps_res_within (fun _ h => h) (fun _ _ h => h)
    (fun _ _ h => h) (fun _ _ h => h) hb hres
  rw [complete_eq]
  exact (storageInv_iff _).2 ⟨buf, res⟩

/-! ### Every other event -/

theorem storeReg_storageInv (v : Word) {s : State} (r : Reg) (h : StorageInv s) :
    StorageInv (storeReg v s r) := by
  rw [storeReg_eq]
  exact h

theorem cellSet_storageInv {s : State} {a : Nat} (b : Byte) (h : StorageInv s)
    (ha : a < bufSize s) : StorageInv (s.setBuf (cellSet s.buf a b)) := by
  rw [storageInv_iff] at h ⊢
  obtain ⟨hbuf, hres⟩ := h
  exact ⟨hbuf.cellSet b ha, hres⟩

/-- R85: the BUF range of a write set is empty or inside BUF. -/
theorem outRange_inside (i : Instr) (s : State) :
    outRange i s = 0 ∨ s.ops.dst.toNat + outRange i s ≤ bufSize s := by
  unfold outRange
  split
  · exact .inl rfl
  · rename_i h
    simp [writeSetEmpty] at h
    omega

theorem bufAfterReset_within {s : State} (h : CellsWithin (bufSize s) s.buf) :
    CellsWithin (bufSize s) (bufAfterReset s) := by
  unfold bufAfterReset
  split
  · exact h.memDraw _ (outRange_inside _ s)
  · exact h

theorem resAfterReset_within {s : State} (h : CellsWithin s.cfg.resDepth s.res) :
    CellsWithin s.cfg.resDepth (resAfterReset s) := by
  unfold resAfterReset
  split
  · split
    · exact drawnTable_cellsWithin _ _
    · exact h
  · exact h

/-- R233, R235: a reset keeps both memories but for draws inside them. -/
theorem resetEvent_storageInv {s : State} (h : StorageInv s) : StorageInv (resetEvent s) := by
  rw [storageInv_iff] at h
  obtain ⟨hbuf, hres⟩ := h
  have buf : CellsWithin (bufSize s) (resetEvent s).buf := bufAfterReset_within hbuf
  have res : CellsWithin s.cfg.resDepth (resetEvent s).res := resAfterReset_within hres
  exact (storageInv_iff _).2 ⟨buf, res⟩

/-- Settles O55: a command and a host write store inside BUF and RES, and a reset draws inside
them. -/
theorem everyStepKeepsStorageInv : Obligations.EveryStepKeepsStorageInv := fun _ _ hs hstep =>
  step_keeps (P := StorageInv)
    (own := fun _ _ _ _ h => h)
    (performed := fun _ _ _ _ _ h _ _ hb => complete_storageInv hb h)
    (dropped := fun _ h _ => h)
    (issued := fun _ _ _ h _ _ => h)
    (illegal := fun _ _ h _ => h)
    (acked := fun _ _ h _ => h)
    (crc := fun _ _ h => h)
    (stored := fun _ v r h => storeReg_storageInv v r h)
    (bufWritten := fun _ _ b h ha => cellSet_storageInv b h ha)
    (reset := fun _ h => resetEvent_storageInv h)
    hs hstep

end Sys2Proof.Proofs
end

section
/-! PROOF. The encoding (30_encoding.md R80 to R86): which words are commands, that decoding inverts
encoding, and that a port write which decodes to an operation is that operation. -/

namespace Sys2Proof.Proofs

open Sys2Proof.Machine Sys2Proof.Safety

/-! ### Command words -/

/-- R81, R82: the fields that decode to a command are those of the word it is encoded as. -/
theorem encode_of_decodeFields {op : BitVec 4} {strict : Bool} {i : Instr}
    (h : decodeFields op strict = .ok i) : encode i = ⟨regAddr 0x000, cmdWord op strict⟩ := by
  have table : ∀ (op : BitVec 4) (strict : Bool), ∀ i ∈ (decodeFields op strict).toOption,
      encode i = ⟨regAddr 0x000, cmdWord op strict⟩ := by decide
  exact table op strict i (by rw [h]; rfl)

/-- R80, R81: the fields that decode to some command. -/
theorem decodeFields_ok_iff (op : BitVec 4) (strict : Bool) :
    (∃ i, decodeFields op strict = .ok i) ↔
      1 ≤ op.toNat ∧ op.toNat ≤ 8 ∧ (strict = false ∨ op.toNat = 6) := by
  have table : ∀ (op : BitVec 4) (strict : Bool), (decodeFields op strict).isOk = true ↔
      1 ≤ op.toNat ∧ op.toNat ≤ 8 ∧ (strict = false ∨ op.toNat = 6) := by decide
  rw [← table op strict]
  cases decodeFields op strict with
  | ok i => exact ⟨fun _ => rfl, fun _ => ⟨i, rfl⟩⟩
  | error e => exact ⟨nofun, nofun⟩

/-- R82: a word is a command's exactly when it is the word the command is encoded as. -/
theorem decodeCommand_ok_iff {v : Word} {i : Instr} :
    decodeCommand v = .ok i ↔ isCommand i = true ∧ encode i = ⟨regAddr 0x000, v⟩ := by
  constructor
  · intro h
    obtain ⟨fields, word⟩ := decodeCommand_ok h
    exact ⟨decodeFields_isCommand fields, word ▸ encode_of_decodeFields fields⟩
  · rintro ⟨command, word⟩
    have data : decodeCommand (encode i).data = .ok i := by
      cases i with
      | crcFeed v => cases command
      | crcLoad v => cases command
      | statusAck v => cases command
      | _ => rfl
    rwa [word] at data

/-- Settles O1: the nine encodings are the nine words, and a word with no reserved bit decodes as
its fields do. -/
theorem legalCommandWordsAreTheNine : Obligations.LegalCommandWordsAreTheNine := by
  refine ⟨fun v i => ?_, fun v => ?_⟩
  · rw [decodeCommand_ok_iff]
    cases i <;> simp [isCommand, encode, eq_comm]
  · rw [← decodeFields_ok_iff]
    unfold decodeCommand
    split
    · rename_i reserved
      exact ⟨nofun, fun h => absurd h.1 reserved⟩
    · rename_i reserved
      exact ⟨fun h => ⟨not_not.1 reserved, h⟩, fun h => h.2⟩

/-! ### Port writes -/

/-- R80, R86: a port write that decodes to an instruction is the instruction's encoding. -/
theorem encode_of_decode {w : PortWrite} {i : Instr} (h : decode w = .ok i) : encode i = w := by
  obtain ⟨addr, data⟩ := w
  unfold decode at h
  dsimp only at h
  split at h
  next cmd => rw [cmd]; exact (decodeCommand_ok_iff.1 h).2
  split at h
  next status => cases h; rw [status]; rfl
  split at h
  next crcAcc => cases h; rw [crcAcc]; rfl
  split at h
  next crcData => cases h; rw [crcData]; rfl
  cases h

/-- R80, R86: an instruction's encoding decodes to it, whatever its operand word. -/
theorem decode_encode (i : Instr) : decode (encode i) = .ok i := by
  cases i <;> rfl

/-- Settles O2: every instruction is well formed, so both directions hold of all. -/
theorem decodeAndEncodeAreInverse : Obligations.DecodeAndEncodeAreInverse :=
  ⟨fun i _ => decode_encode i, fun _ i h => ⟨by cases i <;> rfl, encode_of_decode h⟩⟩

/-- Settles O3, by running the decoder on each word. -/
theorem writtenWordsDecode : Obligations.WrittenWordsDecode :=
  ⟨rfl, rfl, rfl, rfl, rfl, rfl, rfl, rfl, rfl⟩

/-! ### Register-port operations -/

/-- R237: while BUSY = 1 an operation's write is dropped. -/
theorem exec_operation_busy {i : Instr} {s : State} (hi : isCommand i = false)
    (hb : s.status.busy = true) : exec i s = .next (dropWrite s) := by
  cases i with
  | crcFeed v => simp [exec, execCrcFeed, hb]
  | crcLoad v => simp [exec, execCrcLoad, hb]
  | statusAck v => exact exec_statusAck_busy v hb
  | _ => cases hi

/-- R86: the write an operation is encoded as is that operation, while busy and while idle. -/
theorem hostRegWrite_operation {i : Instr} (hi : isCommand i = false) (s : State) :
    hostRegWrite (encode i).addr (encode i).data s = exec i s := by
  unfold hostRegWrite
  split
  next busy => exact (exec_operation_busy hi busy).symm
  have low := (registersStandAtTheirOffsets s.cfg).1
  cases i with
  | crcFeed v => rw [show locate s.cfg (encode (.crcFeed v)).addr = .named .crcData from
      low (0x03C, .crcData) (by decide)]; rfl
  | crcLoad v => rw [show locate s.cfg (encode (.crcLoad v)).addr = .named .crcAcc from
      low (0x038, .crcAcc) (by decide)]; rfl
  | statusAck v => rw [show locate s.cfg (encode (.statusAck v)).addr = .named .status from
      low (0x004, .status) (by decide)]; rfl
  | _ => cases hi

/-- Settles O5: the write is the operation's encoding. -/
theorem operationWriteRunsItsInstr : Obligations.OperationWriteRunsItsInstr := by
  intro s wa v rest i hin hd hi
  have write := hostRegWrite_operation hi (s.setInputs rest)
  rw [encode_of_decode hd] at write
  rw [step, hin]
  exact write

end Sys2Proof.Proofs
end

section
/-! PROOF. What a command leaves alone (30_encoding.md R85): its four kinds of effect, told apart
once, and for each of them the registers and bytes outside the write set. -/

namespace Sys2Proof.Proofs

open Sys2Proof.Machine Sys2Proof.Safety

/-! ### The registers an update leaves alone -/

section
variable (s : State) {r : Reg}

theorem regValue_setChunk_other (c : ChunkRegs) (h : r.isChunk = false) :
    regValue (s.setChunk c) r = regValue s r := by
  cases r <;> simp [Reg.isChunk] at h <;> rfl

/-- R124: EMIT_SIG's report is R_END. -/
theorem regValue_setEndAddr_other (v : Word) (h : r ≠ .rEnd) :
    regValue (s.setChunk { s.chunk with endAddr := v }) r = regValue s r := by
  cases r <;> trivial

/-- R41: CRC_RESULT is a function of CRC_ACC. -/
theorem regValue_setCrcAcc_other (v : Word) (h : r ≠ .crcAcc) (h' : r ≠ .crcResult) :
    regValue (s.setCrcAcc v) r = regValue s r := by
  cases r <;> trivial

theorem regValue_setBuf (m : Memory) (r : Reg) : regValue (s.setBuf m) r = regValue s r := by
  cases r <;> rfl

/-- R204: of the registers a completion changes STATUS only. -/
theorem regValue_complete (b : Ended) (h : r ≠ .status) :
    regValue (complete b) r = regValue b.state r := by
  rw [complete_eq]
  cases r <;> trivial

/-- R170 to R174: SCAN and DECODE change STATUS, the scan results and the chunk registers. -/
theorem regValue_of_recordFrame {u : State} (h : RecordFrame s u) (status : r ≠ .status)
    (scan : r.isScan = false) (chunk : r.isChunk = false ∨ u.chunk = s.chunk) :
    regValue u r = regValue s r := by
  rcases chunk with chunk | chunk <;> rw [h.rest]
  · cases r <;> simp [Reg.isScan, Reg.isChunk] at status scan chunk <;> rfl
  · rw [chunk]
    cases r <;> simp [Reg.isScan] at status scan <;> rfl

end

/-! ### What a command does -/

/-- Everything the pseudocode of the command `i` can do to the state (R85). -/
inductive CommandCase (i : Instr) (s u : State) : Prop where
  /-- A raise before the first write. -/
  | raised (eq : u = s)
  /-- CRC_RANGE (R103). -/
  | integrated (v : Word) (instr : i = .crcRange) (eq : u = s.setCrcAcc v)
  /-- A framer's output and report, or PARSE_AT's report. -/
  | reported (m : Memory) (c : ChunkRegs) (fits : writeSetEmpty i s = false)
      (regs : ∀ r, regInWrites i r = false → regValue (s.setChunk c) r = regValue s r)
      (eq : u = (s.setBuf m).setChunk c)
  /-- SCAN or DECODE; SCAN leaves R_TYPE .. R_END alone (R42). -/
  | recorded (instr : i = .scan ∧ u.chunk = s.chunk ∨ i = .decode) (frame : RecordFrame s u)

/-- R85: an output range inside BUF is in the write set. -/
theorem writeSetEmpty_of_fits {i : Instr} {s : State}
    (h : s.ops.dst.toNat + outLength i s ≤ bufSize s) : writeSetEmpty i s = false := by
  simp only [writeSetEmpty, Bool.and_eq_false_iff, decide_eq_false_iff_not]
  omega

/-- R42: SCAN reports nothing in R_TYPE .. R_END. -/
theorem scanBody_chunk (s : State) : (scanBody s).state.chunk = s.chunk := by
  unfold scanBody
  dsimp only
  split
  · rfl
  · exact scanLoop_chunk _ _ _

/-- R85: a report in R_TYPE .. R_END is in the write set of every framer and parser command but
EMIT_SIG. -/
theorem CommandCase.report {i : Instr} {s : State} (m : Memory) (c : ChunkRegs)
    (fits : writeSetEmpty i s = false) (regs : ∀ r, regInWrites i r = r.isChunk) :
    CommandCase i s ((s.setBuf m).setChunk c) :=
  .reported m c fits (fun r h => regValue_setChunk_other s c (regs r ▸ h)) rfl

theorem commandBody_cases {i : Instr} {s : State} {b : Ended} (hb : commandBody i s = some b) :
    CommandCase i s b.state := by
  have parse : ∀ strict, (∀ r, regInWrites i r = r.isChunk) → writeSetEmpty i s = false →
      CommandCase i s (parseAtBody strict s).state := by
    intro strict regs fits
    rcases parseAtBody_cases strict s with ⟨_, _, _, e⟩ | ⟨_, _, e⟩ | ⟨_, e⟩ <;> rw [e]
    · exact .raised rfl
    · exact .report s.buf (examinedChunk s) fits regs
    · exact .report s.buf (examinedChunk s) fits regs
  cases i with
  | crcRange =>
    cases hb
    rcases crcRangeBody_cases s with e | ⟨_, e⟩ <;> rw [e]
    · exact .raised rfl
    · exact .integrated _ rfl rfl
  | frame =>
    cases hb
    rcases frameBody_cases s with ⟨_, _, e⟩ | ⟨_, fits, e⟩ <;> rw [e]
    · exact .raised rfl
    · rw [Nat.add_assoc] at fits
      exact .report _ _ (writeSetEmpty_of_fits fits) fun _ => rfl
  | frameHdr =>
    cases hb
    rcases frameHdrBody_cases s with ⟨_, _, e⟩ | ⟨fits, e⟩ <;> rw [e]
    · exact .raised rfl
    · exact .report _ _ (writeSetEmpty_of_fits fits) fun _ => rfl
  | frameEnd =>
    cases hb
    rcases frameEndBody_cases s with ⟨_, _, e⟩ | ⟨fits, e⟩ <;> rw [e]
    · exact .raised rfl
    · exact .report _ _ (writeSetEmpty_of_fits fits) fun _ => rfl
  | emitSig =>
    cases hb
    rcases emitSigBody_cases s with ⟨_, _, e⟩ | ⟨fits, e⟩ <;> rw [e]
    · exact .raised rfl
    · exact .reported (memWrite s.buf s.ops.dst.toNat signature) _ (writeSetEmpty_of_fits fits)
        (fun _ h => regValue_setEndAddr_other s _ (of_decide_eq_false h)) rfl
  | parseAt => cases hb; exact parse false (fun _ => rfl) rfl
  | parseAtS => cases hb; exact parse true (fun _ => rfl) rfl
  | scan => cases hb; exact .recorded (.inl ⟨rfl, scanBody_chunk s⟩) (scanBody_frame s)
  | decode => cases hb; exact .recorded (.inr rfl) (decodeBody_frame s)
  | crcFeed v => cases hb
  | crcLoad v => cases hb
  | statusAck v => cases hb

/-! ### What a command leaves alone -/

section
variable {i : Instr} {s : State} {b : Ended} (hb : commandBody i s = some b)
include hb

/-- R85: the registers outside a command's write set. -/
theorem commandBody_regs {r : Reg} (status : r ≠ .status)
    (out : locInWriteSet i s (.named r) = false) : regValue b.state r = regValue s r := by
  cases commandBody_cases hb with
  | raised eq => rw [eq]
  | integrated v instr eq =>
    subst instr
    obtain ⟨acc, result⟩ : r ≠ .crcAcc ∧ r ≠ .crcResult := by
      simpa [locInWriteSet, regInWrites, writeSetEmpty, outLength] using out
    rw [eq, regValue_setCrcAcc_other s v acc result]
  | reported m c fits regs eq =>
    have notWritten : regInWrites i r = false := by simpa [locInWriteSet, fits] using out
    rw [eq, ← regs r notWritten]
    exact regValue_setBuf (s.setChunk c) m r
  | recorded instr frame =>
    rcases instr with ⟨rfl, chunk⟩ | rfl
    · have scan : r.isScan = false := by
        simpa [locInWriteSet, regInWrites, writeSetEmpty, outLength] using out
      exact regValue_of_recordFrame s frame status scan (.inr chunk)
    · obtain ⟨scan, chunk⟩ : r.isScan = false ∧ r.isChunk = false := by
        simpa [locInWriteSet, regInWrites, writeSetEmpty, outLength] using out
      exact regValue_of_recordFrame s frame status scan (.inl chunk)

/-- R85: the bytes outside a command's write set. -/
theorem commandBody_bytes {a : Nat} (out : byteInWriteSet i s a = false) :
    bufByte b.state.buf a = bufByte s.buf a := by
  rcases commandBody_buf hb with same | ⟨bs, stored⟩
  · rw [same]
  · have range : outRange i s = bs.length := by
      rw [outRange, writeSetEmpty_of_fits stored.fits, stored.length]; rfl
    rw [byteInWriteSet, range, Bool.and_eq_false_iff] at out
    simp only [decide_eq_false_iff_not] at out
    rw [stored.eq, bufByte_memWrite_outside _ _ _ (by omega)]

/-- R85: a command other than SCAN and DECODE leaves RES and STATUS alone until its completion. -/
theorem commandBody_scanResults (scan : i ≠ .scan) (decode : i ≠ .decode) :
    b.state.res = s.res ∧ b.state.status = s.status := by
  cases commandBody_cases hb with
  | raised eq => rw [eq]; exact ⟨rfl, rfl⟩
  | integrated v instr eq => rw [eq]; exact ⟨rfl, rfl⟩
  | reported m c fits regs eq => rw [eq]; exact ⟨rfl, rfl⟩
  | recorded instr frame =>
    rcases instr with ⟨instr, -⟩ | instr
    · exact absurd instr scan
    · exact absurd instr decode

/-- R108, R154: the parameters, the model's own fields and VIOL are in no write set. -/
theorem commandBody_own :
    b.state.cfg = s.cfg ∧ b.state.inputs = s.inputs ∧ b.state.reads = s.reads ∧
      b.state.draws = s.draws ∧ b.state.status.viol = s.status.viol := by
  rw [commandBody_frame hb]
  exact ⟨rfl, rfl, rfl, rfl, rfl⟩

end

/-- R204: a completion leaves the scan flags and VIOL alone. -/
theorem complete_flags (b : Ended) :
    (complete b).status.hdrFound = b.state.status.hdrFound ∧
      (complete b).status.termFound = b.state.status.termFound ∧
      (complete b).status.resOvf = b.state.status.resOvf ∧
      (complete b).status.viol = b.state.status.viol := by
  cases b <;> exact ⟨rfl, rfl, rfl, rfl⟩

/-- R204: a completion changes STATUS and the engine only. -/
theorem complete_own (b : Ended) :
    (complete b).buf = b.state.buf ∧ (complete b).res = b.state.res ∧
      (complete b).cfg = b.state.cfg ∧ (complete b).inputs = b.state.inputs ∧
      (complete b).reads = b.state.reads ∧ (complete b).draws = b.state.draws := by
  rw [complete_eq]
  exact ⟨rfl, rfl, rfl, rfl, rfl, rfl⟩

/-- Settles O16: the pseudocode leaves all of it alone, and so does the completion. -/
theorem commandsChangeOnlyTheirWriteSet : Obligations.CommandsChangeOnlyTheirWriteSet := by
  intro i s hi
  obtain ⟨b, hb⟩ := commandBody_isSome hi s
  obtain ⟨cfg, inputs, reads, draws, viol⟩ := commandBody_own hb
  obtain ⟨hdrFound, termFound, resOvf, viol'⟩ := complete_flags b
  obtain ⟨buf', res', cfg', inputs', reads', draws'⟩ := complete_own b
  refine ⟨complete b, exec_command hb, fun a out => ?_, fun r status out => ?_,
    fun scan decode => ?_, cfg'.trans cfg, inputs'.trans inputs, reads'.trans reads,
    draws'.trans draws, viol'.trans viol⟩
  · rw [buf', commandBody_bytes hb out]
  · rw [regValue_complete b status, commandBody_regs hb status out]
  · obtain ⟨res, flags⟩ := commandBody_scanResults hb scan decode
    rw [res', hdrFound, termFound, resOvf, flags]
    exact ⟨res, rfl, rfl, rfl⟩

end Sys2Proof.Proofs
end

section
/-! PROOF. WAIT ends (30_encoding.md R89): a poll reads BUSY = 1 while the command is pending, and
BUSY = 0 once the engine's turn has performed it. -/

namespace Sys2Proof.Proofs

open Sys2Proof.Machine Sys2Proof.Safety

/-! ### One poll of STATUS -/

/-- R238: STATUS is in no command's write set. -/
theorem status_not_inWriteSet (i : Instr) (s : State) :
    locInWriteSet i s (.named .status) = false := by
  have writes : regInWrites i .status = false := by cases i <;> rfl
  simp [locInWriteSet, writes]

/-- R238: a draw for the scan flags leaves BUSY as stored. -/
theorem statusWithDraw_busy (st : Status) (d : Word) :
    (statusWithDraw st d).getLsbD 0 = st.busy := by
  obtain ⟨busy, -⟩ := statusWord_bits st
  rw [statusWithDraw, BitVec.getLsbD_or, BitVec.getLsbD_and, BitVec.getLsbD_and, busy]
  simp

theorem locate_regAddr_status (p : Params) : locate p (regAddr 0x004) = .named .status :=
  (registersStandAtTheirOffsets p).1 (0x004, .status) (by decide)

/-- R89: while a command is pending a poll reads BUSY = 1. -/
theorem poll_pending {s : State} {i : Instr} (hb : s.status.busy = true)
    (hp : pendingInstr s = some i) : (regReadValue (regAddr 0x004) s).getLsbD 0 = true := by
  rw [regReadValue_pending hb hp, locate_regAddr_status, status_not_inWriteSet, if_neg nofun]
  split
  · rw [statusWithDraw_busy, hb]
  · exact (statusWord_bits s.status).1.trans hb

/-- R89: with BUSY = 0 a poll reads BUSY = 0. -/
theorem poll_idle {s : State} (hb : s.status.busy = false) :
    (regReadValue (regAddr 0x004) s).getLsbD 0 = false := by
  rw [regReadValue_idle hb, locate_regAddr_status]
  exact (statusWord_bits s.status).1.trans hb

/-! ### The polls before the engine's turn -/

/-- R89: `k` polls of a pending command all read BUSY = 1, and change the model's own fields
only. -/
theorem run_pending_polls {s : State} {i : Instr} {k : Nat} {post : List Event}
    (hb : s.status.busy = true) (hp : pendingInstr s = some i)
    (hin : s.inputs = List.replicate k (hostR 0x004) ++ post) :
    ∃ ws : List PortRead, Host.Core.run core k s = .next
        { s with inputs := post, reads := ws ++ s.reads, draws := s.draws + k } ∧
      ws.length = k ∧ ∀ x ∈ ws, ∃ v, x = .reg v ∧ v.getLsbD 0 = true := by
  induction k generalizing s with
  | zero => exact ⟨[], by rw [show post = s.inputs from hin.symm]; rfl, rfl, nofun⟩
  | succ k ih =>
    have poll := step_regRead (rest := List.replicate k (hostR 0x004) ++ post) hin
    have busy := poll_pending
      (s := s.setInputs (List.replicate k (hostR 0x004) ++ post)) hb hp
    generalize regReadValue _ _ = v at poll busy
    obtain ⟨ws, run, length, polls⟩ := ih (s := { s with
      inputs := List.replicate k (hostR 0x004) ++ post
      reads := .reg v :: s.reads, draws := s.draws + 1 }) hb hp rfl
    refine ⟨ws ++ [.reg v], ?_, by simp [length], fun x hx => ?_⟩
    · refine ((run_succ (M := core) k poll).trans run).trans ?_
      simp [Nat.add_assoc, Nat.add_comm 1 k]
    · rcases List.mem_append.1 hx with hx | hx
      · exact polls x hx
      · exact ⟨v, List.mem_singleton.1 hx, busy⟩

/-! ### The engine's turn -/

/-- R21, R73: the engine's turn returns nothing to the host. -/
theorem engineStep_reads {s t : State} (h : engineStep s = .next t) : t.reads = s.reads := by
  cases engineStep_cases h with
  | idle _ eq => rw [eq]
  | performed op strict i b _ _ body eq =>
    obtain ⟨-, -, body, -⟩ := commandBody_own body
    obtain ⟨-, -, -, -, completed, -⟩ := complete_own b
    rw [eq, completed, body]

/-- R21, R89: the engine's turn performs a pending command, and the poll after it reads BUSY = 0. -/
theorem run_turn_and_poll {s : State} {op : BitVec 4} {strict : Bool} {i : Instr}
    (he : s.engine = .pending op strict) (hd : decodeFields op strict = .ok i)
    (hin : s.inputs = [.engineTurn, hostR 0x004]) :
    ∃ (t : State) (w : Word), Host.Core.run core 2 s = .next t ∧ t.reads = .reg w :: s.reads ∧
      w.getLsbD 0 = false := by
  obtain ⟨u, performed, inputs, -, busy, -⟩ :=
    engineStep_completes (s := s.setInputs [hostR 0x004]) he hd
  have turn : step s = .next u := (step_engineTurn hin).trans performed
  have poll := step_regRead (rest := []) inputs
  exact ⟨_, regReadValue (regAddr 0x004) (u.setInputs []),
    (run_succ (M := core) 1 turn).trans (run_succ (M := core) 0 poll),
    congrArg (PortRead.reg _ :: ·) (engineStep_reads (s := s.setInputs [hostR 0x004]) performed),
    poll_idle (s := u.setInputs []) busy⟩

/-- Settles O60: `k` polls while the command is pending, its performance, and a poll after it. -/
theorem waitReadsBusyZero : Obligations.WaitReadsBusyZero := by
  intro s k h hb hin
  cases he : s.engine with
  | idle => simp [EngineInv, he, hb] at h
  | pending op strict =>
    obtain ⟨-, i, hd⟩ := engineInv_pending h he
    obtain ⟨ws, polled, length, polls⟩ := run_pending_polls hb (pendingInstr_eq he hd) hin
    obtain ⟨t, w, last, reads, idle⟩ := run_turn_and_poll (s := { s with
      inputs := [.engineTurn, hostR 0x004], reads := ws ++ s.reads, draws := s.draws + k })
      he hd rfl
    exact ⟨t, w, ws, (run_add (M := core) 2 polled).trans last, reads, length, idle, polls⟩

end Sys2Proof.Proofs
end

section
/-! PROOF. The integrator (40_crc.md R102 to R107): CRC_RANGE folds its range, CRC_FEED one byte,
and a sequence may be fed byte by byte or in pieces. -/

namespace Sys2Proof.Proofs

open Sys2Proof.Machine Sys2Proof.Safety

/-- Settles O24, by running R100's definition on the bytes of each row. -/
theorem crcCheckValues : Obligations.CrcCheckValues := by
  simp [Obligations.CrcCheckValues, crc32, crcStep, crcBits, crcBit, crcPoly]

/-! ### CRC_RANGE -/

/-- R103: the range lies in BUF. -/
theorem exec_crcRange_inside {s : State}
    (h : s.ops.src.toNat + s.ops.len.toNat ≤ bufSize s) :
    exec .crcRange s = .next (complete (.finished false
      (s.setCrcAcc (crcFold s.crcAcc (memRead s.buf s.ops.src.toNat s.ops.len.toNat))))) := by
  rw [exec_command (i := .crcRange) rfl, crcRangeBody, if_neg (Nat.not_lt.2 h)]

/-- R103: the range passes BUF_SIZE. -/
theorem exec_crcRange_past {s : State} (h : bufSize s < s.ops.src.toNat + s.ops.len.toNat) :
    exec .crcRange s = .next (complete (.raised .addressRange s)) := by
  rw [exec_command (i := .crcRange) rfl, crcRangeBody, if_pos h]

/-- Settles O25: the two cases of the range check, completed. -/
theorem crcRangeIntegratesTheRange : Obligations.CrcRangeIntegratesTheRange :=
  fun _ => ⟨rfl, exec_crcRange_inside, exec_crcRange_past⟩

/-! ### CRC_FEED and CRC_LOAD -/

theorem exec_crcFeed_idle {s : State} (v : Word) (hb : s.status.busy = false) :
    exec (.crcFeed v) s = .next (s.setCrcAcc (crcStep s.crcAcc (wordByte v 0))) := by
  simp [exec, execCrcFeed, hb]

theorem exec_crcLoad_idle {s : State} (v : Word) (hb : s.status.busy = false) :
    exec (.crcLoad v) s = .next (s.setCrcAcc v) := by
  simp [exec, execCrcLoad, hb]

/-- Settles O26, by the two forms of each write: taken while idle, dropped while busy. -/
theorem crcFeedAndCrcLoad : Obligations.CrcFeedAndCrcLoad :=
  fun _ v => ⟨rfl, rfl, fun idle => ⟨exec_crcFeed_idle v idle, exec_crcLoad_idle v idle⟩,
    fun busy => ⟨exec_operation_busy rfl busy, exec_operation_busy rfl busy⟩⟩

/-! ### The laws of the integrator -/

/-- R86, R89: a register-port operation as the next event. -/
theorem step_operation {s : State} {i : Instr} {rest : List Event} (hi : isCommand i = false)
    (hin : s.inputs = hostCmd i :: rest) : step s = exec i (s.setInputs rest) := by
  rw [step, hin]
  exact hostRegWrite_operation hi (s.setInputs rest)

/-- R107: one CRC_FEED per byte folds the bytes into CRC_ACC. -/
theorem run_feeds {s : State} {bs : List Byte} (hb : s.status.busy = false)
    (hin : s.inputs = bs.map fun b => hostCmd (.crcFeed (b.setWidth 32))) :
    Host.Core.run core bs.length s
      = .next { s with inputs := [], crcAcc := crcFold s.crcAcc bs } := by
  induction bs generalizing s with
  | nil => rw [crcFold_nil, ← show s.inputs = [] from hin]; rfl
  | cons b bs ih =>
    have feed := (step_operation rfl hin).trans (exec_crcFeed_idle _ hb)
    rw [wordByte_zero_setWidth] at feed
    exact (run_succ (M := core) bs.length feed).trans (ih hb rfl)

/-- R106, R107: CRC_INIT and one CRC_FEED per byte. -/
theorem run_init_and_feeds {s : State} {bs : List Byte} (hb : s.status.busy = false)
    (hin : s.inputs
      = hostCrcInit :: bs.map fun b => hostCmd (.crcFeed (b.setWidth 32))) :
    Host.Core.run core (bs.length + 1) s
      = .next { s with inputs := [], crcAcc := crcFold 0xFFFFFFFF bs } := by
  have load := (step_operation rfl hin).trans (exec_crcLoad_idle _ hb)
  exact (run_succ (M := core) bs.length load).trans (run_feeds hb rfl)

/-- R103, R106: CRC_RANGE over `n` bytes from `src`. -/
theorem exec_crcRange_of_ops (s : State) {src n : Word}
    (h : src.toNat + n.toNat ≤ bufSize s) :
    ∃ t, exec .crcRange (s.setOps { s.ops with src := src, len := n }) = .next t ∧
      t.status.err = false ∧ t.cfg = s.cfg ∧ t.buf = s.buf ∧
      t.crcAcc = crcFold s.crcAcc (memRead s.buf src.toNat n.toNat) :=
  ⟨_, exec_crcRange_inside (s := s.setOps { s.ops with src := src, len := n }) h,
    rfl, rfl, rfl, rfl⟩

/-- Settles O27: feeding is a run of folds, and the fold of two pieces is that of the whole. -/
theorem crcIntegratorLaws : Obligations.CrcIntegratorLaws := by
  refine ⟨fun s bs hb => ⟨run_init_and_feeds hb rfl, rfl⟩, ?_⟩
  intro s src n k fits small
  have srcAdd : (src + n).toNat = src.toNat + n.toNat := by
    rw [BitVec.toNat_add_of_lt (by omega)]
  have lenAdd : (n + k).toNat = n.toNat + k.toNat := by
    rw [BitVec.toNat_add_of_lt (by omega)]
  obtain ⟨t, first, tOk, cfg, buf, tAcc⟩ := exec_crcRange_of_ops s (src := src) (n := n) (by omega)
  obtain ⟨u, second, uOk, -, -, uAcc⟩ := exec_crcRange_of_ops t (src := src + n) (n := k)
    (by rw [bufSize_congr cfg]; omega)
  obtain ⟨v, whole, vOk, -, -, vAcc⟩ := exec_crcRange_of_ops s (src := src) (n := n + k) (by omega)
  refine ⟨t, u, v, first, second, whole, tOk, uOk, vOk, ?_⟩
  rw [uAcc, tAcc, vAcc, buf, srcAdd, lenAdd, memRead_append, crcFold_append]

end Sys2Proof.Proofs
end

section
/-! PROOF. CRC_ACC is separate (40_crc.md R108): exchanging it commutes with the pseudocode of every
command but CRC_RANGE, and of what one step can do only four things change it. -/

namespace Sys2Proof.Proofs

open Sys2Proof.Machine Sys2Proof.Safety

/-! ### Exchanging CRC_ACC -/

/-- The end of a command's pseudocode with another CRC_ACC. -/
def endedSetCrcAcc (x : Word) : Ended → Ended
  | .finished v s => .finished v (s.setCrcAcc x)
  | .raised e s => .raised e (s.setCrcAcc x)

/-- The answer of a step of DECODE with another CRC_ACC; `f` exchanges it in the result. -/
def answerSetCrcAcc {α : Type} (x : Word) (f : α → α) :
    Except (CmdError × State) α → Except (CmdError × State) α
  | .ok a => .ok (f a)
  | .error e => .error (e.1, e.2.setCrcAcc x)

theorem complete_setCrcAcc (b : Ended) (x : Word) :
    complete (endedSetCrcAcc x b) = (complete b).setCrcAcc x := by
  cases b <;> rfl

section
variable (s : State) (x : Word)

theorem bufSize_setCrcAcc : bufSize (s.setCrcAcc x) = bufSize s := bufSize_congr rfl

theorem windowOk_setCrcAcc : windowOk (s.setCrcAcc x) = windowOk s := windowOk_congr rfl rfl

theorem putChunk_setCrcAcc (a : Nat) (tag : Word) (d : List Byte) :
    putChunk a tag d (s.setCrcAcc x) = (putChunk a tag d s).setCrcAcc x := rfl

theorem setChunk_setCrcAcc (c : ChunkRegs) :
    (s.setCrcAcc x).setChunk c = (s.setChunk c).setCrcAcc x := rfl

theorem clearResults_setCrcAcc :
    clearResults (s.setCrcAcc x) = (clearResults s).setCrcAcc x := rfl

theorem countMade_setCrcAcc (k : Kind) :
    countMade k (s.setCrcAcc x) = (countMade k s).setCrcAcc x := rfl

theorem latchHeader_setCrcAcc (a : Nat) :
    latchHeader a (s.setCrcAcc x) = (latchHeader a s).setCrcAcc x := rfl

theorem emitRecord_setCrcAcc (r : Rec) :
    emitRecord r (s.setCrcAcc x) = (emitRecord r s).setCrcAcc x := by
  rw [emitRecord_eq, emitRecord_eq, State.setCrcAcc_counts, State.setCrcAcc_cfg]
  split <;> rfl

/-! ### The framer and PARSE_AT -/

theorem frameBody_setCrcAcc :
    frameBody (s.setCrcAcc x) = endedSetCrcAcc x (frameBody s) := by
  unfold frameBody
  dsimp only
  rw [State.setCrcAcc_ops, State.setCrcAcc_buf, bufSize_setCrcAcc, putChunk_setCrcAcc]
  split_ifs <;> rfl

theorem frameHdrBody_setCrcAcc :
    frameHdrBody (s.setCrcAcc x) = endedSetCrcAcc x (frameHdrBody s) := by
  simp only [frameHdrBody, State.setCrcAcc_ops, bufSize_setCrcAcc, putChunk_setCrcAcc]
  split_ifs <;> rfl

theorem frameEndBody_setCrcAcc :
    frameEndBody (s.setCrcAcc x) = endedSetCrcAcc x (frameEndBody s) := by
  simp only [frameEndBody, State.setCrcAcc_ops, bufSize_setCrcAcc, putChunk_setCrcAcc]
  split_ifs <;> rfl

theorem emitSigBody_setCrcAcc :
    emitSigBody (s.setCrcAcc x) = endedSetCrcAcc x (emitSigBody s) := by
  simp only [emitSigBody, State.setCrcAcc_ops, State.setCrcAcc_buf, bufSize_setCrcAcc]
  split_ifs <;> rfl

theorem parseAtBody_setCrcAcc (strict : Bool) :
    parseAtBody strict (s.setCrcAcc x) = endedSetCrcAcc x (parseAtBody strict s) := by
  unfold parseAtBody
  dsimp only
  rw [State.setCrcAcc_ops, State.setCrcAcc_buf, windowOk_setCrcAcc, setChunk_setCrcAcc]
  split_ifs <;> rfl

/-! ### SCAN -/

theorem scanHeaderLatch_setCrcAcc (r : Rec) :
    scanHeaderLatch r (s.setCrcAcc x) = (scanHeaderLatch r s).setCrcAcc x := by
  unfold scanHeaderLatch
  rw [State.setCrcAcc_status]
  split <;> rfl

theorem scanTerminal_setCrcAcc (r : Rec) :
    scanTerminal r (s.setCrcAcc x) = (scanTerminal r s).setCrcAcc x := by
  unfold scanTerminal
  split <;> rfl

theorem scanCommit_setCrcAcc (r : Rec) :
    scanCommit r (s.setCrcAcc x) = (scanCommit r s).setCrcAcc x := by
  simp only [scanCommit, countMade_setCrcAcc, scanHeaderLatch_setCrcAcc, scanTerminal_setCrcAcc,
    emitRecord_setCrcAcc]

/-- R175: the record of a match does not depend on CRC_ACC. -/
theorem scanRecord_setCrcAcc (tag : List Byte) (p : Nat) :
    scanRecord (s.setCrcAcc x) tag p = scanRecord s tag p := rfl

/-- R171: SCAN's loop, match by match. -/
theorem scanLoop_setCrcAcc (n p : Nat) :
    scanLoop n p (s.setCrcAcc x) = (scanLoop n p s).setCrcAcc x := by
  induction n generalizing p s with
  | zero => rfl
  | succ n ih =>
    simp only [scanLoop, State.setCrcAcc_ops, State.setCrcAcc_buf, scanRecord_setCrcAcc,
      scanCommit_setCrcAcc, ih]
    split_ifs <;> rfl

theorem scanBody_setCrcAcc :
    scanBody (s.setCrcAcc x) = endedSetCrcAcc x (scanBody s) := by
  simp only [scanBody, State.setCrcAcc_ops, windowOk_setCrcAcc, clearResults_setCrcAcc,
    scanLoop_setCrcAcc]
  split <;> rfl

/-! ### DECODE -/

theorem checkSignature_setCrcAcc : checkSignature (s.setCrcAcc x) = checkSignature s := rfl

theorem headerAccepted_setCrcAcc (r : Rec) :
    headerAccepted r (s.setCrcAcc x) = headerAccepted r s := rfl

theorem readChunk_setCrcAcc (p : Nat) :
    readChunk p (s.setCrcAcc x)
      = answerSetCrcAcc x (Prod.map id (·.setCrcAcc x)) (readChunk p s) := by
  simp only [readChunk, State.setCrcAcc_ops, State.setCrcAcc_buf, State.setCrcAcc_counts,
    countMade_setCrcAcc, setChunk_setCrcAcc, emitRecord_setCrcAcc]
  split_ifs <;> rfl

theorem headerStep_setCrcAcc (r : Rec) :
    headerStep r (s.setCrcAcc x) = answerSetCrcAcc x (·.setCrcAcc x) (headerStep r s) := by
  simp only [headerStep, headerAccepted_setCrcAcc, latchHeader_setCrcAcc, emitRecord_setCrcAcc]
  split <;> rfl

theorem structureStep_setCrcAcc (ph : Phase) (r : Rec) :
    structureStep ph r (s.setCrcAcc x)
      = answerSetCrcAcc x (Prod.map id (·.setCrcAcc x)) (structureStep ph r s) := by
  cases ph with
  | expectHdr =>
    simp only [structureStep, headerStep_setCrcAcc, emitRecord_setCrcAcc]
    split
    · cases headerStep r s <;> rfl
    · rfl
  | expectData =>
    simp only [structureStep, emitRecord_setCrcAcc]
    split <;> rfl
  | inData =>
    simp only [structureStep, emitRecord_setCrcAcc]
    split <;> rfl

/-- R180: DECODE's loop, chunk by chunk. -/
theorem decodeLoop_setCrcAcc (n p : Nat) (ph : Phase) :
    decodeLoop n p ph (s.setCrcAcc x) = endedSetCrcAcc x (decodeLoop n p ph s) := by
  induction n generalizing p ph s with
  | zero => rfl
  | succ n ih =>
    rw [decodeLoop, decodeLoop, readChunk_setCrcAcc]
    cases readChunk p s with
    | error e => rfl
    | ok a =>
      obtain ⟨r, s1⟩ := a
      simp only [answerSetCrcAcc, Prod.map_apply, id, structureStep_setCrcAcc]
      cases structureStep ph r s1 with
      | error e => rfl
      | ok y =>
        simp only [Prod.map_fst, Prod.map_snd, id, emitRecord_setCrcAcc, ih]
        split <;> rfl

theorem decodeBody_setCrcAcc :
    decodeBody (s.setCrcAcc x) = endedSetCrcAcc x (decodeBody s) := by
  simp only [decodeBody, State.setCrcAcc_ops, windowOk_setCrcAcc, clearResults_setCrcAcc,
    checkSignature_setCrcAcc, decodeLoop_setCrcAcc]
  split
  · rfl
  · cases checkSignature (clearResults s) <;> rfl

/-! ### Every command but CRC_RANGE -/

/-- R108: no command but CRC_RANGE reads CRC_ACC. -/
theorem commandBody_setCrcAcc {i : Instr} (hi : i ≠ .crcRange) :
    commandBody i (s.setCrcAcc x) = (commandBody i s).map (endedSetCrcAcc x) := by
  cases i with
  | crcRange => exact absurd rfl hi
  | frame => exact congrArg some (frameBody_setCrcAcc s x)
  | frameHdr => exact congrArg some (frameHdrBody_setCrcAcc s x)
  | frameEnd => exact congrArg some (frameEndBody_setCrcAcc s x)
  | emitSig => exact congrArg some (emitSigBody_setCrcAcc s x)
  | parseAt => exact congrArg some (parseAtBody_setCrcAcc s x false)
  | parseAtS => exact congrArg some (parseAtBody_setCrcAcc s x true)
  | scan => exact congrArg some (scanBody_setCrcAcc s x)
  | decode => exact congrArg some (decodeBody_setCrcAcc s x)
  | crcFeed v => rfl
  | crcLoad v => rfl
  | statusAck v => rfl

end

/-- R108: no command but CRC_RANGE writes CRC_ACC. -/
theorem commandBody_crcAcc {i : Instr} {s : State} {b : Ended} (hi : i ≠ .crcRange)
    (hb : commandBody i s = some b) : b.state.crcAcc = s.crcAcc := by
  cases commandBody_cases hb with
  | raised eq => rw [eq]
  | integrated v instr eq => exact absurd instr hi
  | reported m c fits regs eq => rw [eq]; rfl
  | recorded instr frame => rw [frame.rest]

theorem complete_crcAcc (b : Ended) : (complete b).crcAcc = b.state.crcAcc := by
  rw [complete_eq]
  rfl

/-! ### What changes CRC_ACC -/

/-- R82: CRC_RANGE is OP = 1 with S = 0. -/
theorem fields_of_crcRange {op : BitVec 4} {strict : Bool}
    (h : decodeFields op strict = .ok .crcRange) : op = 0x1 ∧ strict = false := by
  revert op strict
  decide

/-- R108: of the engine's turns only the one that performs CRC_RANGE changes CRC_ACC. -/
theorem engineCase_crcAcc {s t : State} (h : EngineCase s t) (changed : t.crcAcc ≠ s.crcAcc) :
    s.engine = .pending 0x1 false := by
  cases h with
  | idle _ eq => exact absurd (congrArg State.crcAcc eq) changed
  | performed op strict i b engine legal body eq =>
    by_cases hi : i = .crcRange
    · subst hi
      obtain ⟨rfl, rfl⟩ := fields_of_crcRange legal
      exact engine
    · rw [eq, complete_crcAcc, commandBody_crcAcc hi body] at changed
      exact absurd rfl changed

/-- R108: of the register writes only CRC_LOAD and CRC_FEED change CRC_ACC. -/
theorem regWriteCase_crcAcc {wa : RegAddr} {v : Word} {s t : State} (h : RegWriteCase wa v s t)
    (changed : t.crcAcc ≠ s.crcAcc) : wa = regAddr 0x038 ∨ wa = regAddr 0x03C := by
  cases h with
  | dropped _ eq => exact absurd (congrArg State.crcAcc eq) changed
  | issued _ _ _ _ eq => exact absurd (congrArg State.crcAcc eq) changed
  | illegal _ _ _ eq => exact absurd (congrArg State.crcAcc eq) changed
  | acked _ _ eq => exact absurd (congrArg State.crcAcc eq) changed
  | loaded _ addr _ => exact .inl addr
  | fed _ addr _ => exact .inr addr
  | stored _ r _ eq =>
    rw [eq, storeReg_eq] at changed
    exact absurd rfl changed
  | ignored _ _ eq => exact absurd (congrArg State.crcAcc eq) changed

theorem hostBufWrite_crcAcc (a : Word) (b : Byte) (s : State) :
    (hostBufWrite a b s).crcAcc = s.crcAcc := by
  unfold hostBufWrite
  split
  · rfl
  · split <;> rfl

/-- Settles O29: exchanging CRC_ACC commutes with every command but CRC_RANGE, and each kind of step
is one of the four or leaves it alone. -/
theorem crcAccIsSeparate : Obligations.CrcAccIsSeparate := by
  refine ⟨fun i s x hi other => ?_, fun s t h changed => ?_⟩
  · obtain ⟨b, hb⟩ := commandBody_isSome hi s
    have exchanged := commandBody_setCrcAcc s x other
    rw [hb] at exchanged
    refine ⟨complete b, exec_command hb, ?_, ?_⟩
    · rw [complete_crcAcc, commandBody_crcAcc other hb]
    · rw [exec_command exchanged, complete_setCrcAcc]
  · cases step_cases h with
    | last inputs engine => exact .inr (.inr (.inr ⟨.inl inputs, engineCase_crcAcc engine changed⟩))
    | turn rest inputs engine =>
      have crcRange := engineCase_crcAcc (s := s.setInputs rest) engine changed
      exact .inr (.inr (.inr ⟨.inr ⟨rest, inputs⟩, crcRange⟩))
    | regWrite wa v rest inputs write =>
      rcases regWriteCase_crcAcc write changed with rfl | rfl
      · exact .inl ⟨v, rest, inputs⟩
      · exact .inr (.inl ⟨v, rest, inputs⟩)
    | regRead wa rest _ eq => exact absurd (congrArg State.crcAcc eq) changed
    | bufWrite a b rest _ eq =>
      rw [eq, hostBufWrite_crcAcc] at changed
      exact absurd rfl changed
    | bufRead a rest _ eq => exact absurd (congrArg State.crcAcc eq) changed
    | reset rest inputs _ => exact .inr (.inr (.inl ⟨rest, inputs⟩))

end Sys2Proof.Proofs
end

section
/-! PROOF. The framer commands (41_framer.md R120 to R129): each raises on the state as it was, or
writes one sequence of bytes from DST and reports it. -/

namespace Sys2Proof.Proofs

open Sys2Proof.Machine Sys2Proof.Safety

/-! ### A successful framer command -/

/-- The state a framer command leaves when it succeeds: `bs` from DST, the report `c`, and the
completion with VALID = 0. -/
def written (bs : List Byte) (c : ChunkRegs) (s : State) : State :=
  complete (.finished false ((s.setBuf (memWrite s.buf s.ops.dst.toNat bs)).setChunk c))

section
variable (bs : List Byte) (c : ChunkRegs) (s : State)

@[simp] theorem written_cfg : (written bs c s).cfg = s.cfg := rfl
@[simp] theorem written_chunk : (written bs c s).chunk = c := rfl
@[simp] theorem written_buf :
    (written bs c s).buf = memWrite s.buf s.ops.dst.toNat bs := rfl

end

/-- A success as the obligations state it: the next state, the bytes written, and the bytes left
alone. -/
theorem written_spec {i : Instr} {s : State} {bs : List Byte} {c : ChunkRegs} {n : Nat}
    (run : exec i s = .next (written bs c s)) (length : bs.length = n) :
    ∃ m, exec i s = .next { s with
        buf := m, chunk := c, engine := .idle, status := s.status.finished false } ∧
      memRead m s.ops.dst.toNat n = bs ∧
      ∀ a, a < s.ops.dst.toNat ∨ s.ops.dst.toNat + n ≤ a → bufByte m a = bufByte s.buf a := by
  subst length
  exact ⟨_, run, memRead_memWrite_same _ _ _, fun _ => bufByte_memWrite_outside _ _ _⟩

/-- R120, R122, R123: what writing and reporting a chunk leaves. -/
theorem complete_putChunk (tag : Word) (d : List Byte) (s : State) :
    complete (.finished false (putChunk s.ops.dst.toNat tag d s)) =
      written (chunkBytes (toBE32 tag) d) (builtChunk s.ops.dst.toNat tag d) s := rfl

/-! ### EMIT_SIG -/

/-- R124: the output range passes BUF_SIZE. -/
theorem exec_emitSig_past {s : State} (h : bufSize s < s.ops.dst.toNat + 8) :
    exec .emitSig s = .next (complete (.raised .addressRange s)) := by
  rw [exec_command (i := .emitSig) rfl]
  simp only [emitSigBody, if_pos h]

/-- R124: the output range lies in BUF. -/
theorem exec_emitSig_fits {s : State} (h : s.ops.dst.toNat + 8 ≤ bufSize s) :
    exec .emitSig s = .next (written signature
      { s.chunk with endAddr := BitVec.ofNat 32 (s.ops.dst.toNat + 8) } s) := by
  rw [exec_command (i := .emitSig) rfl]
  simp only [emitSigBody, if_neg (Nat.not_lt.2 h)]
  rfl

/-- Settles O35: the two cases of the range check. -/
theorem emitSigWritesSignature : Obligations.EmitSigWritesSignature := by
  rintro s _ rfl
  exact ⟨rfl, exec_emitSig_past, fun fits => written_spec (exec_emitSig_fits fits) rfl⟩

/-! ### FRAME_END -/

/-- R123: the output range passes BUF_SIZE. -/
theorem exec_frameEnd_past {s : State} (h : bufSize s < s.ops.dst.toNat + 12) :
    exec .frameEnd s = .next (complete (.raised .addressRange s)) := by
  rw [exec_command (i := .frameEnd) rfl]
  simp only [frameEndBody, if_pos h]

/-- R123: the output range lies in BUF. -/
theorem exec_frameEnd_fits {s : State} (h : s.ops.dst.toNat + 12 ≤ bufSize s) :
    exec .frameEnd s = .next (written (chunkBytes tagIend [])
      (builtChunk s.ops.dst.toNat (ofBE32 tagIend) []) s) := by
  rw [exec_command (i := .frameEnd) rfl]
  simp only [frameEndBody, if_neg (Nat.not_lt.2 h)]
  rw [complete_putChunk, tagIend_be32]

/-- R70: the checksum of the terminal chunk. -/
theorem crc32_tagIend : crc32 tagIend = 0xAE426082 := by
  simp [tagIend, crc32, crcStep, crcBits, crcBit, crcPoly]

/-- R70: TERM, the bytes of the terminal chunk. -/
theorem chunkBytes_tagIend :
    chunkBytes tagIend [] =
      [0x00, 0x00, 0x00, 0x00, 0x49, 0x45, 0x4E, 0x44, 0xAE, 0x42, 0x60, 0x82] := by
  rw [chunkBytes, List.append_nil, List.append_nil, crc32_tagIend]
  rfl

/-- R123: the report of the terminal chunk. -/
theorem builtChunk_tagIend (a : Nat) : builtChunk a (ofBE32 tagIend) [] =
    { type := 0x49454E44, len := 0, data := BitVec.ofNat 32 (a + 8), stored := 0xAE426082
      computed := 0xAE426082, endAddr := BitVec.ofNat 32 (a + 12) } := by
  rw [builtChunk, tagIend_be32, List.append_nil, crc32_tagIend]
  rfl

/-- Settles O34: the two cases of the range check, with the terminal chunk computed. -/
theorem frameEndBuildsTerminal : Obligations.FrameEndBuildsTerminal := by
  rintro s _ rfl
  refine ⟨rfl, exec_frameEnd_past, fun fits => ?_⟩
  have run := exec_frameEnd_fits fits
  rw [builtChunk_tagIend, chunkBytes_tagIend] at run
  exact written_spec run rfl

/-! ### FRAME_HDR -/

/-- R122: a zero dimension, before the range check. -/
theorem exec_frameHdr_zero {s : State} (h : s.ops.width = 0 ∨ s.ops.height = 0) :
    exec .frameHdr s = .next (complete (.raised .malformedHeader s)) := by
  rw [exec_command (i := .frameHdr) rfl]
  simp only [frameHdrBody, if_pos h]

/-- R122: the output range passes BUF_SIZE. -/
theorem exec_frameHdr_past {s : State} (width : s.ops.width ≠ 0) (height : s.ops.height ≠ 0)
    (h : bufSize s < s.ops.dst.toNat + 25) :
    exec .frameHdr s = .next (complete (.raised .addressRange s)) := by
  rw [exec_command (i := .frameHdr) rfl]
  simp only [frameHdrBody, if_neg (not_or.2 ⟨width, height⟩), if_pos h]

/-- R122: the output range lies in BUF. -/
theorem exec_frameHdr_fits {s : State} (width : s.ops.width ≠ 0) (height : s.ops.height ≠ 0)
    (h : s.ops.dst.toNat + 25 ≤ bufSize s) :
    exec .frameHdr s = .next (written (chunkBytes tagIhdr (headerRecord s.ops))
      (builtChunk s.ops.dst.toNat (ofBE32 tagIhdr) (headerRecord s.ops)) s) := by
  rw [exec_command (i := .frameHdr) rfl]
  simp only [frameHdrBody, if_neg (not_or.2 ⟨width, height⟩), if_neg (Nat.not_lt.2 h)]
  rw [complete_putChunk, tagIhdr_be32]

/-- R122: the report of the header chunk of record `h`. -/
theorem builtChunk_header (a : Nat) {h : List Byte} (length : h.length = 13) :
    builtChunk a (ofBE32 tagIhdr) h =
      { type := 0x49484452, len := 13, data := BitVec.ofNat 32 (a + 8)
        stored := crc32 (tagIhdr ++ h), computed := crc32 (tagIhdr ++ h)
        endAddr := BitVec.ofNat 32 (a + 25) } := by
  rw [builtChunk, tagIhdr_be32, length]
  rfl

/-- R122: the bytes of the header chunk of record `h`. -/
theorem chunkBytes_header {h : List Byte} (length : h.length = 13) :
    chunkBytes tagIhdr h =
      [0x00, 0x00, 0x00, 0x0D, 0x49, 0x48, 0x44, 0x52] ++ h ++ toBE32 (crc32 (tagIhdr ++ h)) := by
  rw [chunkBytes, length]
  rfl

/-- Settles O33: the two checks in order, then the header chunk of the packed record. -/
theorem frameHdrBuildsHeader : Obligations.FrameHdrBuildsHeader := by
  rintro s _ h c rfl record crc
  refine ⟨rfl, exec_frameHdr_zero, exec_frameHdr_past, fun width height fits => ?_⟩
  have run := exec_frameHdr_fits width height fits
  rw [show headerRecord s.ops = h from record.symm] at run
  have length : h.length = 13 := by rw [record]; rfl
  rw [builtChunk_header _ length, chunkBytes_header length,
    show crc32 (tagIhdr ++ h) = c from crc.symm] at run
  exact written_spec run (by simp [length])

/-! ### FRAME -/

theorem ascii4_iff {tag : List Byte} : ascii4 tag = true ↔ ∀ b ∈ tag, b.toNat < 0x80 := by
  simp only [ascii4, List.all_eq_true, decide_eq_true_eq]

theorem ascii4_eq_false_iff {tag : List Byte} :
    ascii4 tag = false ↔ ∃ b ∈ tag, 0x80 ≤ b.toNat := by
  rw [← Bool.not_eq_true, ascii4_iff]
  push Not
  rfl

/-- FRAME gets past its first three checks (R120, R128). -/
structure FrameInRange (s : State) : Prop where
  tag : ∀ b ∈ toBE32 s.ops.type, b.toNat < 0x80
  len : s.ops.len.toNat ≤ 0xFFFFFFF3
  source : s.ops.src.toNat + s.ops.len.toNat ≤ bufSize s
  output : s.ops.dst.toNat + 12 + s.ops.len.toNat ≤ bufSize s

/-- SRC and DST overlap other than in place (R129). -/
def FrameOverlaps (s : State) : Prop :=
  0 < s.ops.len.toNat ∧ s.ops.src.toNat ≠ s.ops.dst.toNat + 8 ∧
    s.ops.src.toNat < s.ops.dst.toNat + 12 + s.ops.len.toNat ∧
    s.ops.dst.toNat < s.ops.src.toNat + s.ops.len.toNat

section
variable {s : State}

theorem overlap_iff : overlap s.ops.src.toNat s.ops.len.toNat s.ops.dst.toNat = true ↔
    FrameOverlaps s := by
  simp only [FrameOverlaps, overlap, Bool.and_eq_true, decide_eq_true_eq, gt_iff_lt, and_assoc]

/-- R128: a tag byte of 0x80 or above. -/
theorem exec_frame_badTag (tag : ∃ b ∈ toBE32 s.ops.type, 0x80 ≤ b.toNat) :
    exec .frame s = .next (complete (.raised .invalidTypeTag s)) := by
  rw [exec_command (i := .frame) rfl]
  simp only [frameBody, if_pos (ascii4_eq_false_iff.2 tag)]

theorem frame_tag_check (tag : ∀ b ∈ toBE32 s.ops.type, b.toNat < 0x80) :
    ¬ ascii4 (toBE32 s.ops.type) = false := by
  rw [ascii4_iff.2 tag]
  exact Bool.noConfusion

/-- R120: LEN + 12 does not fit in 32 bits. -/
theorem exec_frame_overflow (tag : ∀ b ∈ toBE32 s.ops.type, b.toNat < 0x80)
    (len : 0xFFFFFFF3 < s.ops.len.toNat) :
    exec .frame s = .next (complete (.raised .integerOverflow s)) := by
  rw [exec_command (i := .frame) rfl]
  simp only [frameBody, if_neg (frame_tag_check tag), if_pos len]

/-- R120: the source or the output range passes BUF_SIZE. -/
theorem exec_frame_past (tag : ∀ b ∈ toBE32 s.ops.type, b.toNat < 0x80)
    (len : s.ops.len.toNat ≤ 0xFFFFFFF3)
    (past : bufSize s < s.ops.src.toNat + s.ops.len.toNat ∨
      bufSize s < s.ops.dst.toNat + 12 + s.ops.len.toNat) :
    exec .frame s = .next (complete (.raised .addressRange s)) := by
  rw [exec_command (i := .frame) rfl]
  simp only [frameBody, if_neg (frame_tag_check tag), if_neg (Nat.not_lt.2 len), if_pos past]

/-- R120: with both ranges in BUF, what is left is the overlap check. -/
theorem FrameInRange.frameBody_eq (h : FrameInRange s) : frameBody s =
    if overlap s.ops.src.toNat s.ops.len.toNat s.ops.dst.toNat then .raised .overlap s
    else .finished false (putChunk s.ops.dst.toNat s.ops.type
      (memRead s.buf s.ops.src.toNat s.ops.len.toNat) s) := by
  obtain ⟨tag, len, source, output⟩ := h
  have range : ¬ (s.ops.src.toNat + s.ops.len.toNat > bufSize s ∨
      s.ops.dst.toNat + 12 + s.ops.len.toNat > bufSize s) := by omega
  simp only [frameBody, if_neg (frame_tag_check tag), if_neg (Nat.not_lt.2 len), if_neg range]

/-- R129: an overlap other than in place. -/
theorem exec_frame_overlap (h : FrameInRange s) (overlaps : FrameOverlaps s) :
    exec .frame s = .next (complete (.raised .overlap s)) := by
  rw [exec_command (i := .frame) rfl, h.frameBody_eq, if_pos (overlap_iff.2 overlaps)]

/-- R120: every check passes. -/
theorem exec_frame_fits (h : FrameInRange s) (clear : ¬ FrameOverlaps s) :
    exec .frame s = .next (written
      (chunkBytes (toBE32 s.ops.type) (memRead s.buf s.ops.src.toNat s.ops.len.toNat))
      (builtChunk s.ops.dst.toNat s.ops.type
        (memRead s.buf s.ops.src.toNat s.ops.len.toNat)) s) := by
  rw [exec_command (i := .frame) rfl, h.frameBody_eq, if_neg (mt overlap_iff.1 clear),
    complete_putChunk]

end

/-- R120: the bytes of a chunk whose length field is `n`. -/
theorem chunkBytes_of_length {d : List Byte} {n : Word} (length : d.length = n.toNat)
    (tag : List Byte) : chunkBytes tag d = toBE32 n ++ tag ++ d ++ toBE32 (crc32 (tag ++ d)) := by
  rw [chunkBytes, length, BitVec.ofNat_toNat, BitVec.setWidth_eq]

/-- R120: the report of a chunk whose length field is `n`. -/
theorem builtChunk_of_length {d : List Byte} {n : Word} (length : d.length = n.toNat) (a : Nat)
    (tag : Word) : builtChunk a tag d =
      { type := tag, len := n, data := BitVec.ofNat 32 (a + 8), stored := crc32 (toBE32 tag ++ d)
        computed := crc32 (toBE32 tag ++ d), endAddr := BitVec.ofNat 32 (a + 12 + n.toNat) } := by
  rw [builtChunk, length, BitVec.ofNat_toNat, BitVec.setWidth_eq]

/-- Settles O30: the four checks in order, then the chunk of the data read. -/
theorem frameBuildsChunk : Obligations.FrameBuildsChunk := by
  rintro s _ _ _ _ d c rfl rfl rfl rfl data crc
  refine ⟨rfl, exec_frame_badTag, exec_frame_overflow, exec_frame_past,
    fun tag len source output => exec_frame_overlap ⟨tag, len, source, output⟩,
    fun tag len source output clear => ?_⟩
  have run := exec_frame_fits ⟨tag, len, source, output⟩ clear
  have length : d.length = s.ops.len.toNat := by rw [data, memRead_length]
  rw [← data, chunkBytes_of_length length, builtChunk_of_length length, ← crc] at run
  obtain ⟨m, next, bytes, frame⟩ := written_spec (n := 12 + s.ops.len.toNat) run
    (by simp only [List.length_append, toBE32_length, length]; omega)
  exact ⟨m, next, bytes, fun a ha => frame a (by omega)⟩

end Sys2Proof.Proofs
end

section
/-! PROOF. A chunk that stands in the buffer memory (20_memory.md R63): its fields, in-place framing
(41_framer.md R129), and PARSE_AT on a chunk that FRAME built (R121). -/

namespace Sys2Proof.Proofs

open Sys2Proof.Machine Sys2Proof.Safety

/-! ### The fields of a chunk -/

/-- Equal reads of a range are equal bytes: the converse of `memRead_congr`. -/
theorem bufByte_of_memRead_eq {m m' : Memory} {a n c : Nat} (h : memRead m a n = memRead m' a n)
    (low : a ≤ c) (high : c < a + n) : bufByte m c = bufByte m' c := by
  induction n generalizing a with
  | zero => omega
  | succ n ih =>
    obtain ⟨first, rest⟩ := List.cons.inj h
    rcases Nat.eq_or_lt_of_le low with rfl | low
    · exact first
    · exact ih rest low (by omega)

theorem holdsAt_append {m : Memory} {a : Nat} {xs ys : List Byte} :
    HoldsAt m a (xs ++ ys) ↔ HoldsAt m a xs ∧ HoldsAt m (a + xs.length) ys := by
  unfold HoldsAt
  rw [List.length_append, memRead_append]
  exact ⟨fun h => List.append_inj h (memRead_length _ _ _), fun ⟨hx, hy⟩ => by rw [hx, hy]⟩

theorem holdsAt_memWrite (m : Memory) (a : Nat) (bs : List Byte) :
    HoldsAt (memWrite m a bs) a bs := memRead_memWrite_same m a bs

/-- The fields of the chunk of tag `tag` and data `d` at address `a` (R63). -/
structure ChunkAt (m : Memory) (a : Nat) (tag d : List Byte) : Prop where
  length : memRead m a 4 = toBE32 (BitVec.ofNat 32 d.length)
  tagged : memRead m (a + 4) 4 = tag
  data : memRead m (a + 8) d.length = d
  covered : memRead m (a + 4) (4 + d.length) = tag ++ d
  stored : memRead m (a + 8 + d.length) 4 = toBE32 (crc32 (tag ++ d))

/-- R63: a memory that holds the bytes of a chunk holds its fields. -/
theorem chunkAt_of_holdsAt {m : Memory} {a : Nat} {tag d : List Byte} (four : tag.length = 4)
    (h : HoldsAt m a (chunkBytes tag d)) : ChunkAt m a tag d := by
  rw [chunkBytes, holdsAt_append, holdsAt_append, holdsAt_append] at h
  simp only [List.length_append, toBE32_length, four, ← Nat.add_assoc] at h
  obtain ⟨⟨⟨length, tagged⟩, data⟩, stored⟩ := h
  have tagged : memRead m (a + 4) 4 = tag := four ▸ tagged
  exact ⟨length, tagged, data, by rw [memRead_append, tagged, Nat.add_assoc]; rw [data], stored⟩

/-- Settles O32: SRC = DST + 8 is no overlap, and the data field holds what was read there. -/
theorem inPlaceFramingKeepsTheData : Obligations.InPlaceFramingKeepsTheData := by
  intro s tag inPlace fits small
  have run := exec_frame_fits ⟨tag, by omega, by omega, fits⟩
    fun ⟨_, notInPlace, _⟩ => notInPlace inPlace
  rw [inPlace] at run
  refine ⟨_, run, rfl, fun a ha => ?_⟩
  rw [written_buf]
  rcases ha with before | ⟨low, high⟩ | after
  · exact bufByte_memWrite_outside _ _ _ (.inl before)
  · have chunk := chunkAt_of_holdsAt rfl (holdsAt_memWrite s.buf s.ops.dst.toNat
      (chunkBytes (toBE32 s.ops.type) (memRead s.buf (s.ops.dst.toNat + 8) s.ops.len.toNat)))
    have data := chunk.data
    rw [memRead_length] at data
    exact bufByte_of_memRead_eq data low high
  · refine bufByte_memWrite_outside _ _ _ (.inr ?_)
    rw [chunkBytes_length, toBE32_length, memRead_length]
    omega

/-! ### Parsing a chunk -/

/-- R7: an address or a length that fits in 32 bits is the value of its word. -/
theorem toNat_word {n : Nat} (h : n < 2 ^ 32) : (BitVec.ofNat 32 n).toNat = n :=
  (BitVec.toNat_ofNat _ _).trans (Nat.mod_eq_of_lt h)

/-- R150: PARSE_AT finishes with VALID = 1 on a chunk inside its window whose checksums agree. -/
theorem parseAtBody_valid {strict : Bool} {s : State} (window : windowOk s = true)
    (first : s.ops.base.toNat + 4 ≤ s.ops.offset.toNat)
    (last : s.ops.offset.toNat + 8 + (ofBE32 (memRead s.buf (s.ops.offset.toNat - 4) 4)).toNat
      ≤ s.ops.limit.toNat)
    (tag : ascii4 (memRead s.buf s.ops.offset.toNat 4) = true)
    (valid : (examinedChunk s).stored = (examinedChunk s).computed) :
    parseAtBody strict s = .finished true (s.setChunk (examinedChunk s)) := by
  have header : ¬ (s.ops.offset.toNat < s.ops.base.toNat + 4 ∨
      s.ops.offset.toNat + 8 > s.ops.limit.toNat) := by omega
  have valid : ofBE32 (memRead s.buf (s.ops.offset.toNat + 4 +
      (ofBE32 (memRead s.buf (s.ops.offset.toNat - 4) 4)).toNat) 4) =
    crc32 (memRead s.buf s.ops.offset.toNat
      (4 + (ofBE32 (memRead s.buf (s.ops.offset.toNat - 4) 4)).toNat)) := valid
  simp only [parseAtBody, window, tag, if_neg header, if_neg (Nat.not_lt.2 last), if_pos valid,
    Bool.true_eq_false, and_false, if_false]
  rfl

/-- R121, R150: what PARSE_AT examines at the tag of a chunk is the chunk as the framer reports
it. -/
theorem examinedChunk_eq_builtChunk {s : State} {a : Nat} {tag : Word} {d : List Byte}
    (chunk : ChunkAt s.buf a (toBE32 tag) d) (offset : s.ops.offset.toNat = a + 4)
    (small : d.length < 2 ^ 32) : examinedChunk s = builtChunk a tag d := by
  have length : (BitVec.ofNat 32 d.length).toNat = d.length := toNat_word small
  have addr : a + 4 + 4 + d.length = a + 8 + d.length := rfl
  simp only [examinedChunk, readChunkRegs, builtChunk, offset, Nat.add_sub_cancel, chunk.length,
    chunk.tagged, chunk.covered, chunk.stored, addr, ofBE32_toBE32, length]

/-- R121, R150: both forms of PARSE_AT accept a chunk of ASCII tag in a window that contains it. -/
theorem parseAtBody_of_chunkAt {s : State} {a : Nat} {tag : Word} {d : List Byte}
    (chunk : ChunkAt s.buf a (toBE32 tag) d) (ascii : ascii4 (toBE32 tag) = true)
    (offset : s.ops.offset.toNat = a + 4) (base : s.ops.base.toNat ≤ a)
    (limit : a + 12 + d.length ≤ s.ops.limit.toNat) (inside : s.ops.limit.toNat ≤ bufSize s)
    (strict : Bool) : parseAtBody strict s = .finished true (s.setChunk (builtChunk a tag d)) := by
  have small : d.length < 2 ^ 32 := by omega
  have examined := examinedChunk_eq_builtChunk chunk offset small
  have length : (ofBE32 (memRead s.buf (s.ops.offset.toNat - 4) 4)).toNat = d.length := by
    rw [offset, Nat.add_sub_cancel, chunk.length, ofBE32_toBE32, toNat_word small]
  have window : windowOk s = true := by
    simp only [windowOk, Bool.and_eq_true, decide_eq_true_eq]
    omega
  rw [← examined]
  refine parseAtBody_valid window (by omega) (by omega) ?_ ?_
  · rw [offset, chunk.tagged, ascii]
  · rw [examined]
    rfl

/-- R121: where R_TYPE .. R_END already describe that chunk, only STATUS changes. -/
theorem exec_parse_of_chunkAt {s : State} {a : Nat} {tag : Word} {d : List Byte}
    (chunk : ChunkAt s.buf a (toBE32 tag) d) (ascii : ascii4 (toBE32 tag) = true)
    (offset : s.ops.offset.toNat = a + 4) (base : s.ops.base.toNat ≤ a)
    (limit : a + 12 + d.length ≤ s.ops.limit.toNat) (inside : s.ops.limit.toNat ≤ bufSize s)
    (report : s.chunk = builtChunk a tag d) : ∀ i ∈ [Instr.parseAt, .parseAtS],
      exec i s = .next { s with engine := .idle, status := s.status.finished true } := by
  have body := parseAtBody_of_chunkAt chunk ascii offset base limit inside
  rw [← report] at body
  intro i hi
  simp only [List.mem_cons, List.not_mem_nil, or_false] at hi
  rcases hi with rfl | rfl
  · rw [exec_command (i := .parseAt) rfl, body]
    rfl
  · rw [exec_command (i := .parseAtS) rfl, body]
    rfl

/-- R120: a FRAME without an error had an ASCII tag and wrote the chunk of the data it read. -/
theorem frame_succeeds {s t : State} (run : exec .frame s = .next t)
    (ok : t.status.err = false) :
    ascii4 (toBE32 s.ops.type) = true ∧ t = written
      (chunkBytes (toBE32 s.ops.type) (memRead s.buf s.ops.src.toNat s.ops.len.toNat))
      (builtChunk s.ops.dst.toNat s.ops.type
        (memRead s.buf s.ops.src.toNat s.ops.len.toNat)) s := by
  constructor
  · by_contra bad
    rw [exec_frame_badTag (ascii4_eq_false_iff.1 (Bool.not_eq_true _ ▸ bad))] at run
    cases run
    cases ok
  · rw [exec_command (i := .frame) rfl] at run
    rcases frameBody_cases s with ⟨e, _, raised⟩ | ⟨_, _, finished⟩
    · rw [raised] at run
      cases run
      cases ok
    · rw [finished, complete_putChunk] at run
      exact (Host.Outcome.next.inj run).symm

/-- Settles O31: the window holds the chunk FRAME wrote, which PARSE_AT reports as FRAME did. -/
theorem framedChunkParsesValid : Obligations.FramedChunkParsesValid := by
  intro s t base limit run ok low high inside i hi
  obtain ⟨ascii, rfl⟩ := frame_succeeds run ok
  have length : (memRead s.buf s.ops.src.toNat s.ops.len.toNat).length = s.ops.len.toNat :=
    memRead_length _ _ _
  generalize memRead s.buf s.ops.src.toNat s.ops.len.toNat = d at length
  have chunk := chunkAt_of_holdsAt rfl
    (holdsAt_memWrite s.buf s.ops.dst.toNat (chunkBytes (toBE32 s.ops.type) d))
  have offset : (s.ops.dst + 4).toNat = s.ops.dst.toNat + 4 := by bv_omega
  refine ⟨?_, by rw [written_chunk, builtChunk_of_length length]⟩
  refine exec_parse_of_chunkAt chunk ascii offset low ?_ ?_ ?_ i hi
  · rw [length]
    exact high
  · simp only [bufSize, State.setOps_cfg, written_cfg]
    exact inside
  · rw [State.setOps_chunk, written_chunk]

end Sys2Proof.Proofs
end

section
/-! PROOF. Framer commands one after another (41_framer.md R124, R127): each appends its output to
what the commands before it wrote. -/

namespace Sys2Proof.Proofs

open Sys2Proof.Machine Sys2Proof.Safety

/-! ### Appending -/

theorem memWrite_append (m : Memory) (a : Nat) (xs ys : List Byte) :
    memWrite m a (xs ++ ys) = memWrite (memWrite m a xs) (a + xs.length) ys := by
  induction xs generalizing m a with
  | nil => rfl
  | cons b xs ih => rw [List.cons_append, memWrite, memWrite, ih, List.length_cons]; congr 1; omega

/-- `t` is `s` after framer commands wrote `bs` from address `a`, one after another: each may have
been given its own DST and TYPE (R124, R127). -/
structure Appended (s t : State) (a : Nat) (bs : List Byte) : Prop where
  err : t.status.err = false
  cfg : t.cfg = s.cfg
  ops : t.ops = { s.ops with dst := t.ops.dst, type := t.ops.type }
  buf : t.buf = memWrite s.buf a bs
  endAddr : t.chunk.endAddr.toNat = a + bs.length

section
variable {s t u : State} {a b : Nat} {xs ys : List Byte}

/-- R127: what is written at the end of what was written follows it. -/
theorem Appended.trans (h : Appended s t a xs) (k : Appended t u b ys)
    (next : b = a + xs.length) : Appended s u a (xs ++ ys) where
  err := k.err
  cfg := k.cfg.trans h.cfg
  ops := by rw [k.ops, h.ops]
  buf := by rw [k.buf, h.buf, memWrite_append, next]
  endAddr := by rw [k.endAddr, next, List.length_append, Nat.add_assoc]

theorem Appended.bufSize_eq (h : Appended s t a xs) : bufSize t = bufSize s := bufSize_congr h.cfg

theorem Appended.headerRecord_eq (h : Appended s t a xs) :
    headerRecord t.ops = headerRecord s.ops := by
  rw [h.ops]
  rfl

/-- A successful framer command appends at its DST. -/
theorem appended_written {o : OperandRegs} {c : ChunkRegs}
    (ops : o = { s.ops with dst := o.dst, type := o.type })
    (endAddr : c.endAddr.toNat = o.dst.toNat + xs.length) :
    Appended s (written xs c (s.setOps o)) o.dst.toNat xs :=
  ⟨rfl, rfl, ops, rfl, endAddr⟩

/-- R127: R_END is the end of the chunk written. -/
theorem builtChunk_endAddr {tag : List Byte} (w : Word) {d : List Byte} (four : tag.length = 4)
    (small : a + 12 + d.length < 2 ^ 32) :
    (builtChunk a w d).endAddr.toNat = a + (chunkBytes tag d).length := by
  rw [builtChunk, toNat_word small, chunkBytes_length, four]
  omega

end

section
variable {s : State} {dst : Word} (small : bufSize s < 2 ^ 32)
include small

theorem emitSig_appends (fits : dst.toNat + 8 ≤ bufSize s) :
    ∃ t, exec .emitSig (s.setOps { s.ops with dst := dst }) = .next t ∧
      Appended s t dst.toNat signature :=
  ⟨_, exec_emitSig_fits fits, appended_written rfl (toNat_word (Nat.lt_of_le_of_lt fits small))⟩

theorem frameHdr_appends (width : s.ops.width ≠ 0) (height : s.ops.height ≠ 0)
    (fits : dst.toNat + 25 ≤ bufSize s) :
    ∃ t, exec .frameHdr (s.setOps { s.ops with dst := dst }) = .next t ∧
      Appended s t dst.toNat (chunkBytes tagIhdr (headerRecord s.ops)) := by
  refine ⟨_, exec_frameHdr_fits width height fits,
    appended_written rfl (builtChunk_endAddr _ rfl ?_)⟩
  rw [headerRecord_length]
  exact Nat.lt_of_le_of_lt fits small

/-- FRAME appends its data, clear of the output or in place (R129). -/
theorem frame_appends {tag : Word} (ascii : ∀ b ∈ toBE32 tag, b.toNat < 0x80)
    (source : s.ops.src.toNat + s.ops.len.toNat ≤ bufSize s)
    (fits : dst.toNat + 12 + s.ops.len.toNat ≤ bufSize s)
    (clear : s.ops.src.toNat + s.ops.len.toNat ≤ dst.toNat ∨
      dst.toNat + 12 + s.ops.len.toNat ≤ s.ops.src.toNat ∨ s.ops.src.toNat = dst.toNat + 8) :
    ∃ t, exec .frame (s.setOps { s.ops with dst := dst, type := tag }) = .next t ∧
      Appended s t dst.toNat
        (chunkBytes (toBE32 tag) (memRead s.buf s.ops.src.toNat s.ops.len.toNat)) := by
  have len : s.ops.len.toNat ≤ 0xFFFFFFF3 := by omega
  refine ⟨_, exec_frame_fits ⟨ascii, len, source, fits⟩ ?_,
    appended_written rfl (builtChunk_endAddr _ rfl ?_)⟩
  · simp only [FrameOverlaps, State.setOps_ops]
    omega
  · rw [memRead_length]
    exact Nat.lt_of_le_of_lt fits small

theorem frameEnd_appends (fits : dst.toNat + 12 ≤ bufSize s) :
    ∃ t, exec .frameEnd (s.setOps { s.ops with dst := dst }) = .next t ∧
      Appended s t dst.toNat (chunkBytes tagIend []) :=
  ⟨_, exec_frameEnd_fits fits,
    appended_written rfl (builtChunk_endAddr _ rfl (Nat.lt_of_le_of_lt fits small))⟩

end

/-- R68: the container of one data chunk. -/
theorem container_singleton (hdr d : List Byte) : container hdr [d] =
    signature ++ chunkBytes tagIhdr hdr ++ chunkBytes tagIdat d ++ chunkBytes tagIend [] := by
  rw [container, List.map_singleton, List.flatten_singleton]

/-- R127: its length. -/
theorem container_singleton_length {hdr : List Byte} (length : hdr.length = 13) (d : List Byte) :
    (container hdr [d]).length = 8 + 25 + (12 + d.length) + 12 := by
  simp only [container_singleton, List.length_append, chunkBytes_length, length]
  simp only [signature, tagIhdr, tagIdat, tagIend, List.length_cons, List.length_nil]

/-- R124: EMIT_SIG at `a` and FRAME_HDR at `a + 8`. -/
theorem signature_and_header_appended {s : State} {a : Nat} (width : s.ops.width ≠ 0)
    (height : s.ops.height ≠ 0) (small : bufSize s < 2 ^ 32) (fits : a + 33 ≤ bufSize s) :
    ∃ s1 s2,
      exec .emitSig (s.setOps { s.ops with dst := BitVec.ofNat 32 a }) = .next s1 ∧
      exec .frameHdr (s1.setOps { s1.ops with dst := BitVec.ofNat 32 (a + 8) }) = .next s2 ∧
      s1.status.err = false ∧
      Appended s s2 a (signature ++ chunkBytes tagIhdr (headerRecord s.ops)) := by
  have at0 : (BitVec.ofNat 32 a).toNat = a := toNat_word (by omega)
  have at8 : (BitVec.ofNat 32 (a + 8)).toNat = a + 8 := toNat_word (by omega)
  obtain ⟨s1, run1, h1⟩ := emitSig_appends small (dst := BitVec.ofNat 32 a) (by omega)
  have size1 := h1.bufSize_eq
  obtain ⟨s2, run2, k2⟩ := frameHdr_appends (s := s1) (dst := BitVec.ofNat 32 (a + 8))
    (by omega) (by rw [h1.ops]; exact width) (by rw [h1.ops]; exact height) (by omega)
  rw [h1.headerRecord_eq] at k2
  exact ⟨s1, s2, run1, run2, h1.err, at0 ▸ h1.trans k2 (by rw [at0, at8]; rfl)⟩

/-- Settles O36: each command appends its part to what the commands before it wrote, and the source
data is not touched before FRAME reads it. -/
theorem fourCommandsBuildAContainer : Obligations.FourCommandsBuildAContainer := by
  intro s a d width height small fits source clear data
  obtain ⟨s1, s2, run1, run2, err1, h2⟩ :=
    signature_and_header_appended (a := a) width height small (by omega)
  have size2 := h2.bufSize_eq
  have src : s2.ops.src = s.ops.src := by rw [h2.ops]
  have len : s2.ops.len = s.ops.len := by rw [h2.ops]
  have at33 : (BitVec.ofNat 32 (a + 33)).toNat = a + 33 := toNat_word (by omega)
  obtain ⟨s3, run3, k3⟩ := frame_appends (s := s2) (dst := BitVec.ofNat 32 (a + 33))
    (tag := 0x49444154) (by omega) (ascii4_iff.1 (by decide)) (by rw [src, len]; omega)
    (by rw [len]; omega) (by rw [src, len]; omega)
  have header : (signature ++ chunkBytes tagIhdr (headerRecord s.ops)).length = 33 := rfl
  have kept : memRead s2.buf s.ops.src.toNat s.ops.len.toNat = d := by
    rw [h2.buf, data]
    exact memRead_memWrite_outside _ _ _ (by rw [header]; omega)
  rw [at33, src, len, kept] at k3
  have h3 := h2.trans k3 (by rw [header])
  have size3 := h3.bufSize_eq
  have length : d.length = s.ops.len.toNat := by rw [data, memRead_length]
  have end3 : s3.chunk.endAddr.toNat = a + 45 + s.ops.len.toNat := by
    rw [k3.endAddr, chunkBytes_length, toBE32_length, length]
    omega
  obtain ⟨s4, run4, k4⟩ := frameEnd_appends (s := s3) (dst := s3.chunk.endAddr)
    (by omega) (by omega)
  have h4 := h3.trans k4 h3.endAddr
  rw [show toBE32 0x49444154 = tagIdat from rfl, ← container_singleton] at h4
  have total := container_singleton_length (headerRecord_length s.ops) d
  rw [length] at total
  refine ⟨s1, s2, s3, s4, run1, run2, run3, run4, err1, h2.err, h3.err, h4.err, ?_, total, ?_⟩
  · rw [h4.buf]
    exact holdsAt_memWrite _ _ _
  · rw [h4.endAddr, total]
    omega

end Sys2Proof.Proofs
end

section
/-! PROOF. The single-chunk parser (42_parser.md R150 to R155): its checks in order of priority,
what it reports, where its two forms differ, and what it leaves alone. -/

namespace Sys2Proof.Proofs

open Sys2Proof.Machine Sys2Proof.Safety

/-! ### The checks of R150 -/

/-- Both forms of PARSE_AT run one pseudocode, with S as its parameter (R150). -/
theorem exec_parse (strict : Bool) (s : State) :
    exec (if strict then .parseAtS else .parseAt) s = .next (complete (parseAtBody strict s)) := by
  cases strict <;> exact exec_command rfl

theorem windowOk_iff {s : State} : windowOk s = true ↔
    s.ops.base.toNat ≤ s.ops.limit.toNat ∧ s.ops.limit.toNat ≤ bufSize s := by
  simp only [windowOk, Bool.and_eq_true, decide_eq_true_eq]

/-- PARSE_AT gets past its first two checks: the window lies in BUF and has room for a length, a
tag and a checksum around OFFSET (R150). -/
structure HeaderInWindow (s : State) : Prop where
  inside : s.ops.limit.toNat ≤ bufSize s
  low : s.ops.base.toNat + 4 ≤ s.ops.offset.toNat
  high : s.ops.offset.toNat + 8 ≤ s.ops.limit.toNat

section
variable {s : State} {strict : Bool}

/-- R150: the window is not one of BUF. -/
theorem parseAtBody_badWindow
    (window : ¬ (s.ops.base.toNat ≤ s.ops.limit.toNat ∧ s.ops.limit.toNat ≤ bufSize s)) :
    parseAtBody strict s = .raised .addressRange s :=
  if_pos (Bool.not_eq_true _ ▸ mt windowOk_iff.1 window)

/-- R150: no room for a length, a tag and a checksum. -/
theorem parseAtBody_noRoom (order : s.ops.base.toNat ≤ s.ops.limit.toNat)
    (inside : s.ops.limit.toNat ≤ bufSize s)
    (room : s.ops.offset.toNat < s.ops.base.toNat + 4 ∨
      s.ops.limit.toNat < s.ops.offset.toNat + 8) :
    parseAtBody strict s = .raised .truncatedBuffer s := by
  simp only [parseAtBody, windowOk_iff.2 ⟨order, inside⟩, Bool.true_eq_false, if_false, gt_iff_lt,
    if_pos room]

/-- R150: with the header in the window, what is left is the tag, the length and the checksum. -/
theorem HeaderInWindow.parseAtBody_eq (h : HeaderInWindow s) : parseAtBody strict s =
    if strict = true ∧ ascii4 (memRead s.buf s.ops.offset.toNat 4) = false then
      .raised .invalidTypeTag s
    else if s.ops.offset.toNat + 8 + (examinedChunk s).len.toNat > s.ops.limit.toNat then
      .raised .truncatedBuffer s
    else if (examinedChunk s).stored = (examinedChunk s).computed then
      .finished true (s.setChunk (examinedChunk s))
    else if strict then .raised .checksumMismatch (s.setChunk (examinedChunk s))
    else .finished false (s.setChunk (examinedChunk s)) := by
  obtain ⟨inside, low, high⟩ := h
  have window : windowOk s = true := windowOk_iff.2 ⟨by omega, inside⟩
  have room : ¬ (s.ops.offset.toNat < s.ops.base.toNat + 4 ∨
      s.ops.offset.toNat + 8 > s.ops.limit.toNat) := by omega
  simp only [parseAtBody, window, Bool.true_eq_false, if_false, if_neg room]
  rfl

/-- R150: the strict form meets a tag byte of 0x80 or above. -/
theorem parseAtBody_badTag (h : HeaderInWindow s)
    (tag : strict = true ∧ ∃ b ∈ memRead s.buf s.ops.offset.toNat 4, 0x80 ≤ b.toNat) :
    parseAtBody strict s = .raised .invalidTypeTag s := by
  rw [h.parseAtBody_eq, if_pos ⟨tag.1, ascii4_eq_false_iff.2 tag.2⟩]

theorem parse_tag_check
    (tag : strict = true → ∀ b ∈ memRead s.buf s.ops.offset.toNat 4, b.toNat < 0x80) :
    ¬ (strict = true ∧ ascii4 (memRead s.buf s.ops.offset.toNat 4) = false) := fun ⟨hs, bad⟩ =>
  Bool.noConfusion (bad.symm.trans (ascii4_iff.2 (tag hs)))

/-- R150: the declared length passes LIMIT. -/
theorem parseAtBody_truncated (h : HeaderInWindow s)
    (tag : strict = true → ∀ b ∈ memRead s.buf s.ops.offset.toNat 4, b.toNat < 0x80)
    (past : s.ops.limit.toNat < s.ops.offset.toNat + 8 + (examinedChunk s).len.toNat) :
    parseAtBody strict s = .raised .truncatedBuffer s := by
  rw [h.parseAtBody_eq, if_neg (parse_tag_check tag), if_pos past]

/-- R150, R153: every check on the window and the tag passes, and the chunk is reported. -/
theorem complete_parseAtBody_examined (h : HeaderInWindow s)
    (tag : strict = true → ∀ b ∈ memRead s.buf s.ops.offset.toNat 4, b.toNat < 0x80)
    (whole : s.ops.offset.toNat + 8 + (examinedChunk s).len.toNat ≤ s.ops.limit.toNat) :
    complete (parseAtBody strict s) = { s with
      chunk := examinedChunk s
      engine := .idle
      status := { s.status with
        busy := false
        done := true
        err := strict && decide ((examinedChunk s).stored ≠ (examinedChunk s).computed)
        errcode :=
          if strict = true ∧ (examinedChunk s).stored ≠ (examinedChunk s).computed then 2 else 0
        valid := decide ((examinedChunk s).stored = (examinedChunk s).computed) } } := by
  rw [h.parseAtBody_eq, if_neg (parse_tag_check tag), if_neg (Nat.not_lt.2 whole)]
  by_cases valid : (examinedChunk s).stored = (examinedChunk s).computed
  · simp [valid, Status.finished, State.setChunk]
  · cases strict <;>
      simp [valid, Status.finished, Status.failed, CmdError.code, State.setChunk]

end

/-- Settles O37: the checks in order, then the report of the chunk examined. -/
theorem parseAtExaminesChunk : Obligations.ParseAtExaminesChunk := by
  rintro s strict _ _ _ _ _ _ _ _ rfl rfl rfl rfl rfl rfl rfl rfl
  rw [exec_parse]
  refine ⟨by cases strict <;> rfl, fun window => ?_, fun order inside room => ?_,
    fun inside low high tag => ?_, fun inside low high tag past => ?_,
    fun inside low whole tag => congrArg _ ?_⟩
  · rw [parseAtBody_badWindow window]; rfl
  · rw [parseAtBody_noRoom order inside room]; rfl
  · rw [parseAtBody_badTag ⟨inside, low, high⟩ tag]; rfl
  · rw [parseAtBody_truncated ⟨inside, low, high⟩ tag past]; rfl
  · exact complete_parseAtBody_examined ⟨inside, low, by omega⟩ tag whole

/-! ### The two forms -/

/-- R155: how the strict form compares with the lenient one. -/
theorem parseAtBody_strict_cases (s : State) :
    (ascii4 (memRead s.buf s.ops.offset.toNat 4) = false ∧
        parseAtBody true s = .raised .invalidTypeTag s) ∨
      parseAtBody true s = parseAtBody false s ∨
      (parseAtBody true s = .raised .checksumMismatch (s.setChunk (examinedChunk s)) ∧
        parseAtBody false s = .finished false (s.setChunk (examinedChunk s))) := by
  by_cases window : s.ops.base.toNat ≤ s.ops.limit.toNat ∧ s.ops.limit.toNat ≤ bufSize s
  case neg =>
    exact .inr (.inl ((parseAtBody_badWindow window).trans (parseAtBody_badWindow window).symm))
  obtain ⟨order, inside⟩ := window
  by_cases room : s.ops.offset.toNat < s.ops.base.toNat + 4 ∨
      s.ops.limit.toNat < s.ops.offset.toNat + 8
  case pos =>
    exact .inr (.inl ((parseAtBody_noRoom order inside room).trans
      (parseAtBody_noRoom order inside room).symm))
  have header : HeaderInWindow s := ⟨inside, by omega, by omega⟩
  rw [header.parseAtBody_eq, header.parseAtBody_eq]
  cases tag : ascii4 (memRead s.buf s.ops.offset.toNat 4) with
  | false => exact .inl ⟨rfl, if_pos ⟨rfl, rfl⟩⟩
  | true =>
    simp only [Bool.true_eq_false, Bool.false_eq_true, and_false, if_false, if_true, false_and,
      false_or]
    split
    · exact .inl rfl
    · split
      · exact .inl rfl
      · exact .inr ⟨rfl, rfl⟩

/-- R200: code 2 is CHECKSUM_MISMATCH's alone. -/
theorem code_eq_two_iff {e : CmdError} : e.code = 2 ↔ e = .checksumMismatch := by
  cases e <;> decide

/-- R150: CHECKSUM_MISMATCH is an error of the strict form only. -/
theorem parseAt_errcode_ne_two (s : State) :
    (complete (parseAtBody false s)).status.errcode ≠ 2 := by
  rcases parseAtBody_cases false s with ⟨e, _, other, body⟩ | ⟨_, strict, _⟩ | ⟨_, body⟩
  · rw [body]
    exact mt code_eq_two_iff.1 other
  · cases strict
  · rw [body]
    exact (by decide : (0 : BitVec 4) ≠ 2)

/-- Settles O38: the three ways the strict form compares with the lenient one. -/
theorem lenientAndStrictAgree : Obligations.LenientAndStrictAgree := by
  intro s
  refine ⟨_, _, exec_command rfl, exec_command rfl, ?_⟩
  rcases parseAtBody_strict_cases s with ⟨tag, strict⟩ | same | ⟨strict, lenient⟩
  · rw [strict]
    refine ⟨fun ascii _ => ?_, fun _ => .inl rfl, fun code => ?_⟩
    · exact Bool.noConfusion (tag.symm.trans (ascii4_iff.2 ascii))
    · exact absurd code (by decide : (1 : BitVec 4) ≠ 2)
  · rw [same]
    exact ⟨fun _ _ => rfl, fun differ => absurd rfl differ,
      fun code => absurd code (parseAt_errcode_ne_two s)⟩
  · rw [strict, lenient]
    exact ⟨fun _ valid => Bool.noConfusion valid, fun _ => .inr rfl, fun _ => ⟨rfl, rfl, rfl⟩⟩

/-! ### What the parser leaves alone -/

/-- R154: until its completion PARSE_AT writes R_TYPE .. R_END only. -/
theorem parseAtBody_setsChunk (strict : Bool) (s : State) :
    ∃ c, (parseAtBody strict s).state = s.setChunk c := by
  rcases parseAtBody_cases strict s with ⟨_, _, _, body⟩ | ⟨_, _, body⟩ | ⟨_, body⟩ <;> rw [body]
  · exact ⟨s.chunk, rfl⟩
  · exact ⟨_, rfl⟩
  · exact ⟨_, rfl⟩

/-- Settles O39: the pseudocode writes R_TYPE .. R_END, and the completion STATUS and the engine. -/
theorem parserLeavesScanResultsAlone : Obligations.ParserLeavesScanResultsAlone := by
  intro s i parse
  obtain ⟨strict, run⟩ : ∃ strict, exec i s = .next (complete (parseAtBody strict s)) := by
    rcases parse with rfl | rfl
    · exact ⟨false, exec_parse false s⟩
    · exact ⟨true, exec_parse true s⟩
  obtain ⟨c, state⟩ := parseAtBody_setsChunk strict s
  have flags := complete_flags (parseAtBody strict s)
  rw [complete_eq, state] at run flags
  exact ⟨_, c, run, flags⟩

end Sys2Proof.Proofs
end

section
/-! PROOF. A changed byte changes the checksum (40_crc.md R100; 43_scanner.md R179): every step of
the CRC is injective, in its state and in its byte. -/

namespace Sys2Proof.Proofs

open Sys2Proof.Machine Sys2Proof.Safety

/-- R100: the polynomial's top bit is set, so the top bit of the result is the bit shifted out. -/
theorem crcBit_top (x : Word) : (crcBit x).getLsbD 31 = x.getLsbD 0 := by
  cases h : x.getLsbD 0 <;>
    simp [crcBit, h, crcPoly, -BitVec.getLsbD_eq_getElem, BitVec.getLsbD_ushiftRight]

theorem crcBit_injective : Function.Injective crcBit := by
  intro x y h
  have low : x.getLsbD 0 = y.getLsbD 0 := by rw [← crcBit_top, ← crcBit_top, h]
  have high : x >>> 1 = y >>> 1 := by
    cases bit : y.getLsbD 0 with
    | false => simpa only [crcBit, low, bit, Bool.false_eq_true, if_false] using h
    | true => simpa only [crcBit, low, bit, if_true, BitVec.xor_left_inj] using h
  apply BitVec.eq_of_getLsbD_eq
  rintro (_ | i) hi
  · exact low
  · have shifted := congrArg (·.getLsbD i) high
    simpa only [BitVec.getLsbD_ushiftRight, Nat.add_comm 1] using shifted

theorem crcBits_injective (n : Nat) : Function.Injective (crcBits n) := by
  induction n with
  | zero => exact Function.injective_id
  | succ n ih => exact ih.comp crcBit_injective

theorem crcStep_injective (b : Byte) : Function.Injective (crcStep · b) := fun _ _ h =>
  (BitVec.xor_left_inj _).1 (crcBits_injective 8 h)

theorem crcStep_byte_injective (acc : Word) : Function.Injective (crcStep acc) := fun b b' h => by
  have wide : b.setWidth 32 = b'.setWidth 32 := (BitVec.xor_right_inj _).1 (crcBits_injective 8 h)
  have narrow := congrArg (·.setWidth 8) wide
  simpa using narrow

theorem crcFold_injective (bs : List Byte) : Function.Injective (crcFold · bs) := by
  induction bs with
  | nil => exact Function.injective_id
  | cons b bs ih => exact ih.comp (crcStep_injective b)

/-- Settles O28: the two folds differ after the changed byte, and the bytes after it keep them
apart. -/
theorem oneByteCorruptionChangesTheChecksum : Obligations.OneByteCorruptionChangesTheChecksum := by
  intro pre post b b' differ same
  have folds := (BitVec.xor_left_inj _).1 same
  rw [crcFold_append, crcFold_append, crcFold_cons, crcFold_cons] at folds
  exact differ (crcStep_byte_injective _ (crcFold_injective post folds))

end Sys2Proof.Proofs
end

section
/-! PROOF. SCAN's loop (43_scanner.md R171, R178, R179): it is the rule's `while` loop, and SCAN
ends without an error on every well-formed window. -/

namespace Sys2Proof.Proofs

open Sys2Proof.Machine Sys2Proof.Safety

/-! ### The bound of the loop -/

/-- R178: each iteration moves the position on. -/
theorem scanAdvance_gt (r : Rec) (p : Nat) : p + 1 ≤ scanAdvance r p := by
  unfold scanAdvance
  split <;> omega

/-- R171: the loop stops where no tag fits in the window. -/
theorem scanLoop_stop {p : Nat} {s : State} (h : s.ops.limit.toNat < p + 4) (n : Nat) :
    scanLoop n p s = s := by
  cases n with
  | zero => rfl
  | succ n => rw [scanLoop, if_neg (by omega)]

/-- R179: any two bounds of at least `LIMIT - p` iterations do the same. -/
theorem scanLoop_bound {n m p : Nat} {s : State} (hn : s.ops.limit.toNat - p ≤ n)
    (hm : s.ops.limit.toNat - p ≤ m) : scanLoop n p s = scanLoop m p s := by
  by_cases high : p + 4 ≤ s.ops.limit.toNat
  case neg => rw [scanLoop_stop (by omega), scanLoop_stop (by omega)]
  induction n generalizing m p s with
  | zero => omega
  | succ n ih =>
    obtain ⟨m, rfl⟩ : ∃ k, m = k + 1 := ⟨m - 1, by omega⟩
    have next {q : Nat} {u : State} (hq : p + 1 ≤ q) (hu : u.ops = s.ops) :
        scanLoop n q u = scanLoop m q u := by
      by_cases more : q + 4 ≤ u.ops.limit.toNat
      · exact ih (by rw [hu]; omega) (by rw [hu]; omega) more
      · rw [scanLoop_stop (by omega), scanLoop_stop (by omega)]
    rw [scanLoop, scanLoop, if_pos high, if_pos high]
    dsimp only
    split
    · exact next le_rfl rfl
    · exact next (scanAdvance_gt _ _) (scanCommit_frame _ _).ops

/-- Settles O42: one more iteration than the bound allows changes nothing. -/
theorem scanLoopIsTheWhileLoop : Obligations.ScanLoopIsTheWhileLoop := by
  intro n p s bound
  rw [scanLoop_bound bound (Nat.le_succ_of_le bound), scanLoop]

/-! ### How SCAN ends -/

theorem exec_scan (s : State) : exec .scan s = .next (complete (scanBody s)) :=
  exec_command rfl

theorem scanBody_badWindow {s : State} (window : windowOk s = false) :
    scanBody s = .raised .addressRange (clearResults s) := if_pos window

theorem scanBody_window {s : State} (window : windowOk s = true) :
    scanBody s = .finished
      (decide ((scanLoop (s.ops.limit.toNat - s.ops.base.toNat) s.ops.base.toNat
        (clearResults s)).counts.nbad = 0))
      (scanLoop (s.ops.limit.toNat - s.ops.base.toNat) s.ops.base.toNat (clearResults s)) :=
  if_neg (by rw [window]; exact Bool.noConfusion)

/-- Settles O41: the check of the window is SCAN's only one, and its loop changes nothing but the
counters, the latched header, RES and STATUS. -/
theorem scanRaisesOnlyAddressRange : Obligations.ScanRaisesOnlyAddressRange := by
  intro s
  rw [exec_scan]
  refine ⟨fun window => ?_, fun order inside => ?_⟩
  · rw [scanBody_badWindow (Bool.not_eq_true _ ▸ mt windowOk_iff.1 window)]
    rfl
  · rw [scanBody_window (windowOk_iff.2 ⟨order, inside⟩)]
    refine ⟨_, rfl, rfl, rfl, decide_eq_true_iff, ?_, fun short => ?_⟩
    · have frame := (clearResults_frame s).trans
        (scanLoop_frame (s.ops.limit.toNat - s.ops.base.toNat) s.ops.base.toNat (clearResults s))
      have chunk := scanLoop_chunk (s.ops.limit.toNat - s.ops.base.toNat) s.ops.base.toNat
        (clearResults s)
      generalize scanLoop _ _ _ = u at frame chunk
      rw [complete_finished, frame.rest, chunk]
      rfl
    · rw [scanLoop_stop (p := s.ops.base.toNat) (s := clearResults s)
        (show s.ops.limit.toNat < _ by omega)]
      exact ⟨rfl, rfl, rfl⟩

end Sys2Proof.Proofs
end

section
/-! PROOF. Chunks one after another, and the state SCAN and DECODE are in once they have made the
record of each (43_scanner.md R172 to R177): SCAN's change for a valid match, in closed form, takes
the state after some chunks to the state after one more. -/

namespace Sys2Proof.Proofs

open Sys2Proof.Machine Sys2Proof.Safety

/-! ### Chunks -/

/-- A chunk of tag bytes `tag` and data `data` (R63). -/
structure Chunk where
  tag : List Byte
  data : List Byte

def Chunk.bytes (c : Chunk) : List Byte := chunkBytes c.tag c.data

def Chunk.size (c : Chunk) : Nat := 12 + c.data.length

/-- The chunks a container consists of (R68). -/
inductive Chunk.Standard : Chunk → Prop where
  | header {d : List Byte} (h : d.length = 13) : Standard ⟨tagIhdr, d⟩
  | data (d : List Byte) : Standard ⟨tagIdat, d⟩
  | terminal : Standard ⟨tagIend, []⟩

theorem Chunk.Standard.tag_length {c : Chunk} (h : c.Standard) : c.tag.length = 4 := by
  cases h <;> rfl

theorem Chunk.Standard.ascii {c : Chunk} (h : c.Standard) : ascii4 c.tag = true := by
  cases h <;> rfl

theorem Chunk.Standard.kind {c : Chunk} (h : c.Standard) : kindOf c.tag ≠ .other := by
  cases h <;> exact Kind.noConfusion

theorem Chunk.Standard.bytes_length {c : Chunk} (h : c.Standard) : c.bytes.length = c.size := by
  rw [Chunk.bytes, chunkBytes_length, h.tag_length, Chunk.size]

def chunksBytes (cs : List Chunk) : List Byte := cs.flatMap Chunk.bytes

def chunksSize (cs : List Chunk) : Nat := (cs.map Chunk.size).sum

@[simp] theorem chunksSize_nil : chunksSize [] = 0 := rfl

@[simp] theorem chunksSize_append (cs cs' : List Chunk) :
    chunksSize (cs ++ cs') = chunksSize cs + chunksSize cs' := by
  simp [chunksSize]

@[simp] theorem chunksSize_cons (c : Chunk) (cs : List Chunk) :
    chunksSize (c :: cs) = c.size + chunksSize cs := by
  simp [chunksSize]

theorem chunksBytes_length {cs : List Chunk} (h : ∀ c ∈ cs, c.Standard) :
    (chunksBytes cs).length = chunksSize cs := by
  rw [chunksBytes, List.length_flatMap, chunksSize]
  exact congrArg List.sum (List.map_congr_left fun c hc => (h c hc).bytes_length)

/-- R63: a chunk takes at least twelve bytes. -/
theorem length_le_chunksSize (cs : List Chunk) : 12 * cs.length ≤ chunksSize cs := by
  induction cs with
  | nil => exact Nat.zero_le _
  | cons c cs ih => rw [List.length_cons, chunksSize_cons, Chunk.size]; omega

/-! ### The records of chunks -/

/-- How many of the chunks are of kind `k`. -/
def kindsIn (cs : List Chunk) (k : Kind) : Nat := cs.countP (fun c => decide (kindOf c.tag = k))

theorem kindsIn_append (cs cs' : List Chunk) (k : Kind) :
    kindsIn (cs ++ cs') k = kindsIn cs k + kindsIn cs' k := List.countP_append

theorem kindsIn_singleton (c : Chunk) (k : Kind) :
    kindsIn [c] k = if kindOf c.tag = k then 1 else 0 := by
  simp [kindsIn, List.countP_singleton]

/-- The record of a chunk at address `p` whose checksums agree, the chunks `pre` having been met
before it (R172, R175, R182). -/
def chunkRecord (pre : List Chunk) (p : Nat) (c : Chunk) : Rec where
  tag := ofBE32 c.tag
  kind := kindOf c.tag
  tagAddr := p + 4
  index := BitVec.ofNat 32 (kindsIn pre (kindOf c.tag))
  len := BitVec.ofNat 32 c.data.length
  dataAddr := p + 8
  stored := crc32 (c.tag ++ c.data)
  computed := crc32 (c.tag ++ c.data)
  valid := true
  trunc := false
  lenKnown := true
  malformed := false

/-- The records of chunks that follow the chunks `pre`, which stand from address `a`. -/
def chunkRecords (a : Nat) : List Chunk → List Chunk → List ResRecord
  | _, [] => []
  | pre, c :: cs =>
    (chunkRecord pre (a + chunksSize pre) c).words :: chunkRecords a (pre ++ [c]) cs

@[simp] theorem chunkRecords_length (a : Nat) (pre cs : List Chunk) :
    (chunkRecords a pre cs).length = cs.length := by
  induction cs generalizing pre with
  | nil => rfl
  | cons c cs ih => rw [chunkRecords, List.length_cons, List.length_cons, ih]

theorem chunkRecords_append (a : Nat) (pre cs cs' : List Chunk) :
    chunkRecords a pre (cs ++ cs') = chunkRecords a pre cs ++ chunkRecords a (pre ++ cs) cs' := by
  induction cs generalizing pre with
  | nil => simp [chunkRecords]
  | cons c cs ih => simp [chunkRecords, ih]

/-- The record of each chunk. -/
theorem chunkRecords_getElem? {a j : Nat} {cs : List Chunk} {c : Chunk} (pre : List Chunk)
    (h : cs[j]? = some c) : (chunkRecords a pre cs)[j]?
      = some (chunkRecord (pre ++ cs.take j) (a + chunksSize (pre ++ cs.take j)) c).words := by
  induction cs generalizing pre j with
  | nil => cases h
  | cons x cs ih =>
    cases j with
    | zero =>
      cases h
      rw [List.take_zero, List.append_nil]
      rfl
    | succ j =>
      rw [List.take_succ_cons, List.append_cons]
      exact ih (pre ++ [x]) h

/-! ### Storing records -/

/-- RES after storing records from index `i` on. -/
def storeFrom : Nat → List ResRecord → List (Nat × ResRecord) → List (Nat × ResRecord)
  | _, [], res => res
  | i, r :: rs, res => storeFrom (i + 1) rs (cellSet res i r)

theorem storeFrom_append (i : Nat) (rs rs' : List ResRecord) (res : List (Nat × ResRecord)) :
    storeFrom i (rs ++ rs') res = storeFrom (i + rs.length) rs' (storeFrom i rs res) := by
  induction rs generalizing i res with
  | nil => rfl
  | cons r rs ih =>
    rw [List.cons_append, storeFrom, ih, storeFrom, List.length_cons]
    congr 1
    omega

theorem resRecord_storeFrom_before {i j : Nat} (h : j < i) (rs : List ResRecord)
    (res : List (Nat × ResRecord)) : resRecord (storeFrom i rs res) j = resRecord res j := by
  induction rs generalizing i res with
  | nil => rfl
  | cons r rs ih =>
    rw [storeFrom, ih (Nat.lt_succ_of_lt h), resRecord_cellSet_other _ _ (Nat.ne_of_lt h)]

theorem resRecord_storeFrom {i j : Nat} {rs : List ResRecord} {r : ResRecord}
    (h : rs[j]? = some r) (res : List (Nat × ResRecord)) :
    resRecord (storeFrom i rs res) (i + j) = r := by
  induction rs generalizing i j res with
  | nil => cases h
  | cons x rs ih =>
    cases j with
    | zero =>
      cases h
      rw [Nat.add_zero, storeFrom, resRecord_storeFrom_before (Nat.lt_add_one i),
        resRecord_cellSet_same]
    | succ j => rw [storeFrom, ← ih (i := i + 1) h (cellSet res i x)]; congr 1; omega

theorem cellSet_cellSet_same {β : Type} (m : List (Nat × β)) (a : Nat) (v w : β) :
    cellSet (cellSet m a v) a w = cellSet m a w := by
  induction m with
  | nil => simp [cellSet]
  | cons x m ih =>
    obtain ⟨k, y⟩ := x
    rcases Nat.lt_trichotomy a k with h | rfl | h
    · simp [cellSet, h]
    · simp [cellSet]
    · simp [cellSet, Nat.not_lt.2 h.le, Nat.ne_of_gt h, ih]

theorem cellSet_comm {β : Type} (m : List (Nat × β)) {a b : Nat} (h : a < b) (v w : β) :
    cellSet (cellSet m a v) b w = cellSet (cellSet m b w) a v := by
  have nba : ¬ b < a := Nat.not_lt.2 h.le
  have nab : b ≠ a := Nat.ne_of_gt h
  induction m with
  | nil => simp [cellSet, h, nba, nab]
  | cons x m ih =>
    obtain ⟨k, y⟩ := x
    rcases Nat.lt_trichotomy a k with hk | rfl | hk
    · rcases Nat.lt_trichotomy b k with hb | rfl | hb
      · simp [cellSet, hk, hb, h, nba, nab]
      · simp [cellSet, h, nba, nab]
      · simp [cellSet, hk, nba, nab, Nat.not_lt.2 hb.le, Nat.ne_of_gt hb]
    · simp [cellSet, nba, nab]
    · have hkb : k < b := hk.trans h
      simp [cellSet, Nat.not_lt.2 hk.le, Nat.ne_of_gt hk, Nat.not_lt.2 hkb.le, Nat.ne_of_gt hkb, ih]

theorem cellSet_storeFrom {i j : Nat} (h : i < j) (r : ResRecord) (rs : List ResRecord)
    (res : List (Nat × ResRecord)) :
    cellSet (storeFrom j rs res) i r = storeFrom j rs (cellSet res i r) := by
  induction rs generalizing j res with
  | nil => rfl
  | cons x rs ih => rw [storeFrom, ih (Nat.lt_succ_of_lt h), ← cellSet_comm _ h, storeFrom]

/-- Storing the same records again changes nothing. -/
theorem storeFrom_again (i : Nat) (rs : List ResRecord) (res : List (Nat × ResRecord)) :
    storeFrom i rs (storeFrom i rs res) = storeFrom i rs res := by
  induction rs generalizing i res with
  | nil => rfl
  | cons r rs ih =>
    rw [storeFrom, storeFrom, cellSet_storeFrom (Nat.lt_succ_self i), cellSet_cellSet_same, ih]

/-- RES after the records `rs` were emitted to an empty table of `n` places (R173). -/
def storeWithin (n : Nat) (rs : List ResRecord) (res : List (Nat × ResRecord)) :
    List (Nat × ResRecord) := storeFrom 0 (rs.take n) res

theorem storeWithin_again (n : Nat) (rs : List ResRecord) (res : List (Nat × ResRecord)) :
    storeWithin n rs (storeWithin n rs res) = storeWithin n rs res := storeFrom_again _ _ _

theorem resRecord_storeWithin {n j : Nat} {rs : List ResRecord} {r : ResRecord}
    (h : rs[j]? = some r) (room : j < n) (res : List (Nat × ResRecord)) :
    resRecord (storeWithin n rs res) j = r := by
  rw [storeWithin, ← Nat.zero_add j]
  exact resRecord_storeFrom (by rw [List.getElem?_take_of_lt room, h]) res

theorem storeWithin_snoc (n : Nat) (rs : List ResRecord) (r : ResRecord)
    (res : List (Nat × ResRecord)) : storeWithin n (rs ++ [r]) res =
      if rs.length < n then cellSet (storeWithin n rs res) rs.length r
      else storeWithin n rs res := by
  unfold storeWithin
  split
  · rename_i room
    rw [List.take_of_length_le (by simp; omega), List.take_of_length_le room.le, storeFrom_append,
      Nat.zero_add]
    rfl
  · rw [List.take_append_of_le_length (by omega)]

/-! ### The state after the records of chunks -/

/-- The counters after the records of the chunks, none of them bad (R172, R173). -/
def chunkCounts (depth : Nat) (cs : List Chunk) : CountRegs where
  nrec := BitVec.ofNat 32 (min cs.length depth)
  nmatch := BitVec.ofNat 32 cs.length
  nbad := 0
  nihdr := BitVec.ofNat 32 (kindsIn cs .ihdr)
  nidat := BitVec.ofNat 32 (kindsIn cs .idat)
  niend := BitVec.ofNat 32 (kindsIn cs .iend)

/-- The latched header registers: those of the first header chunk (R174, R176). -/
def chunkHeader (cs : List Chunk) : HeaderRegs :=
  match cs.find? (fun c => decide (kindOf c.tag = .ihdr)) with
  | none => HeaderRegs.zero
  | some c => latchedHeader c.data

/-- `s` after SCAN or DECODE made the records of chunks that stand one after another from address
`a`, and of nothing else (R170 to R177); DECODE sets R_TYPE .. R_END besides. -/
def committed (s : State) (a : Nat) (cs : List Chunk) : State :=
  { s with
    counts := chunkCounts s.cfg.resDepth cs
    header := chunkHeader cs
    res := storeWithin s.cfg.resDepth (chunkRecords a [] cs) s.res
    status := { s.status with
      hdrFound := decide (0 < kindsIn cs .ihdr)
      termFound := decide (0 < kindsIn cs .iend)
      resOvf := decide (s.cfg.resDepth < cs.length) } }

/-- The record of each chunk that found room. -/
theorem committed_record {s : State} {a j : Nat} {cs : List Chunk} {c : Chunk}
    (h : cs[j]? = some c) (room : j < s.cfg.resDepth) : resRecord (committed s a cs).res j
      = (chunkRecord (cs.take j) (a + chunksSize (cs.take j)) c).words :=
  resRecord_storeWithin (chunkRecords_getElem? [] h) room s.res

theorem committed_nil (s : State) (a : Nat) : committed s a [] = clearResults s := by
  simp [committed, clearResults, Status.scanCleared, chunkCounts, kindsIn, chunkHeader,
    CountRegs.zero, storeWithin, storeFrom, chunkRecords, State.setStatus, State.setCounts,
    State.setHeader]

/-- R172: the counters of the kinds. -/
theorem kindCount_chunkCounts (depth : Nat) (cs : List Chunk) {k : Kind} (hk : k ≠ .other) :
    kindCount (chunkCounts depth cs) k = BitVec.ofNat 32 (kindsIn cs k) := by
  cases k with
  | other => exact absurd rfl hk
  | _ => rfl

/-- R176: what SCAN latches for a valid record. -/
theorem scanHeaderLatch_valid {r : Rec} (valid : r.valid = true) (s : State) :
    scanHeaderLatch r s = { s with
      header := if r.kind = .ihdr ∧ r.len = 13 ∧ s.status.hdrFound = false
        then latchedHeader (memRead s.buf (r.tagAddr + 4) 13) else s.header
      status := { s.status with
        hdrFound := s.status.hdrFound || decide (r.kind = .ihdr ∧ r.len = 13) } } := by
  unfold scanHeaderLatch
  split
  · rename_i new
    obtain ⟨kind, -, len, first⟩ := new
    simp [kind, len, first, latchHeader, State.setHeader, State.setStatus]
  · rename_i old
    rw [if_neg fun ⟨kind, len, first⟩ => old ⟨kind, valid, len, first⟩]
    cases first : s.status.hdrFound with
    | true => rw [Bool.true_or, ← first]
    | false =>
      rw [Bool.false_or, decide_eq_false fun ⟨kind, len⟩ => old ⟨kind, valid, len, first⟩, ← first]

/-- R177: TERM_FOUND in SCAN, for a valid record. -/
theorem scanTerminal_valid {r : Rec} (valid : r.valid = true) (s : State) :
    scanTerminal r s = { s with
      status := { s.status with
        termFound := s.status.termFound || decide (r.kind = .iend ∧ r.len = 0) } } := by
  unfold scanTerminal
  split
  · rename_i new
    obtain ⟨kind, -, len⟩ := new
    rw [decide_eq_true ⟨kind, len⟩, Bool.or_true]
    rfl
  · rename_i old
    rw [decide_eq_false fun ⟨kind, len⟩ => old ⟨kind, valid, len⟩, Bool.or_false]

/-- R171, R173: SCAN's change for a valid record. -/
theorem scanCommit_valid {r : Rec} (valid : r.valid = true) (s : State) :
    scanCommit r s = { s with
      counts := { countRecord s.counts r.kind with
        nrec := if s.counts.nrec.toNat < s.cfg.resDepth then s.counts.nrec + 1 else s.counts.nrec }
      header := if r.kind = .ihdr ∧ r.len = 13 ∧ s.status.hdrFound = false
        then latchedHeader (memRead s.buf (r.tagAddr + 4) 13) else s.header
      res := if s.counts.nrec.toNat < s.cfg.resDepth
        then cellSet s.res s.counts.nrec.toNat r.words else s.res
      status := { s.status with
        hdrFound := s.status.hdrFound || decide (r.kind = .ihdr ∧ r.len = 13)
        termFound := s.status.termFound || decide (r.kind = .iend ∧ r.len = 0)
        resOvf := s.status.resOvf || !decide (s.counts.nrec.toNat < s.cfg.resDepth) } } := by
  rw [scanCommit, scanHeaderLatch_valid valid, scanTerminal_valid valid, emitRecord_eq]
  simp only [countMade, State.setCounts, countRecord, valid, if_true]
  by_cases room : s.counts.nrec.toNat < s.cfg.resDepth
  · simp only [room, if_true, decide_true, Bool.not_true, Bool.or_false]
    rfl
  · simp only [room, if_false, decide_false, Bool.not_false, Bool.or_true]
    rfl

/-- R172, R173: one record more. -/
theorem chunkCounts_snoc (depth : Nat) (cs : List Chunk) (c : Chunk) :
    chunkCounts depth (cs ++ [c]) = { countRecord (chunkCounts depth cs) (kindOf c.tag) with
      nrec := if cs.length < depth then (chunkCounts depth cs).nrec + 1
        else (chunkCounts depth cs).nrec } := by
  have next (k : Kind) : BitVec.ofNat 32 (kindsIn (cs ++ [c]) k)
      = if kindOf c.tag = k then BitVec.ofNat 32 (kindsIn cs k) + 1
        else BitVec.ofNat 32 (kindsIn cs k) := by
    rw [kindsIn_append, kindsIn_singleton]
    split
    · exact BitVec.ofNat_add ..
    · rfl
  have nrec : BitVec.ofNat 32 (min (cs ++ [c]).length depth)
      = if cs.length < depth then BitVec.ofNat 32 (min cs.length depth) + 1
        else BitVec.ofNat 32 (min cs.length depth) := by
    rw [List.length_append, List.length_singleton]
    split
    · rw [Nat.min_eq_left (by omega), Nat.min_eq_left (by omega)]
      exact BitVec.ofNat_add ..
    · rw [Nat.min_eq_right (by omega), Nat.min_eq_right (by omega)]
  have nmatch : BitVec.ofNat 32 (cs ++ [c]).length = BitVec.ofNat 32 cs.length + 1 := by
    rw [List.length_append, List.length_singleton]
    exact BitVec.ofNat_add ..
  simp only [chunkCounts, countRecord, next, nrec, nmatch]

theorem chunkCounts_nrec {depth : Nat} {cs : List Chunk} (few : cs.length < 2 ^ 32) :
    (chunkCounts depth cs).nrec.toNat = min cs.length depth :=
  toNat_word (Nat.lt_of_le_of_lt (Nat.min_le_left _ _) few)

theorem chunkHeader_snoc (cs : List Chunk) (c : Chunk) :
    chunkHeader (cs ++ [c]) = if kindOf c.tag = .ihdr ∧ kindsIn cs .ihdr = 0
      then latchedHeader c.data else chunkHeader cs := by
  have none_iff : cs.find? (fun c => decide (kindOf c.tag = .ihdr)) = none
      ↔ kindsIn cs .ihdr = 0 := by
    rw [kindsIn, List.countP_eq_zero, List.find?_eq_none]
  unfold chunkHeader
  rw [List.find?_append]
  cases found : cs.find? (fun c => decide (kindOf c.tag = .ihdr)) with
  | none =>
    by_cases kind : kindOf c.tag = .ihdr <;> simp [none_iff.1 found, kind]
  | some x =>
    have some_ne : ¬ kindsIn cs .ihdr = 0 := fun h => by simp [none_iff.2 h] at found
    simp [some_ne]

/-- The latch of a standard chunk (R176). -/
theorem Chunk.Standard.header_iff {c : Chunk} (std : c.Standard) (pre : List Chunk) (p : Nat) :
    (chunkRecord pre p c).kind = .ihdr ∧ (chunkRecord pre p c).len = 13
      ↔ kindOf c.tag = .ihdr := by
  cases std with
  | header length => simp [chunkRecord, length]
  | data d => exact iff_of_false (fun h => Kind.noConfusion h.1) Kind.noConfusion
  | terminal => exact iff_of_false (fun h => Kind.noConfusion h.1) Kind.noConfusion

/-- TERM_FOUND of a standard chunk (R177). -/
theorem Chunk.Standard.terminal_iff {c : Chunk} (std : c.Standard) (pre : List Chunk) (p : Nat) :
    (chunkRecord pre p c).kind = .iend ∧ (chunkRecord pre p c).len = 0
      ↔ kindOf c.tag = .iend := by
  cases std with
  | header length => exact iff_of_false (fun h => Kind.noConfusion h.1) Kind.noConfusion
  | data d => exact iff_of_false (fun h => Kind.noConfusion h.1) Kind.noConfusion
  | terminal => exact iff_of_true ⟨rfl, rfl⟩ rfl

theorem Chunk.Standard.header_length {c : Chunk} (std : c.Standard) (h : kindOf c.tag = .ihdr) :
    c.data.length = 13 := by
  cases std with
  | header length => exact length
  | data d => cases h
  | terminal => cases h

theorem kindsIn_snoc_pos (cs : List Chunk) (c : Chunk) (k : Kind) :
    decide (0 < kindsIn (cs ++ [c]) k)
      = (decide (0 < kindsIn cs k) || decide (kindOf c.tag = k)) := by
  rw [kindsIn_append, kindsIn_singleton]
  by_cases kind : kindOf c.tag = k <;> simp [kind]

/-- The record of one chunk more takes the state after some chunks to the state after them all. -/
theorem scanCommit_committed {s : State} {a p : Nat} {cs : List Chunk} {c : Chunk}
    (std : c.Standard) (place : p = a + chunksSize cs) (small : p < 2 ^ 32)
    (data : memRead s.buf (p + 8) c.data.length = c.data) :
    scanCommit (chunkRecord cs p c) (committed s a cs) = committed s a (cs ++ [c]) := by
  have few : cs.length < 2 ^ 32 := by
    have := length_le_chunksSize cs
    omega
  have latch : ((chunkRecord cs p c).kind = .ihdr ∧ (chunkRecord cs p c).len = 13 ∧
      decide (0 < kindsIn cs .ihdr) = false) ↔ kindOf c.tag = .ihdr ∧ kindsIn cs .ihdr = 0 := by
    rw [← and_assoc, std.header_iff, decide_eq_false_iff_not, Nat.not_lt, Nat.le_zero]
  have header : (if kindOf c.tag = .ihdr ∧ kindsIn cs .ihdr = 0
        then latchedHeader (memRead s.buf (p + 4 + 4) 13) else chunkHeader cs)
      = chunkHeader (cs ++ [c]) := by
    rw [chunkHeader_snoc]
    refine ite_congr rfl (fun first => ?_) fun _ => rfl
    exact congrArg latchedHeader (std.header_length first.1 ▸ data)
  have records : chunkRecords a [] (cs ++ [c])
      = chunkRecords a [] cs ++ [(chunkRecord cs p c).words] := by
    rw [chunkRecords_append, place]
    rfl
  have counts := chunkCounts_snoc s.cfg.resDepth cs c
  have res := storeWithin_snoc s.cfg.resDepth (chunkRecords a [] cs) (chunkRecord cs p c).words
    s.res
  rw [← records, chunkRecords_length] at res
  have full : decide (s.cfg.resDepth < (cs ++ [c]).length)
      = (decide (s.cfg.resDepth < cs.length) || !decide (cs.length < s.cfg.resDepth)) := by
    rw [List.length_append, List.length_singleton, ← decide_not, ← Bool.decide_or]
    exact decide_eq_decide.2 (by omega)
  rw [scanCommit_valid rfl]
  unfold committed
  simp only [latch, std.header_iff, std.terminal_iff, kindsIn_snoc_pos, chunkCounts_nrec few]
  rw [counts, res, ← header, full]
  by_cases room : cs.length < s.cfg.resDepth
  · rw [Nat.min_eq_left room.le, if_pos room, if_pos room]
    rfl
  · rw [Nat.min_eq_right (Nat.le_of_not_lt room), if_neg (Nat.lt_irrefl _), if_neg room,
      if_neg (Nat.lt_irrefl _), if_neg room, decide_eq_false (Nat.lt_irrefl _),
      decide_eq_false room]
    rfl

end Sys2Proof.Proofs
end

section
/-! PROOF. SCAN of a window that holds exactly chunks whose length fields are no tag values
(43_scanner.md R171 to R179): it finds each of them and nothing else. -/

namespace Sys2Proof.Proofs

open Sys2Proof.Machine Sys2Proof.Safety

/-! ### Where no tag stands -/

theorem memRead_of_holdsAt {m : Memory} {a i n : Nat} {bs : List Byte} (h : HoldsAt m a bs)
    (inside : i + n ≤ bs.length) : memRead m (a + i) n = (bs.drop i).take n := by
  have parts : bs = bs.take i ++ ((bs.drop i).take n ++ (bs.drop i).drop n) := by
    rw [List.take_append_drop, List.take_append_drop]
  rw [parts, holdsAt_append, holdsAt_append] at h
  obtain ⟨-, middle, -⟩ := h
  rw [HoldsAt, List.length_take_of_le (by omega), List.length_take_of_le (by simp; omega)] at middle
  exact middle

/-- R69: every tag begins with the letter I. -/
theorem kindOf_other_of_first {b : Byte} (h : b ≠ 0x49#8) (bs : List Byte) :
    kindOf (b :: bs) = .other := by
  simp [kindOf, tagIhdr, tagIdat, tagIend, h]

/-- R66: no byte of the signature begins a tag. -/
theorem signature_no_match {m : Memory} {a i : Nat} (h : HoldsAt m a signature) (hi : i < 8) :
    kindOf (memRead m (a + i) 4) = .other := by
  have byte : [bufByte m (a + i)] = (signature.drop i).take 1 := memRead_of_holdsAt (n := 1) h hi
  have noI : ∀ i < 8, (signature.drop i).take 1 ≠ [0x49] := by decide
  exact kindOf_other_of_first (fun e => noI i hi (by rw [← byte, e]; rfl)) _

/-- The length of the chunk's data is not the value of a tag (R179). -/
def Chunk.Unambiguous (c : Chunk) : Prop :=
  c.data.length ≠ 0x49484452 ∧ c.data.length ≠ 0x49444154 ∧ c.data.length ≠ 0x49454E44

/-- A length field that is no tag value is no tag. -/
theorem kindOf_toBE32_other {n : Nat} (small : n < 2 ^ 32)
    (h : n ≠ 0x49484452 ∧ n ≠ 0x49444154 ∧ n ≠ 0x49454E44) :
    kindOf (toBE32 (BitVec.ofNat 32 n)) = .other := by
  have differ {tag : List Byte} {v : Nat} (hv : (ofBE32 tag).toNat = v) (hn : n ≠ v) :
      toBE32 (BitVec.ofNat 32 n) ≠ tag := by
    rintro rfl
    rw [ofBE32_toBE32, toNat_word small] at hv
    exact hn hv
  obtain ⟨ihdr, idat, iend⟩ := h
  simp [kindOf, differ (tag := tagIhdr) rfl ihdr, differ (tag := tagIdat) rfl idat,
    differ (tag := tagIend) rfl iend]

/-- No tag begins in the length field of a chunk but at its first byte. -/
theorem lengthField_no_match {m : Memory} {p i : Nat} {c : Chunk} (std : c.Standard)
    (chunk : ChunkAt m p c.tag c.data) (small : c.data.length < 2 ^ 32) (h : c.Unambiguous)
    (hi : i < 4) : kindOf (memRead m (p + i) 4) = .other := by
  have start : HoldsAt m p (toBE32 (BitVec.ofNat 32 c.data.length) ++ c.tag) := by
    rw [holdsAt_append]
    exact ⟨chunk.length, by rw [HoldsAt, std.tag_length]; exact chunk.tagged⟩
  have bytes := memRead_of_holdsAt start (i := i) (n := 4)
    (by rw [List.length_append, std.tag_length]; simp; omega)
  rw [bytes]
  interval_cases i
  · exact kindOf_toBE32_other small h
  all_goals cases std <;> simp [toBE32, kindOf, tagIhdr, tagIdat, tagIend]

/-! ### The loop -/

theorem scanLoop_skip {n p : Nat} {s : State} (bound : s.ops.limit.toNat - p ≤ n)
    (other : kindOf (memRead s.buf p 4) = .other) : scanLoop n p s = scanLoop n (p + 1) s := by
  rw [scanLoopIsTheWhileLoop n p s bound, if_pos other]
  split
  · rfl
  · rw [scanLoop_stop (by omega)]

theorem scanLoop_skips {n p k : Nat} {s : State} (bound : s.ops.limit.toNat - p ≤ n)
    (other : ∀ i, i < k → kindOf (memRead s.buf (p + i) 4) = .other) :
    scanLoop n p s = scanLoop n (p + k) s := by
  induction k with
  | zero => rfl
  | succ k ih =>
    rw [ih fun i hi => other i (Nat.lt_succ_of_lt hi), Nat.add_succ]
    exact scanLoop_skip (by omega) (other k (Nat.lt_succ_self k))

/-- R175: the record of a match whose chunk lies in the window and has its checksum. -/
theorem scanRecord_of_chunkAt {s : State} {a p : Nat} {cs : List Chunk} {c : Chunk}
    (std : c.Standard) (chunk : ChunkAt s.buf p c.tag c.data) (low : s.ops.base.toNat ≤ p)
    (high : p + c.size ≤ s.ops.limit.toNat) :
    scanRecord (committed s a cs) c.tag (p + 4) = chunkRecord cs p c := by
  have small : c.data.length < 2 ^ 32 := by
    have := s.ops.limit.isLt
    unfold Chunk.size at high
    omega
  have length := toNat_word small
  have known : matchLenKnown (committed s a cs) (p + 4) = true :=
    decide_eq_true (Nat.add_le_add_right low 4)
  have len : matchLen (committed s a cs) (p + 4) = BitVec.ofNat 32 c.data.length := by
    rw [matchLen, if_pos known, Nat.add_sub_cancel]
    exact (congrArg ofBE32 chunk.length).trans (ofBE32_toBE32 _)
  have trunc : matchTrunc (committed s a cs) (p + 4) = false := by
    rw [matchTrunc, known, len, length]
    exact decide_eq_false (by show ¬ s.ops.limit.toNat < _; unfold Chunk.size at high; omega)
  have stored : matchStored (committed s a cs) (p + 4) = crc32 (c.tag ++ c.data) := by
    rw [matchStored, trunc, len, length]
    exact (congrArg ofBE32 chunk.stored).trans (ofBE32_toBE32 _)
  have computed : matchCalc (committed s a cs) (p + 4) = crc32 (c.tag ++ c.data) := by
    rw [matchCalc, trunc, len, length]
    exact congrArg crc32 chunk.covered
  have valid : matchValid (committed s a cs) (p + 4) = true := by
    rw [matchValid, trunc, stored, computed]
    exact decide_eq_true rfl
  have malformed : matchMalformed (committed s a cs) c.tag (p + 4) = false := by
    rw [matchMalformed, valid, len]
    cases std with
    | header h => rw [h]; rfl
    | data d => rfl
    | terminal => rfl
  have index : kindCount (committed s a cs).counts (kindOf c.tag)
      = BitVec.ofNat 32 (kindsIn cs (kindOf c.tag)) := kindCount_chunkCounts _ _ std.kind
  rw [scanRecord_eq, matchRecord, known, len, trunc, stored, computed, valid, malformed, index]
  rfl

/-- R171, R178: SCAN finds the chunk at its position and goes on at its end. -/
theorem scanLoop_chunkAt {s : State} {a p n : Nat} {cs : List Chunk} {c : Chunk}
    (std : c.Standard) (unambiguous : c.Unambiguous) (chunk : ChunkAt s.buf p c.tag c.data)
    (place : p = a + chunksSize cs) (low : s.ops.base.toNat ≤ p)
    (high : p + c.size ≤ s.ops.limit.toNat) (bound : s.ops.limit.toNat - p ≤ n) :
    scanLoop n p (committed s a cs) = scanLoop n (p + c.size) (committed s a (cs ++ [c])) := by
  have := s.ops.limit.isLt
  have size : c.size = 12 + c.data.length := rfl
  have tag : memRead (committed s a cs).buf (p + 4) 4 = c.tag := chunk.tagged
  have skip : scanLoop n p (committed s a cs) = scanLoop n (p + 4) (committed s a cs) :=
    scanLoop_skips bound fun i hi => lengthField_no_match std chunk (by omega) unambiguous hi
  have fits : p + 4 + 4 ≤ (committed s a cs).ops.limit.toNat := by
    show _ ≤ s.ops.limit.toNat
    omega
  have advance : scanAdvance (chunkRecord cs p c) (p + 4) = p + c.size := by
    have length : (chunkRecord cs p c).len.toNat = c.data.length := toNat_word (by omega)
    rw [scanAdvance, length, if_pos (show (chunkRecord cs p c).valid = true from rfl)]
    omega
  rw [skip, scanLoopIsTheWhileLoop n (p + 4) _ (by show s.ops.limit.toNat - _ ≤ n; omega),
    if_pos fits, tag, if_neg std.kind, scanRecord_of_chunkAt std chunk low high, advance,
    scanCommit_committed std place (by omega) chunk.data]

/-- R179: SCAN finds chunks that stand one after another. -/
theorem scanLoop_chunks {s : State} {a p n : Nat} {pre cs : List Chunk}
    (std : ∀ c ∈ cs, c.Standard ∧ c.Unambiguous) (holds : HoldsAt s.buf p (chunksBytes cs))
    (place : p = a + chunksSize pre) (low : s.ops.base.toNat ≤ p)
    (high : p + chunksSize cs ≤ s.ops.limit.toNat) (bound : s.ops.limit.toNat - p ≤ n) :
    scanLoop n p (committed s a pre)
      = scanLoop n (p + chunksSize cs) (committed s a (pre ++ cs)) := by
  induction cs generalizing p pre with
  | nil => rw [chunksSize_nil, Nat.add_zero, List.append_nil]
  | cons c cs ih =>
    obtain ⟨hc, unambiguous⟩ := std c List.mem_cons_self
    obtain ⟨bytes, rest⟩ :=
      holdsAt_append.1 (show HoldsAt _ _ (c.bytes ++ chunksBytes cs) from holds)
    rw [hc.bytes_length] at rest
    rw [chunksSize_cons] at high
    rw [scanLoop_chunkAt hc unambiguous (chunkAt_of_holdsAt hc.tag_length bytes) place low
        (by omega) bound,
      ih (fun x hx => std x (List.mem_cons_of_mem _ hx)) rest (by simp [place]; omega) (by omega)
        (by omega) (by omega),
      chunksSize_cons, Nat.add_assoc, List.append_assoc, List.singleton_append]

/-- R171, R179: SCAN of a window that holds exactly chunks from address `a` on and no tag before. -/
theorem scanBody_chunks {s : State} {a : Nat} {cs : List Chunk}
    (std : ∀ c ∈ cs, c.Standard ∧ c.Unambiguous) (holds : HoldsAt s.buf a (chunksBytes cs))
    (low : s.ops.base.toNat ≤ a)
    (before : ∀ i, i < a - s.ops.base.toNat →
      kindOf (memRead s.buf (s.ops.base.toNat + i) 4) = .other)
    (limit : s.ops.limit.toNat = a + chunksSize cs) (inside : s.ops.limit.toNat ≤ bufSize s) :
    scanBody s = .finished true (committed s a cs) := by
  have bound := le_refl (s.ops.limit.toNat - s.ops.base.toNat)
  have skip := scanLoop_skips (s := clearResults s) bound before
  have found := scanLoop_chunks (a := a) (pre := []) std holds rfl low limit.ge
    (n := s.ops.limit.toNat - s.ops.base.toNat) (by omega)
  rw [committed_nil, ← limit, List.nil_append, scanLoop_stop (s := committed s a cs)
    (by show s.ops.limit.toNat < _; omega)] at found
  rw [scanBody_window (windowOk_iff.2 ⟨by omega, inside⟩), skip, Nat.add_sub_cancel' low, found]
  rfl

/-! ### Containers -/

/-- The chunks of the container of header record `hdr` and data `ds` (R68). -/
def containerChunks (hdr : List Byte) (ds : List (List Byte)) : List Chunk :=
  ⟨tagIhdr, hdr⟩ :: (ds.map (Chunk.mk tagIdat) ++ [⟨tagIend, []⟩])

theorem dataChunks_bytes (ds : List (List Byte)) :
    chunksBytes (ds.map (Chunk.mk tagIdat)) = (ds.map (chunkBytes tagIdat)).flatten := by
  rw [chunksBytes, List.flatMap, List.map_map]
  rfl

theorem chunksBytes_append (cs cs' : List Chunk) :
    chunksBytes (cs ++ cs') = chunksBytes cs ++ chunksBytes cs' := List.flatMap_append

theorem chunksBytes_cons (c : Chunk) (cs : List Chunk) :
    chunksBytes (c :: cs) = c.bytes ++ chunksBytes cs := List.flatMap_cons

theorem chunksBytes_singleton (c : Chunk) : chunksBytes [c] = c.bytes := List.flatMap_singleton _ _

theorem container_eq (hdr : List Byte) (ds : List (List Byte)) :
    container hdr ds = signature ++ chunksBytes (containerChunks hdr ds) := by
  rw [container, containerChunks, chunksBytes_cons, chunksBytes_append, dataChunks_bytes,
    chunksBytes_singleton]
  simp only [Chunk.bytes, List.append_assoc]

theorem containerChunks_standard {hdr : List Byte} (length : hdr.length = 13)
    (ds : List (List Byte)) : ∀ c ∈ containerChunks hdr ds, c.Standard := by
  intro c hc
  simp only [containerChunks, List.mem_cons, List.mem_append, List.mem_map, List.not_mem_nil,
    or_false] at hc
  rcases hc with rfl | ⟨d, -, rfl⟩ | rfl
  · exact .header length
  · exact .data d
  · exact .terminal

theorem containerChunks_unambiguous {hdr : List Byte} (length : hdr.length = 13)
    {ds : List (List Byte)} (h : ∀ d ∈ ds, (Chunk.mk tagIdat d).Unambiguous) :
    ∀ c ∈ containerChunks hdr ds, c.Unambiguous := by
  intro c hc
  simp only [containerChunks, List.mem_cons, List.mem_append, List.mem_map, List.not_mem_nil,
    or_false] at hc
  rcases hc with rfl | ⟨d, hd, rfl⟩ | rfl
  · simp [Chunk.Unambiguous, length]
  · exact h d hd
  · simp [Chunk.Unambiguous]

@[simp] theorem containerChunks_length (hdr : List Byte) (ds : List (List Byte)) :
    (containerChunks hdr ds).length = ds.length + 2 := by
  simp [containerChunks]

/-- R68: a container is its signature and its chunks. -/
theorem container_length {hdr : List Byte} (length : hdr.length = 13) (ds : List (List Byte)) :
    (container hdr ds).length = 8 + chunksSize (containerChunks hdr ds) := by
  rw [container_eq, List.length_append, chunksBytes_length (containerChunks_standard length ds)]
  rfl

theorem kindsIn_dataChunks (ds : List (List Byte)) (k : Kind) :
    kindsIn (ds.map (Chunk.mk tagIdat)) k = if k = .idat then ds.length else 0 := by
  have kind : kindOf tagIdat = .idat := rfl
  by_cases hk : k = .idat
  · simp [kindsIn, List.countP_map, Function.comp_def, kind, hk]
  · simp [kindsIn, List.countP_map, Function.comp_def, kind, hk, Ne.symm hk]

theorem kindsIn_cons (c : Chunk) (cs : List Chunk) (k : Kind) :
    kindsIn (c :: cs) k = (if kindOf c.tag = k then 1 else 0) + kindsIn cs k := by
  rw [← List.singleton_append, kindsIn_append, kindsIn_singleton]

theorem kindsIn_containerChunks (hdr : List Byte) (ds : List (List Byte)) (k : Kind) :
    kindsIn (containerChunks hdr ds) k
      = match k with | .ihdr => 1 | .idat => ds.length | .iend => 1 | .other => 0 := by
  rw [containerChunks, kindsIn_cons, kindsIn_append, kindsIn_singleton, kindsIn_dataChunks]
  cases k <;> simp [show kindOf tagIhdr = .ihdr from rfl, show kindOf tagIend = .iend from rfl]

/-- R43: the counters after the records of a container. -/
theorem chunkCounts_containerChunks (depth : Nat) (hdr : List Byte) (ds : List (List Byte)) :
    chunkCounts depth (containerChunks hdr ds) =
      { nrec := BitVec.ofNat 32 (min (ds.length + 2) depth)
        nmatch := BitVec.ofNat 32 (ds.length + 2)
        nbad := 0, nihdr := 1, nidat := BitVec.ofNat 32 ds.length, niend := 1 } := by
  simp only [chunkCounts, kindsIn_containerChunks, containerChunks_length]
  rfl

/-! ### The chunk of a stored record -/

/-- Chunks that stand one after another stand each at its own place. -/
theorem chunkAt_of_getElem? {m : Memory} {a j : Nat} {cs : List Chunk} {c : Chunk}
    (std : ∀ c ∈ cs, c.Standard) (holds : HoldsAt m a (chunksBytes cs)) (h : cs[j]? = some c) :
    ChunkAt m (a + chunksSize (cs.take j)) c.tag c.data := by
  induction cs generalizing a j with
  | nil => cases h
  | cons x cs ih =>
    have hx := std x List.mem_cons_self
    obtain ⟨bytes, rest⟩ := holdsAt_append.1 (chunksBytes_cons x cs ▸ holds)
    cases j with
    | zero =>
      cases h
      exact chunkAt_of_holdsAt hx.tag_length bytes
    | succ j =>
      rw [List.take_succ_cons, chunksSize_cons, ← Nat.add_assoc, ← hx.bytes_length]
      exact ih (fun c hc => std c (List.mem_cons_of_mem _ hc)) rest h

theorem chunksSize_take_le {j : Nat} {cs : List Chunk} {c : Chunk} (h : cs[j]? = some c) :
    chunksSize (cs.take j) + c.size ≤ chunksSize cs := by
  induction cs generalizing j with
  | nil => cases h
  | cons x cs ih =>
    cases j with
    | zero => cases h; simp
    | succ j =>
      have := ih (j := j) h
      simp only [List.take_succ_cons, chunksSize_cons]
      omega

/-- The record `r` describes a valid chunk `c` of the memory `m` (R47, R48). -/
structure Describes (m : Memory) (r : ResRecord) (c : Chunk) : Prop where
  tag : r.tag = ofBE32 c.tag
  len : r.len.toNat = c.data.length
  data : HoldsAt m r.dataAddr.toNat c.data
  valid : r.flags.getLsbD 0 = true
  whole : r.flags.getLsbD 1 = false
  wellFormed : r.flags.getLsbD 3 = false

theorem chunkRecord_dataAddr {p : Nat} (small : p + 8 < 2 ^ 32) (pre : List Chunk) (c : Chunk) :
    (chunkRecord pre p c).words.dataAddr.toNat = p + 8 := toNat_word small

/-- The stored record of each chunk describes it. -/
theorem committed_describes {s : State} {a j : Nat} {cs : List Chunk} {c : Chunk}
    (std : ∀ c ∈ cs, c.Standard) (holds : HoldsAt s.buf a (chunksBytes cs))
    (small : a + chunksSize cs < 2 ^ 32) (h : cs[j]? = some c) (room : j < s.cfg.resDepth) :
    Describes s.buf (resRecord (committed s a cs).res j) c := by
  have chunk := chunkAt_of_getElem? std holds h
  have inside := chunksSize_take_le h
  have size : c.size = 12 + c.data.length := rfl
  rw [committed_record h room]
  refine ⟨rfl, toNat_word (by omega), ?_, ?_, ?_, ?_⟩
  · rw [chunkRecord_dataAddr (by omega)]
    exact chunk.data
  · exact (flags_getLsbD _ 0).trans (by simp [chunkRecord])
  · exact (flags_getLsbD _ 1).trans (by simp [chunkRecord])
  · exact (flags_getLsbD _ 3).trans (by simp [chunkRecord])

/-! ### The chunks of a container -/

section
variable {hdr : List Byte} {ds : List (List Byte)} {k : Nat}

theorem containerChunks_data {d : List Byte} (h : ds[k]? = some d) :
    (containerChunks hdr ds)[k + 1]? = some ⟨tagIdat, d⟩ := by
  have hk : k < ds.length := (List.getElem?_eq_some_iff.1 h).1
  simpa [containerChunks, List.getElem?_append, hk] using h

theorem containerChunks_terminal :
    (containerChunks hdr ds)[ds.length + 1]? = some ⟨tagIend, []⟩ := by
  simp [containerChunks]

theorem containerChunks_take (h : k ≤ ds.length) : (containerChunks hdr ds).take (k + 1)
    = ⟨tagIhdr, hdr⟩ :: (ds.take k).map (Chunk.mk tagIdat) := by
  simp [containerChunks, List.take_append_of_le_length, h, List.map_take]

theorem kindsIn_containerChunks_take (h : k ≤ ds.length) :
    kindsIn ((containerChunks hdr ds).take (k + 1)) .idat = k := by
  rw [containerChunks_take h, kindsIn_cons, kindsIn_dataChunks, List.length_take, if_pos rfl,
    if_neg (show kindOf tagIhdr ≠ .idat by decide), Nat.zero_add, Nat.min_eq_left h]

/-- R68: the terminal chunk takes twelve bytes. -/
theorem chunksSize_containerChunks : chunksSize (containerChunks hdr ds)
    = chunksSize ((containerChunks hdr ds).take (ds.length + 1)) + 12 := by
  rw [containerChunks_take le_rfl, List.take_length, containerChunks, chunksSize_cons,
    chunksSize_append, ← Nat.add_assoc]
  rfl

theorem containerChunks_getElem? (h : k < ds.length + 2) :
    ∃ c, (containerChunks hdr ds)[k]? = some c :=
  ⟨_, List.getElem?_eq_getElem (by rwa [containerChunks_length])⟩

end

/-- A byte packed above the bits of a word. -/
theorem toNat_or_byte {x : Word} {k : Nat} (hx : x.toNat < 2 ^ k) (hk : k ≤ 24) (y : Byte) :
    (x ||| (y.setWidth 32 <<< k)).toNat = x.toNat + y.toNat * 2 ^ k := by
  have wide : (y.setWidth 32).toNat = y.toNat :=
    (BitVec.toNat_setWidth ..).trans (Nat.mod_eq_of_lt (Nat.lt_trans y.isLt (by decide)))
  have fits : y.toNat <<< k < 2 ^ 32 := by
    rw [Nat.shiftLeft_eq]
    calc y.toNat * 2 ^ k < 2 ^ 8 * 2 ^ k := Nat.mul_lt_mul_of_pos_right y.isLt (Nat.two_pow_pos k)
      _ ≤ 2 ^ 8 * 2 ^ 24 := Nat.mul_le_mul_left _ (Nat.pow_le_pow_right (by decide) hk)
  rw [BitVec.toNat_or, BitVec.toNat_shiftLeft, wide, Nat.mod_eq_of_lt fits, Nat.or_comm,
    ← Nat.shiftLeft_add_eq_or_of_lt hx, Nat.shiftLeft_eq, Nat.add_comm]

/-- R34: the little-endian packing of four bytes. -/
theorem ofBE32_reverse (a b c d : Byte) : ofBE32 [d, c, b, a]
    = a.setWidth 32 ||| (b.setWidth 32 <<< 8) ||| (c.setWidth 32 <<< 16) |||
      (d.setWidth 32 <<< 24) := by
  have ha : (a.setWidth 32).toNat = a.toNat := by have := a.isLt; simp; omega
  have := a.isLt
  have := b.isLt
  have := c.isLt
  have two := toNat_or_byte (x := a.setWidth 32) (k := 8) (by omega) (by decide) b
  have three := toNat_or_byte (x := a.setWidth 32 ||| (b.setWidth 32 <<< 8)) (k := 16) (by omega)
    (by decide) c
  have four := toNat_or_byte (k := 24)
    (x := a.setWidth 32 ||| (b.setWidth 32 <<< 8) ||| (c.setWidth 32 <<< 16)) (by omega)
    (by decide) d
  apply BitVec.eq_of_toNat_eq
  rw [ofBE32_four, four, three, two, ha]
  omega

/-- R174: the header registers a 13-byte record latches. -/
theorem latchedHeader_eq {h : List Byte} (length : h.length = 13) : latchedHeader h =
    { width := ofBE32 (h.take 4), height := ofBE32 ((h.drop 4).take 4)
      hparam := ofBE32 ((h.drop 8).take 4).reverse, hilace := (h.getD 12 0).setWidth 32 } := by
  have bytes : (h.drop 8).take 4 = [byteAt h 8, byteAt h 9, byteAt h 10, byteAt h 11] := by
    refine List.ext_getElem (by simp [length]) fun i hi _ => ?_
    have hi : i < 4 := lt_of_lt_of_le hi (List.length_take_le _ _)
    interval_cases i <;> simp [byteAt, length]
  rw [bytes]
  simp only [latchedHeader, List.reverse_cons, List.reverse_nil, List.nil_append, List.cons_append,
    ofBE32_reverse]
  rfl

/-- Settles O44: SCAN passes over the signature and finds the chunks of the container. -/
theorem scanFindsEveryChunkOfAContainer : Obligations.ScanFindsEveryChunkOfAContainer := by
  intro s hdr ds length _ unambiguous holds limit inside
  have std := containerChunks_standard length ds
  rw [container_eq, holdsAt_append] at holds
  obtain ⟨sig, chunks⟩ := holds
  have chunks : HoldsAt s.buf (s.ops.base.toNat + 8) (chunksBytes (containerChunks hdr ds)) :=
    chunks
  rw [container_length length, ← Nat.add_assoc] at limit
  have small : s.ops.base.toNat + 8 + chunksSize (containerChunks hdr ds) < 2 ^ 32 :=
    limit ▸ s.ops.limit.isLt
  have few := length_le_chunksSize (containerChunks hdr ds)
  rw [containerChunks_length] at few
  have body := scanBody_chunks
    (fun c hc => ⟨std c hc, containerChunks_unambiguous length unambiguous c hc⟩) chunks
    (Nat.le_add_right _ 8) (fun i hi => signature_no_match sig (by omega)) limit inside
  have describes {j : Nat} {c : Chunk} (h : (containerChunks hdr ds)[j]? = some c)
      (room : j < s.cfg.resDepth) := committed_describes std chunks small h room
  have record {j : Nat} {c : Chunk} (h : (containerChunks hdr ds)[j]? = some c)
      (room : j < s.cfg.resDepth) :=
    committed_record (s := s) (a := s.ops.base.toNat + 8) h room
  have counts : (committed s (s.ops.base.toNat + 8) (containerChunks hdr ds)).counts = _ :=
    chunkCounts_containerChunks s.cfg.resDepth hdr ds
  have found (k : Kind) := kindsIn_containerChunks hdr ds k
  rw [exec_scan, body, complete_finished]
  refine ⟨_, rfl, rfl, rfl, ?_, ?_, ?_, ?_, ?_, ?_, ?_, latchedHeader_eq length, fun depth => ?_⟩
  · exact decide_eq_true (by rw [found]; exact Nat.one_pos)
  · exact decide_eq_true (by rw [found]; exact Nat.one_pos)
  · rw [counts]; exact toNat_word (by omega)
  · rw [counts]
  · rw [counts]
  · rw [counts]; exact toNat_word (by omega)
  · rw [counts]
  have h0 := describes (j := 0) rfl (by omega)
  have hn := describes containerChunks_terminal (by omega)
  refine ⟨?_, ?_, h0.tag, ?_, h0.data, fun k d hd => ?_, hn.tag, ?_, ?_, fun j hj => ?_⟩
  · exact decide_eq_false (by rw [containerChunks_length]; omega)
  · rw [counts, Nat.min_eq_left depth]; exact toNat_word (by omega)
  · exact BitVec.eq_of_toNat_eq (h0.len.trans length)
  · have hk : k < ds.length := (List.getElem?_eq_some_iff.1 hd).1
    have r := describes (containerChunks_data hd) (by omega)
    refine ⟨r.tag, ?_, r.len, r.data⟩
    rw [record (containerChunks_data hd) (by omega)]
    refine (congrArg (fun i => (BitVec.ofNat 32 i).toNat)
      (kindsIn_containerChunks_take hk.le)).trans ?_
    exact toNat_word (by omega)
  · exact BitVec.eq_of_toNat_eq hn.len
  · have size := chunksSize_containerChunks (hdr := hdr) (ds := ds)
    rw [record containerChunks_terminal (by omega)]
    rw [chunkRecord_dataAddr (by omega)]
    omega
  · obtain ⟨c, hc⟩ := containerChunks_getElem? (hdr := hdr) hj
    have r := describes hc (by omega)
    exact ⟨r.valid, r.wellFormed⟩

end Sys2Proof.Proofs
end

section
/-! PROOF. One iteration of DECODE's loop (43_scanner.md R180 to R186), in closed form: the error
the chunk at its position raises and the state at the raise, or the record it is accepted with. -/

namespace Sys2Proof.Proofs

open Sys2Proof.Machine Sys2Proof.Safety

/-! ### The fields read at a position -/

def fieldTag (s : State) (p : Nat) : List Byte := memRead s.buf (p + 4) 4

def fieldLen (s : State) (p : Nat) : Word := ofBE32 (memRead s.buf p 4)

def fieldStored (s : State) (p : Nat) : Word :=
  ofBE32 (memRead s.buf (p + 8 + (fieldLen s p).toNat) 4)

/-- The checksum of the tag and the data (R182). -/
def fieldSum (s : State) (p : Nat) : Word :=
  crc32 (memRead s.buf (p + 4) (4 + (fieldLen s p).toNat))

/-- R_TYPE .. R_END of the chunk (R182). -/
def fieldRegs (s : State) (p : Nat) : ChunkRegs :=
  readChunkRegs (p + 4) (fieldTag s p) (fieldLen s p) (fieldStored s p) (fieldSum s p)

/-- The record of a chunk that passes the checks of `read_chunk` (R182). -/
def readRecord (s : State) (p : Nat) : Rec where
  tag := ofBE32 (fieldTag s p)
  kind := kindOf (fieldTag s p)
  tagAddr := p + 4
  index := kindCount s.counts (kindOf (fieldTag s p))
  len := fieldLen s p
  dataAddr := p + 8
  stored := fieldStored s p
  computed := fieldSum s p
  valid := true
  trunc := false
  lenKnown := true
  malformed := false

/-- The errors of a chunk in the wrong place (R183, R184): its checksums agree. -/
def misplaced (e : CmdError) : Bool := decide (e = .malformedHeader ∨ e = .badStructure)

/-- The errors after which R_TYPE .. R_END describe the chunk (R182). -/
def summed (e : CmdError) : Bool := decide (e = .checksumMismatch) || misplaced e

/-- The record of a chunk that raises `e` (R182 to R184). -/
def faultRecord (e : CmdError) (s : State) (p : Nat) : Rec :=
  { readRecord s p with
    dataAddr := if misplaced e then p + 8 else 0
    stored := if summed e then fieldStored s p else 0
    computed := if summed e then fieldSum s p else 0
    valid := misplaced e
    trunc := decide (e = .truncatedBuffer)
    malformed := decide (e = .malformedHeader ∧ fieldTag s p = tagIhdr) }

/-- DECODE's state in which the record of a chunk is emitted (R172, R182). -/
def chunkRead (sum : Bool) (s : State) (p : Nat) : State :=
  (countMade (kindOf (fieldTag s p)) s).setChunk (if sum then fieldRegs s p else s.chunk)

/-- DECODE's state where the chunk raises `e`: without room for a length and a tag there is no
record (R182). -/
def faulted (e : CmdError) (s : State) (p : Nat) : State :=
  if s.ops.limit.toNat < p + 8 then s
  else emitRecord (faultRecord e s p) (chunkRead (summed e) s p)

/-! ### The checks -/

/-- The error `read_chunk` raises (R182). -/
def readFault (s : State) (p : Nat) : Option CmdError :=
  if s.ops.limit.toNat < p + 8 then some .truncatedBuffer
  else if ascii4 (fieldTag s p) = false then some .invalidTypeTag
  else if s.ops.limit.toNat < p + 12 + (fieldLen s p).toNat then some .truncatedBuffer
  else if fieldStored s p ≠ fieldSum s p then some .checksumMismatch
  else none

/-- A header with the defaults and dimensions other than 0 (R184). -/
abbrev DefaultHeaderAt (s : State) (p : Nat) : Prop :=
  fieldTag s p = tagIhdr ∧ fieldLen s p = 13 ∧ ofBE32 (memRead s.buf (p + 8) 4) ≠ 0 ∧
    ofBE32 (memRead s.buf (p + 12) 4) ≠ 0 ∧ memRead s.buf (p + 16) 5 = [8, 2, 0, 0, 0]

/-- A chunk R183 allows after a header and data chunks of data `ds`. -/
abbrev DataOrTerminalAt (ds : List (List Byte)) (s : State) (p : Nat) : Prop :=
  fieldTag s p = tagIdat ∨ (ds ≠ [] ∧ fieldTag s p = tagIend ∧ fieldLen s p = 0)

/-- The error of a chunk in its place, `h` being the dimensions of the header accepted before, if
any (R183, R184). -/
def placeFault (h : Option (Word × Word)) (ds : List (List Byte)) (s : State) (p : Nat) :
    Option CmdError :=
  if h = none then if DefaultHeaderAt s p then none else some .malformedHeader
  else if DataOrTerminalAt ds s p then none else some .badStructure

/-- The error the chunk at `p` raises (R180). -/
def nextFault (h : Option (Word × Word)) (ds : List (List Byte)) (s : State) (p : Nat) :
    Option CmdError :=
  (readFault s p).or (placeFault h ds s p)

/-- DECODE's phase after the chunks accepted (R183). -/
def phaseOf : Option (Word × Word) → List (List Byte) → Phase
  | none, _ => .expectHdr
  | some _, [] => .expectData
  | some _, _ :: _ => .inData

/-- The phase after a chunk of kind `k`. -/
def phaseAfter (k : Kind) : Phase := if k = .ihdr then .expectData else .inData

/-! ### Tags and kinds -/

theorem kindOf_eq_ihdr {tag : List Byte} : kindOf tag = .ihdr ↔ tag = tagIhdr := by
  unfold kindOf
  split_ifs with h <;> simp_all

theorem kindOf_eq_idat {tag : List Byte} : kindOf tag = .idat ↔ tag = tagIdat := by
  unfold kindOf
  split_ifs with h h' <;> simp_all [tagIhdr, tagIdat]

theorem kindOf_eq_iend {tag : List Byte} : kindOf tag = .iend ↔ tag = tagIend := by
  unfold kindOf
  split_ifs with h h' h'' <;> simp_all [tagIhdr, tagIdat, tagIend]

/-! ### One iteration -/

section
variable {s : State} {p : Nat}

/-- R182, check by check. -/
theorem readChunk_eq : readChunk p s =
    if s.ops.limit.toNat < p + 8 then .error (.truncatedBuffer, s)
    else if ascii4 (fieldTag s p) = false then
      .error (.invalidTypeTag,
        emitRecord (faultRecord .invalidTypeTag s p) (chunkRead (summed .invalidTypeTag) s p))
    else if s.ops.limit.toNat < p + 12 + (fieldLen s p).toNat then
      .error (.truncatedBuffer,
        emitRecord (faultRecord .truncatedBuffer s p) (chunkRead (summed .truncatedBuffer) s p))
    else if fieldStored s p ≠ fieldSum s p then
      .error (.checksumMismatch,
        emitRecord (faultRecord .checksumMismatch s p) (chunkRead (summed .checksumMismatch) s p))
    else .ok (readRecord s p, chunkRead true s p) := rfl

/-- R182: the chunk fails a check. -/
theorem readChunk_fault {e : CmdError} (h : readFault s p = some e) :
    readChunk p s = .error (e, faulted e s p) := by
  unfold readFault at h
  unfold faulted
  rw [readChunk_eq]
  split_ifs at h with room tag past sums
  · cases h; rw [if_pos room, if_pos room]
  · cases h; rw [if_neg room, if_neg room, if_pos tag]
  · cases h; rw [if_neg room, if_neg room, if_neg tag, if_pos past]
  · cases h; rw [if_neg room, if_neg room, if_neg tag, if_neg past, if_pos sums]

/-- R182: the chunk passes every check. -/
theorem readChunk_read (h : readFault s p = none) :
    readChunk p s = .ok (readRecord s p, chunkRead true s p) := by
  unfold readFault at h
  rw [readChunk_eq]
  split_ifs at h with room tag past sums
  rw [if_neg room, if_neg tag, if_neg past, if_neg sums]

/-- R182: there was room for a length and a tag. -/
theorem room_of_readFault (h : readFault s p = none) : ¬ s.ops.limit.toNat < p + 8 := by
  unfold readFault at h
  split_ifs at h with room
  exact room

/-- R184: the header test, on the bytes of the data field. -/
theorem headerAccepted_iff : headerAccepted (readRecord s p) (chunkRead true s p) = true ↔
    fieldLen s p = 13 ∧ ofBE32 (memRead s.buf (p + 8) 4) ≠ 0 ∧
      ofBE32 (memRead s.buf (p + 12) 4) ≠ 0 ∧ memRead s.buf (p + 16) 5 = [8, 2, 0, 0, 0] := by
  have parts : memRead s.buf (p + 8) 13
      = memRead s.buf (p + 8) 4 ++ (memRead s.buf (p + 12) 4 ++ memRead s.buf (p + 16) 5) := rfl
  have width : (memRead s.buf (p + 8) 13).take 4 = memRead s.buf (p + 8) 4 := rfl
  have height : ((memRead s.buf (p + 8) 13).drop 4).take 4 = memRead s.buf (p + 12) 4 := rfl
  have rest : (memRead s.buf (p + 8) 13).drop 8 = memRead s.buf (p + 16) 5 := rfl
  have bytes : memRead (chunkRead true s p).buf ((readRecord s p).tagAddr + 4) 13
      = memRead s.buf (p + 8) 13 := rfl
  simp only [headerAccepted, bytes, width, height, rest, Bool.and_eq_true, decide_eq_true_eq,
    and_assoc]
  rfl

/-- R184: a first chunk that is no header or no default one. -/
theorem structureStep_expectHdr_fault (h : ¬ DefaultHeaderAt s p) :
    structureStep .expectHdr (readRecord s p) (chunkRead true s p) = .error (.malformedHeader,
      emitRecord (faultRecord .malformedHeader s p) (chunkRead true s p)) := by
  by_cases tag : fieldTag s p = tagIhdr
  · have kind : (readRecord s p).kind = .ihdr := kindOf_eq_ihdr.2 tag
    have other := mt (fun a => And.intro tag (headerAccepted_iff.1 a)) h
    simp only [structureStep, kind, headerStep, other, faultRecord, tag]
    rfl
  · have kind : (readRecord s p).kind ≠ .ihdr := mt kindOf_eq_ihdr.1 tag
    simp only [structureStep, kind, faultRecord, tag]
    rfl

/-- R184: a default header is latched. -/
theorem structureStep_expectHdr_accepts (h : DefaultHeaderAt s p)
    (first : s.status.hdrFound = false) :
    structureStep .expectHdr (readRecord s p) (chunkRead true s p)
      = .ok (.expectData, scanHeaderLatch (readRecord s p) (chunkRead true s p)) := by
  obtain ⟨tag, accepted⟩ := h
  have kind : (readRecord s p).kind = .ihdr := kindOf_eq_ihdr.2 tag
  have latch : scanHeaderLatch (readRecord s p) (chunkRead true s p)
      = latchHeader ((readRecord s p).tagAddr + 4) (chunkRead true s p) :=
    if_pos ⟨kind, rfl, accepted.1, first⟩
  simp only [structureStep, if_pos kind, headerStep, headerAccepted_iff.2 accepted, latch, if_true]

/-- R183: whether a chunk after the header may stand where it does. -/
theorem structureStep_after_header (d : Word × Word) (ds : List (List Byte)) (u : State) :
    structureStep (phaseOf (some d) ds) (readRecord s p) u =
      if DataOrTerminalAt ds s p then .ok (.inData, u)
      else .error (.badStructure, emitRecord (readRecord s p) u) := by
  have data : (readRecord s p).kind = .idat ↔ fieldTag s p = tagIdat := kindOf_eq_idat
  have terminal : (readRecord s p).kind = .iend ↔ fieldTag s p = tagIend := kindOf_eq_iend
  have len : (readRecord s p).len = fieldLen s p := rfl
  cases ds with
  | nil => simp only [phaseOf, structureStep, data, DataOrTerminalAt, ne_eq, not_true_eq_false,
      false_and, or_false]
  | cons x ds => simp only [phaseOf, structureStep, data, terminal, len, DataOrTerminalAt, ne_eq,
      reduceCtorEq, not_false_eq_true, true_and]

variable {h : Option (Word × Word)} {ds : List (List Byte)}

/-- R183, R184: the chunk is in the wrong place. -/
theorem structureStep_fault {e : CmdError} (fault : placeFault h ds s p = some e) :
    structureStep (phaseOf h ds) (readRecord s p) (chunkRead true s p)
      = .error (e, emitRecord (faultRecord e s p) (chunkRead (summed e) s p)) := by
  unfold placeFault at fault
  split_ifs at fault with first header place
  · cases fault
    subst first
    exact structureStep_expectHdr_fault header
  · cases fault
    obtain ⟨d, rfl⟩ := Option.ne_none_iff_exists'.1 first
    rw [structureStep_after_header, if_neg place]
    rfl

/-- R183, R184: the chunk is accepted in its place. -/
theorem structureStep_accepts (fault : placeFault h ds s p = none)
    (first : h = none → s.status.hdrFound = false) :
    structureStep (phaseOf h ds) (readRecord s p) (chunkRead true s p)
      = .ok (phaseAfter (kindOf (fieldTag s p)),
          scanHeaderLatch (readRecord s p) (chunkRead true s p)) := by
  unfold placeFault at fault
  split_ifs at fault with none header place
  · subst none
    rw [phaseAfter, if_pos (kindOf_eq_ihdr.2 header.1)]
    exact structureStep_expectHdr_accepts header (first rfl)
  · obtain ⟨d, rfl⟩ := Option.ne_none_iff_exists'.1 none
    have kind : kindOf (fieldTag s p) ≠ .ihdr := by
      rcases place with tag | ⟨-, tag, -⟩ <;> rw [tag] <;> exact Kind.noConfusion
    have keep : scanHeaderLatch (readRecord s p) (chunkRead true s p) = chunkRead true s p :=
      if_neg fun latched => kind latched.1
    rw [structureStep_after_header, if_pos place, phaseAfter, if_neg kind, keep]

/-- R180: a chunk with a fault ends DECODE. -/
theorem decodeLoop_fault {e : CmdError} (fault : nextFault h ds s p = some e) (n : Nat) :
    decodeLoop (n + 1) p (phaseOf h ds) s = .raised e (faulted e s p) := by
  unfold nextFault at fault
  rw [decodeLoop]
  cases read : readFault s p with
  | some e' =>
    rw [read] at fault
    cases fault
    rw [readChunk_fault read]
  | none =>
    rw [read, Option.none_or] at fault
    rw [readChunk_read read]
    simp only [structureStep_fault fault]
    rw [faulted, if_neg (room_of_readFault read)]

/-- R173, R185: TERM_FOUND may be set before the record is emitted or after it. -/
theorem emitRecord_termFound (r : Rec) (u : State) :
    (emitRecord r u).setStatus { (emitRecord r u).status with termFound := true }
      = emitRecord r (u.setStatus { u.status with termFound := true }) := by
  rw [emitRecord_eq, emitRecord_eq, State.setStatus_counts, State.setStatus_cfg]
  split <;> rfl

/-- DECODE's state after the chunk at `p` is accepted: what SCAN does for its record, and
R_TYPE .. R_END (R182 to R185). -/
def acceptNext (s : State) (p : Nat) : State :=
  scanCommit (readRecord s p) (s.setChunk (fieldRegs s p))

/-- R180, R185: a chunk without a fault is accepted, and a terminal chunk ends DECODE. -/
theorem decodeLoop_accepts (fault : nextFault h ds s p = none)
    (first : h = none → s.status.hdrFound = false) (n : Nat) :
    decodeLoop (n + 1) p (phaseOf h ds) s =
      if fieldTag s p = tagIend then .finished true (acceptNext s p)
      else decodeLoop n (p + 12 + (fieldLen s p).toNat) (phaseAfter (kindOf (fieldTag s p)))
        (acceptNext s p) := by
  obtain ⟨read, place⟩ := Option.or_eq_none_iff.1 fault
  have kind : (readRecord s p).kind = .iend ↔ fieldTag s p = tagIend := kindOf_eq_iend
  have next : (readRecord s p).tagAddr + 8 + (readRecord s p).len.toNat
      = p + 12 + (fieldLen s p).toNat := rfl
  rw [decodeLoop, readChunk_read read]
  simp only [structureStep_accepts place first, kind, next]
  by_cases terminal : fieldTag s p = tagIend
  · have len : (readRecord s p).len = 0 := by
      unfold placeFault at place
      split_ifs at place with _ header data
      · exact absurd (header.1.symm.trans terminal) (by decide)
      · rcases data with tag | ⟨-, -, len⟩
        · exact absurd (tag.symm.trans terminal) (by decide)
        · exact len
    rw [if_pos terminal, if_pos terminal, emitRecord_termFound, acceptNext, scanCommit,
      scanTerminal, if_pos ⟨kind.2 terminal, rfl, len⟩]
    rfl
  · rw [if_neg terminal, if_neg terminal, acceptNext, scanCommit, scanTerminal,
      if_neg fun t => terminal (kind.1 t.1)]
    rfl

end

end Sys2Proof.Proofs
end

section
/-! PROOF. How DECODE ends (43_scanner.md R180 to R188): it accepts the chunks of a container one
after another, to the terminal chunk or to the first chunk with a fault. -/

namespace Sys2Proof.Proofs

open Sys2Proof.Machine Sys2Proof.Safety

/-! ### The chunks accepted -/

/-- The chunks DECODE has accepted: a default header of dimensions `h` if one was met, then data
chunks of data `ds` (R183). -/
def openChunks (h : Option (Word × Word)) (ds : List (List Byte)) : List Chunk :=
  match h with
  | none => []
  | some d => ⟨tagIhdr, defaultHeader d.1 d.2⟩ :: ds.map (Chunk.mk tagIdat)

theorem openChunks_header (d : Word × Word) :
    openChunks (some d) [] = openChunks none [] ++ [⟨tagIhdr, defaultHeader d.1 d.2⟩] := rfl

theorem openChunks_data (d : Word × Word) (ds : List (List Byte)) (x : List Byte) :
    openChunks (some d) (ds ++ [x]) = openChunks (some d) ds ++ [⟨tagIdat, x⟩] := by
  rw [openChunks, List.map_append, openChunks]
  rfl

/-- R68: the terminal chunk completes the container. -/
theorem openChunks_terminal (d : Word × Word) (ds : List (List Byte)) :
    openChunks (some d) ds ++ [⟨tagIend, []⟩] = containerChunks (defaultHeader d.1 d.2) ds := rfl

theorem openChunks_length (h : Option (Word × Word)) (ds : List (List Byte)) :
    (openChunks h ds).length = if h = none then 0 else ds.length + 1 := by
  cases h <;> simp [openChunks]

theorem openContainer_eq (h : Option (Word × Word)) (ds : List (List Byte)) :
    openContainer h ds = signature ++ chunksBytes (openChunks h ds) := by
  cases h with
  | none => rfl
  | some d =>
    rw [openContainer, openChunks, chunksBytes_cons, dataChunks_bytes, List.append_assoc]
    rfl

theorem openChunks_standard (h : Option (Word × Word)) (ds : List (List Byte)) :
    ∀ c ∈ openChunks h ds, c.Standard := by
  cases h with
  | none => exact fun c hc => absurd hc List.not_mem_nil
  | some d =>
    exact fun c hc => containerChunks_standard rfl ds c (List.mem_append_left _ hc)

/-- Which chunk may come next (R183, R184). -/
inductive Follows : Option (Word × Word) → List (List Byte) → Chunk → Prop where
  | header {width height : Word} (hw : width ≠ 0) (hh : height ≠ 0) (ds : List (List Byte)) :
    Follows none ds ⟨tagIhdr, defaultHeader width height⟩
  | data (d : Word × Word) (ds : List (List Byte)) (x : List Byte) :
    Follows (some d) ds ⟨tagIdat, x⟩
  | terminal (d : Word × Word) {ds : List (List Byte)} (some_data : ds ≠ []) :
    Follows (some d) ds ⟨tagIend, []⟩

theorem Follows.standard {h : Option (Word × Word)} {ds : List (List Byte)} {c : Chunk}
    (f : Follows h ds c) : c.Standard := by
  cases f with
  | header hw hh => exact .header rfl
  | data d ds x => exact .data x
  | terminal d some_data => exact .terminal

/-- The signature and the chunks stand at BASE, in the window, and end at `p`. -/
structure Stands (s : State) (cs : List Chunk) (p : Nat) : Prop where
  standard : ∀ c ∈ cs, c.Standard
  inside : s.ops.limit.toNat ≤ bufSize s
  signed : HoldsAt s.buf s.ops.base.toNat signature
  holds : HoldsAt s.buf (s.ops.base.toNat + 8) (chunksBytes cs)
  place : p = s.ops.base.toNat + 8 + chunksSize cs
  fits : p ≤ s.ops.limit.toNat

section
variable {s : State} {p : Nat} {cs : List Chunk} {c : Chunk}

theorem Stands.small (h : Stands s cs p) : p < 2 ^ 32 := h.fits.trans_lt s.ops.limit.isLt

theorem Stands.window (h : Stands s cs p) : windowOk s = true :=
  windowOk_iff.2 ⟨by have := h.place; have := h.fits; omega, h.inside⟩

/-- One chunk more. -/
theorem stands_snoc (std : c.Standard) : Stands s (cs ++ [c]) (p + c.size) ↔
    Stands s cs p ∧ HoldsAt s.buf p c.bytes ∧ p + c.size ≤ s.ops.limit.toNat := by
  have bytes (h : ∀ x ∈ cs, x.Standard) :
      HoldsAt s.buf (s.ops.base.toNat + 8) (chunksBytes (cs ++ [c]))
      ↔ HoldsAt s.buf (s.ops.base.toNat + 8) (chunksBytes cs) ∧
        HoldsAt s.buf (s.ops.base.toNat + 8 + chunksSize cs) c.bytes := by
    rw [chunksBytes_append, holdsAt_append, chunksBytes_length h, chunksBytes_singleton]
  have size : chunksSize (cs ++ [c]) = chunksSize cs + c.size := by simp
  constructor
  · intro h
    have standard : ∀ x ∈ cs, x.Standard := fun x hx => h.standard x (by simp [hx])
    have place : p = s.ops.base.toNat + 8 + chunksSize cs := by have := h.place; omega
    obtain ⟨before, here⟩ := (bytes standard).1 h.holds
    exact ⟨⟨standard, h.inside, h.signed, before, place, (Nat.le_add_right _ _).trans h.fits⟩,
      place ▸ here, h.fits⟩
  · rintro ⟨h, here, fits⟩
    refine ⟨fun x hx => ?_, h.inside, h.signed, (bytes h.standard).2 ⟨h.holds, h.place ▸ here⟩,
      by have := h.place; omega, fits⟩
    rcases List.mem_append.1 hx with hx | hx
    · exact h.standard x hx
    · exact List.mem_singleton.1 hx ▸ std

/-! ### A chunk and the fields read at its place -/

/-- The converse of `chunkAt_of_holdsAt`. -/
theorem holdsAt_of_chunkAt {m : Memory} {tag d : List Byte} (four : tag.length = 4)
    (h : ChunkAt m p tag d) : HoldsAt m p (chunkBytes tag d) := by
  simp only [chunkBytes, holdsAt_append, List.length_append, toBE32_length, four, ← Nat.add_assoc]
  exact ⟨⟨⟨h.length, by rw [HoldsAt, four]; exact h.tagged⟩, h.data⟩, h.stored⟩

/-- The chunk whose fields are read at `p`. -/
def chunkHere (s : State) (p : Nat) : Chunk :=
  ⟨fieldTag s p, memRead s.buf (p + 8) (fieldLen s p).toNat⟩

theorem chunkHere_size : (chunkHere s p).size = 12 + (fieldLen s p).toNat :=
  congrArg (12 + ·) (memRead_length ..)

/-- A chunk of which the checksums agree stands where its fields are read. -/
theorem chunkAt_chunkHere (sums : fieldStored s p = fieldSum s p) :
    ChunkAt s.buf p (chunkHere s p).tag (chunkHere s p).data := by
  have length : (memRead s.buf (p + 8) (fieldLen s p).toNat).length = (fieldLen s p).toNat :=
    memRead_length ..
  have covered : memRead s.buf (p + 4) (4 + (fieldLen s p).toNat)
      = fieldTag s p ++ memRead s.buf (p + 8) (fieldLen s p).toNat := memRead_append ..
  constructor
  · rw [chunkHere, length, BitVec.ofNat_toNat, BitVec.setWidth_eq, fieldLen, toBE32_memRead]
  · rfl
  · rw [chunkHere, length]
  · rw [chunkHere, length, covered]
  · rw [chunkHere, length, ← covered]
    exact (toBE32_memRead ..).symm.trans (congrArg toBE32 sums)

section
variable (chunk : ChunkAt s.buf p c.tag c.data)
include chunk

theorem fieldTag_of_chunkAt : fieldTag s p = c.tag := chunk.tagged

theorem fieldLen_of_chunkAt : fieldLen s p = BitVec.ofNat 32 c.data.length :=
  (congrArg ofBE32 chunk.length).trans (ofBE32_toBE32 _)

variable (small : p + c.size < 2 ^ 32)
include small

theorem fieldLen_toNat_of_chunkAt : (fieldLen s p).toNat = c.data.length := by
  rw [fieldLen_of_chunkAt chunk]
  exact toNat_word (by unfold Chunk.size at small; omega)

theorem fieldStored_of_chunkAt : fieldStored s p = crc32 (c.tag ++ c.data) := by
  rw [fieldStored, fieldLen_toNat_of_chunkAt chunk small]
  exact (congrArg ofBE32 chunk.stored).trans (ofBE32_toBE32 _)

theorem fieldSum_of_chunkAt : fieldSum s p = crc32 (c.tag ++ c.data) := by
  rw [fieldSum, fieldLen_toNat_of_chunkAt chunk small]
  exact congrArg crc32 chunk.covered

theorem fieldRegs_of_chunkAt : fieldRegs s p = builtChunk p (ofBE32 c.tag) c.data := by
  have tag : toBE32 (ofBE32 c.tag) = c.tag := by rw [← chunk.tagged, toBE32_memRead]
  rw [fieldRegs, readChunkRegs, fieldLen_toNat_of_chunkAt chunk small,
    fieldStored_of_chunkAt chunk small, fieldSum_of_chunkAt chunk small,
    fieldTag_of_chunkAt chunk, fieldLen_of_chunkAt chunk, builtChunk, tag]

end

/-- A chunk that may come next has no fault (R182 to R184). -/
theorem nextFault_of_follows {h : Option (Word × Word)} {ds : List (List Byte)}
    (f : Follows h ds c) (chunk : ChunkAt s.buf p c.tag c.data)
    (high : p + c.size ≤ s.ops.limit.toNat) : nextFault h ds s p = none := by
  have small : p + c.size < 2 ^ 32 := high.trans_lt s.ops.limit.isLt
  have size : c.size = 12 + c.data.length := rfl
  have tag := fieldTag_of_chunkAt chunk
  have len := fieldLen_of_chunkAt chunk
  have read : readFault s p = none := by
    rw [readFault, tag, fieldLen_toNat_of_chunkAt chunk small, fieldStored_of_chunkAt chunk small,
      fieldSum_of_chunkAt chunk small, if_neg (by omega), f.standard.ascii,
      if_neg Bool.noConfusion, if_neg (by omega), if_neg (not_not.2 rfl)]
  rw [nextFault, read, Option.none_or, placeFault]
  cases f with
  | @header width height hw hh =>
    obtain ⟨dims, params⟩ := holdsAt_append.1 (show HoldsAt _ _ _ from chunk.data)
    obtain ⟨w, h⟩ := holdsAt_append.1 dims
    have w : memRead s.buf (p + 8) 4 = toBE32 width := w
    have h : memRead s.buf (p + 12) 4 = toBE32 height := h
    rw [if_pos rfl, if_pos]
    refine ⟨tag, len, ?_, ?_, params⟩
    · rwa [w, ofBE32_toBE32]
    · rwa [h, ofBE32_toBE32]
  | data d ds x => exact (if_neg (Option.some_ne_none d)).trans (if_pos (.inl tag))
  | terminal d some_data =>
    exact (if_neg (Option.some_ne_none d)).trans (if_pos (.inr ⟨some_data, tag, len⟩))

/-- A chunk without a fault is one that may come next (R182 to R184). -/
theorem follows_of_nextFault {h : Option (Word × Word)} {ds : List (List Byte)}
    (fault : nextFault h ds s p = none) : ∃ c, Follows h ds c ∧ ChunkAt s.buf p c.tag c.data ∧
      p + c.size ≤ s.ops.limit.toNat := by
  obtain ⟨read, place⟩ := Option.or_eq_none_iff.1 fault
  unfold readFault at read
  split_ifs at read with room tag past sums
  refine ⟨chunkHere s p, ?_, chunkAt_chunkHere (not_not.1 sums), by rw [chunkHere_size]; omega⟩
  unfold placeFault at place
  split_ifs at place with first header later
  · obtain ⟨tag, len, width, height, params⟩ := header
    subst first
    have here : chunkHere s p = ⟨tagIhdr, defaultHeader (ofBE32 (memRead s.buf (p + 8) 4))
        (ofBE32 (memRead s.buf (p + 12) 4))⟩ := by
      rw [chunkHere, tag, len, defaultHeader, toBE32_memRead, toBE32_memRead, ← params]
      rfl
    rw [here]
    exact .header width height ds
  · obtain ⟨d, rfl⟩ := Option.ne_none_iff_exists'.1 first
    rcases later with tag | ⟨some_data, tag, len⟩
    · rw [chunkHere, tag]
      exact .data d ds _
    · rw [chunkHere, tag, len]
      exact .terminal d some_data

/-! ### The state after the chunks -/

/-- R_TYPE .. R_END after the chunks, which stand from address `a` (R186). -/
def lastChunk (s : State) (a : Nat) (cs : List Chunk) : ChunkRegs :=
  match cs.getLast? with
  | none => s.chunk
  | some c => builtChunk (a + chunksSize cs - c.size) (ofBE32 c.tag) c.data

theorem lastChunk_snoc (s : State) (a : Nat) (cs : List Chunk) (c : Chunk) :
    lastChunk s a (cs ++ [c]) = builtChunk (a + chunksSize cs) (ofBE32 c.tag) c.data := by
  have place : a + chunksSize (cs ++ [c]) - c.size = a + chunksSize cs := by
    rw [chunksSize_append, ← Nat.add_assoc]
    exact Nat.add_sub_cancel ..
  rw [lastChunk, List.getLast?_concat]
  simp only [place]

/-- DECODE's state once it has accepted the chunks (R180). -/
def decoded (s : State) (cs : List Chunk) : State :=
  (committed s (s.ops.base.toNat + 8) cs).setChunk (lastChunk s (s.ops.base.toNat + 8) cs)

theorem decoded_nil (s : State) : decoded s [] = clearResults s := by
  rw [decoded, committed_nil]
  rfl

/-- The record of an accepted chunk. -/
theorem readRecord_decoded (std : c.Standard) (chunk : ChunkAt s.buf p c.tag c.data)
    (small : p + c.size < 2 ^ 32) : readRecord (decoded s cs) p = chunkRecord cs p c := by
  have tag : fieldTag (decoded s cs) p = c.tag := fieldTag_of_chunkAt chunk
  have len : fieldLen (decoded s cs) p = BitVec.ofNat 32 c.data.length := fieldLen_of_chunkAt chunk
  have stored : fieldStored (decoded s cs) p = _ := fieldStored_of_chunkAt chunk small
  have sum : fieldSum (decoded s cs) p = _ := fieldSum_of_chunkAt chunk small
  have index : kindCount (decoded s cs).counts (kindOf c.tag) = _ :=
    kindCount_chunkCounts _ cs std.kind
  rw [readRecord, tag, len, stored, sum, index, chunkRecord]

/-- One accepted chunk more. -/
theorem acceptNext_decoded (stands : Stands s cs p) (std : c.Standard)
    (chunk : ChunkAt s.buf p c.tag c.data) (high : p + c.size ≤ s.ops.limit.toNat) :
    acceptNext (decoded s cs) p = decoded s (cs ++ [c]) := by
  have small : p + c.size < 2 ^ 32 := high.trans_lt s.ops.limit.isLt
  have regs : fieldRegs (decoded s cs) p = builtChunk p (ofBE32 c.tag) c.data :=
    fieldRegs_of_chunkAt chunk small
  have commit := scanCommit_committed std stands.place stands.small chunk.data
  have apart (x : ChunkRegs) : scanCommit (chunkRecord cs p c) ((decoded s cs).setChunk x)
      = (scanCommit (chunkRecord cs p c) (committed s (s.ops.base.toNat + 8) cs)).setChunk x := by
    rw [scanCommit_valid rfl, scanCommit_valid rfl]
    rfl
  rw [acceptNext, readRecord_decoded std chunk small, regs, apart, commit, decoded, lastChunk_snoc,
    ← stands.place]

/-- R180 to R185: a chunk that may come next is accepted. -/
theorem decodeLoop_follows {h : Option (Word × Word)} {ds : List (List Byte)}
    (f : Follows h ds c) (stands : Stands s (openChunks h ds ++ [c]) (p + c.size)) (n : Nat) :
    decodeLoop (n + 1) p (phaseOf h ds) (decoded s (openChunks h ds)) =
      if c.tag = tagIend then .finished true (decoded s (openChunks h ds ++ [c]))
      else decodeLoop n (p + c.size) (phaseAfter (kindOf c.tag))
        (decoded s (openChunks h ds ++ [c])) := by
  obtain ⟨before, here, fits⟩ := (stands_snoc f.standard).1 stands
  have chunk := chunkAt_of_holdsAt f.standard.tag_length here
  have small : p + c.size < 2 ^ 32 := stands.small
  have fault : nextFault h ds (decoded s (openChunks h ds)) p = none :=
    nextFault_of_follows f chunk fits
  have tag : fieldTag (decoded s (openChunks h ds)) p = c.tag := fieldTag_of_chunkAt chunk
  have len : (fieldLen (decoded s (openChunks h ds)) p).toNat = c.data.length :=
    fieldLen_toNat_of_chunkAt chunk small
  have next : p + 12 + c.data.length = p + c.size := Nat.add_assoc ..
  rw [decodeLoop_accepts fault (by rintro rfl; rfl), tag, len, next,
    acceptNext_decoded before f.standard chunk fits]

end

/-! ### How DECODE ends -/

/-- DECODE gets to the position `p` having accepted a header of dimensions `h`, if any, and data
chunks of data `ds`. -/
structure Accepted (s : State) (h : Option (Word × Word)) (ds : List (List Byte)) (p : Nat) :
    Prop where
  shape : h = none → ds = []
  dims : ∀ d ∈ h, d.1 ≠ 0 ∧ d.2 ≠ 0
  stands : Stands s (openChunks h ds) p

theorem exec_decode (s : State) : exec .decode s = .next (complete (decodeBody s)) :=
  exec_command rfl

section
variable {s : State}

/-- R180: the window is not one of BUF. -/
theorem decodeBody_badWindow
    (window : ¬ (s.ops.base.toNat ≤ s.ops.limit.toNat ∧ s.ops.limit.toNat ≤ bufSize s)) :
    decodeBody s = .raised .addressRange (clearResults s) :=
  if_pos (Bool.not_eq_true _ ▸ mt windowOk_iff.1 window)

/-- R180, R181: the check of the signature comes after the check of the window. -/
theorem decodeBody_signature {e : CmdError}
    (window : s.ops.base.toNat ≤ s.ops.limit.toNat ∧ s.ops.limit.toNat ≤ bufSize s)
    (check : checkSignature (clearResults s) = some e) :
    decodeBody s = .raised e (clearResults s) := by
  rw [decodeBody, if_neg (by rw [windowOk_iff.2 window]; exact Bool.noConfusion), check]

/-- R181: no room for the signature. -/
theorem checkSignature_noRoom (room : s.ops.limit.toNat < s.ops.base.toNat + 8) :
    checkSignature (clearResults s) = some .truncatedBuffer := if_pos room

/-- R181: another signature. -/
theorem checkSignature_other (room : ¬ s.ops.limit.toNat < s.ops.base.toNat + 8)
    (other : memRead s.buf s.ops.base.toNat 8 ≠ signature) :
    checkSignature (clearResults s) = some .badSignature := (if_neg room).trans (if_pos other)

end

/-- R181: the signature stands at BASE. -/
theorem checkSignature_of_stands {s : State} {cs : List Chunk} {p : Nat} (h : Stands s cs p) :
    checkSignature (clearResults s) = none := by
  have room : ¬ s.ops.base.toNat + 8 > s.ops.limit.toNat := by
    have := h.place
    have := h.fits
    omega
  exact (if_neg room).trans (if_neg (not_not.2 h.signed))

/-- R180: DECODE comes to its loop where the signature stands at BASE. -/
theorem decodeBody_loop {s : State} {cs : List Chunk} {p : Nat} (h : Stands s cs p) :
    decodeBody s = decodeLoop (s.ops.limit.toNat - s.ops.base.toNat) (s.ops.base.toNat + 8)
      .expectHdr (decoded s []) := by
  rw [decodeBody, if_neg (by rw [h.window]; exact Bool.noConfusion), checkSignature_of_stands h,
    decoded_nil]

/-- DECODE comes to the position `p` in the phase `ph` with the chunks `cs` accepted, and with more
iterations left than bytes (assumption 8). -/
def Reaches (s : State) (ph : Phase) (cs : List Chunk) (p : Nat) : Prop :=
  ∃ n, s.ops.limit.toNat < p + n ∧ decodeBody s = decodeLoop n p ph (decoded s cs)

section
variable {s : State} {h : Option (Word × Word)} {ds : List (List Byte)} {p : Nat} {c : Chunk}

/-- R180: over a chunk that may come next DECODE goes on, or ends at its terminal chunk. -/
theorem Reaches.next (reached : Reaches s (phaseOf h ds) (openChunks h ds) p) (f : Follows h ds c)
    (stands : Stands s (openChunks h ds ++ [c]) (p + c.size)) :
    if c.tag = tagIend then decodeBody s = .finished true (decoded s (openChunks h ds ++ [c]))
    else Reaches s (phaseAfter (kindOf c.tag)) (openChunks h ds ++ [c]) (p + c.size) := by
  obtain ⟨n, left, body⟩ := reached
  have size : c.size = 12 + c.data.length := rfl
  have fits := stands.fits
  obtain ⟨n, rfl⟩ : ∃ m, n = m + 1 := ⟨n - 1, by omega⟩
  rw [decodeLoop_follows f stands] at body
  split
  · rw [body, if_pos ‹_›]
  · exact ⟨n, by omega, by rw [body, if_neg ‹_›]⟩

/-- Where the last of some chunks begins. -/
theorem Stands.last {cs : List Chunk} (stands : Stands s (cs ++ [c]) p) : ∃ q, p = q + c.size :=
  ⟨s.ops.base.toNat + 8 + chunksSize cs, by rw [stands.place]; simp [Nat.add_assoc]⟩

/-- R180: DECODE accepts the chunks it may accept. -/
theorem Accepted.reached (acc : Accepted s h ds p) :
    Reaches s (phaseOf h ds) (openChunks h ds) p := by
  obtain ⟨shape, dims, stands⟩ := acc
  cases h with
  | none =>
    obtain rfl := shape rfl
    have place : p = s.ops.base.toNat + 8 := stands.place
    exact ⟨_, by omega, place ▸ decodeBody_loop stands⟩
  | some d =>
    obtain ⟨width, height⟩ := dims d rfl
    induction ds using List.reverseRecOn generalizing p with
    | nil =>
      rw [openChunks_header] at stands ⊢
      obtain ⟨q, rfl⟩ := stands.last
      have before := ((stands_snoc (.header rfl)).1 stands).1
      have place : q = s.ops.base.toNat + 8 := before.place
      have start : Reaches s (phaseOf none []) (openChunks none []) q :=
        ⟨_, by omega, place ▸ decodeBody_loop before⟩
      exact start.next (.header width height []) stands
    | append_singleton ds x ih =>
      rw [openChunks_data] at stands ⊢
      obtain ⟨q, rfl⟩ := stands.last
      have before := ((stands_snoc (.data x)).1 stands).1
      have after : phaseOf (some d) (ds ++ [x]) = phaseAfter (kindOf tagIdat) := by
        cases ds <;> rfl
      rw [after]
      exact (ih (fun no => absurd no (Option.some_ne_none d)) before).next (.data d ds x) stands

/-- R180: DECODE ends at the first chunk with a fault. -/
theorem Accepted.decodeBody_fault (acc : Accepted s h ds p) {e : CmdError}
    (fault : nextFault h ds s p = some e) :
    decodeBody s = .raised e (faulted e (decoded s (openChunks h ds)) p) := by
  obtain ⟨n, left, body⟩ := acc.reached
  have fits := acc.stands.fits
  obtain ⟨n, rfl⟩ : ∃ m, n = m + 1 := ⟨n - 1, by omega⟩
  rw [body]
  exact decodeLoop_fault (s := decoded s (openChunks h ds)) fault n

/-- R185: DECODE ends at the terminal chunk. -/
theorem Accepted.decodeBody_terminal {d : Word × Word} (acc : Accepted s (some d) ds p)
    (some_data : ds ≠ [])
    (stands : Stands s (containerChunks (defaultHeader d.1 d.2) ds) (p + 12)) :
    decodeBody s = .finished true (decoded s (containerChunks (defaultHeader d.1 d.2) ds)) :=
  acc.reached.next (.terminal d some_data) stands

/-- One accepted chunk more. -/
theorem Accepted.next (acc : Accepted s h ds p) (f : Follows h ds c) (more : c.tag ≠ tagIend)
    (chunk : ChunkAt s.buf p c.tag c.data) (fits : p + c.size ≤ s.ops.limit.toNat) :
    ∃ h' ds', Accepted s h' ds' (p + c.size) := by
  have stands := (stands_snoc f.standard).2
    ⟨acc.stands, holdsAt_of_chunkAt f.standard.tag_length chunk, fits⟩
  cases f with
  | @header width height hw hh =>
    refine ⟨some (width, height), [], fun _ => rfl, fun d hd => ?_, stands⟩
    cases hd
    exact ⟨hw, hh⟩
  | data d ds x =>
    exact ⟨some d, ds ++ [x], fun no => absurd no (Option.some_ne_none d), acc.dims,
      openChunks_data d ds x ▸ stands⟩
  | terminal d some_data => exact absurd rfl more

end

/-- What DECODE can come to: the error of a first check, a chunk with a fault, or a container's
end. -/
inductive DecodeEnd (s : State) : Prop where
  | first {e : CmdError} (body : decodeBody s = .raised e (clearResults s))
    (early : e = .addressRange ∨ e = .truncatedBuffer ∨ e = .badSignature)
  | fault {h : Option (Word × Word)} {ds : List (List Byte)} {p : Nat} {e : CmdError}
    (acc : Accepted s h ds p) (fault : nextFault h ds s p = some e)
  | terminal {d : Word × Word} {ds : List (List Byte)} {p : Nat} (acc : Accepted s (some d) ds p)
    (some_data : ds ≠ []) (stands : Stands s (containerChunks (defaultHeader d.1 d.2) ds) (p + 12))

/-- R180: from each chunk accepted DECODE comes to one of its ends. -/
theorem Accepted.decodeEnd {s : State} {h : Option (Word × Word)} {ds : List (List Byte)} {p : Nat}
    (acc : Accepted s h ds p) : DecodeEnd s := by
  cases fault : nextFault h ds s p with
  | some e => exact .fault acc fault
  | none =>
    obtain ⟨c, f, chunk, fits⟩ := follows_of_nextFault fault
    have size : 0 < c.size := by unfold Chunk.size; omega
    by_cases more : c.tag = tagIend
    · cases f with
      | header => cases more
      | data => cases more
      | terminal d some_data =>
        exact .terminal acc some_data ((stands_snoc .terminal).2
          ⟨acc.stands, holdsAt_of_chunkAt rfl chunk, fits⟩)
    · obtain ⟨h', ds', acc'⟩ := acc.next f more chunk fits
      exact acc'.decodeEnd
termination_by s.ops.limit.toNat - p
decreasing_by omega

/-- R180: DECODE comes to one of its ends. -/
theorem decodeEnd (s : State) : DecodeEnd s := by
  by_cases window : s.ops.base.toNat ≤ s.ops.limit.toNat ∧ s.ops.limit.toNat ≤ bufSize s
  case neg => exact .first (decodeBody_badWindow window) (.inl rfl)
  by_cases room : s.ops.limit.toNat < s.ops.base.toNat + 8
  case pos =>
    exact .first (decodeBody_signature window (checkSignature_noRoom room)) (.inr (.inl rfl))
  by_cases signed : memRead s.buf s.ops.base.toNat 8 = signature
  case neg =>
    exact .first (decodeBody_signature window (checkSignature_other room signed)) (.inr (.inr rfl))
  have stands : Stands s (openChunks none []) (s.ops.base.toNat + 8) :=
    ⟨openChunks_standard none [], window.2, signed, rfl, rfl, Nat.le_of_not_lt room⟩
  exact Accepted.decodeEnd ⟨fun _ => rfl, fun d hd => absurd hd (Option.not_mem_none d), stands⟩

end Sys2Proof.Proofs
end

section
/-! PROOF. The errors of DECODE (43_scanner.md R170, R180 to R186; 60_exceptions.md R202): their
order, and the state each leaves. -/

namespace Sys2Proof.Proofs

open Sys2Proof.Machine Sys2Proof.Safety

/-! ### The state at the raise -/

section
variable {s : State} {cs : List Chunk} {p : Nat} {e : CmdError}

/-- R173, R182: where a record is made. -/
theorem faulted_eq {u : State} (room : p + 8 ≤ u.ops.limit.toNat) : faulted e u p =
    { u with
      counts := { countRecord u.counts (kindOf (fieldTag u p)) with
        nrec := if u.counts.nrec.toNat < u.cfg.resDepth then u.counts.nrec + 1 else u.counts.nrec
        nbad := if misplaced e then u.counts.nbad else u.counts.nbad + 1 }
      chunk := if summed e then fieldRegs u p else u.chunk
      res := if u.counts.nrec.toNat < u.cfg.resDepth
        then cellSet u.res u.counts.nrec.toNat (faultRecord e u p).words else u.res
      status := { u.status with
        resOvf := u.status.resOvf || !decide (u.counts.nrec.toNat < u.cfg.resDepth) } } := by
  rw [faulted, if_neg (Nat.not_lt.2 room), emitRecord_eq]
  have counts : (chunkRead (summed e) u p).counts = countRecord u.counts (kindOf (fieldTag u p)) :=
    rfl
  have nrec : (countRecord u.counts (kindOf (fieldTag u p))).nrec = u.counts.nrec := rfl
  have cfg : (chunkRead (summed e) u p).cfg = u.cfg := rfl
  rw [counts, nrec, cfg]
  by_cases full : u.counts.nrec.toNat < u.cfg.resDepth
  · simp only [if_pos full, decide_eq_true full, Bool.not_true, Bool.or_false]
    rfl
  · simp only [if_neg full, decide_eq_false full, Bool.not_false, Bool.or_true]
    rfl

/-- R173, R182: the state at the raise, after the records of chunks `cs`. -/
theorem faulted_decoded (room : p + 8 ≤ s.ops.limit.toNat) (few : cs.length < 2 ^ 32) :
    faulted e (decoded s cs) p = { decoded s cs with
      counts := { countRecord (chunkCounts s.cfg.resDepth cs) (kindOf (fieldTag s p)) with
        nrec := BitVec.ofNat 32 (min (cs.length + 1) s.cfg.resDepth)
        nbad := if misplaced e then 0 else 1 }
      chunk := if summed e then fieldRegs s p else lastChunk s (s.ops.base.toNat + 8) cs
      res := storeWithin s.cfg.resDepth (chunkRecords (s.ops.base.toNat + 8) [] cs ++
        [(faultRecord e (decoded s cs) p).words]) s.res
      status := { (decoded s cs).status with
        resOvf := decide (s.cfg.resDepth < cs.length + 1) } } := by
  have nrec : (decoded s cs).counts.nrec = BitVec.ofNat 32 (min cs.length s.cfg.resDepth) := rfl
  have count : (decoded s cs).counts.nrec.toNat = min cs.length s.cfg.resDepth :=
    chunkCounts_nrec few
  have cfg : (decoded s cs).cfg = s.cfg := rfl
  have ovf : (decoded s cs).status.resOvf = decide (s.cfg.resDepth < cs.length) := rfl
  have res : (decoded s cs).res = storeWithin s.cfg.resDepth
      (chunkRecords (s.ops.base.toNat + 8) [] cs) s.res := rfl
  rw [faulted_eq (show p + 8 ≤ (decoded s cs).ops.limit.toNat from room), storeWithin_snoc,
    chunkRecords_length, count, cfg, ovf, res, nrec]
  by_cases free : cs.length < s.cfg.resDepth
  · have next : cs.length + 1 ≤ s.cfg.resDepth := free
    rw [Nat.min_eq_left free.le, if_pos free, if_pos free,
      Nat.min_eq_left next, decide_eq_true free, decide_eq_false free.le.not_gt,
      decide_eq_false next.not_gt, BitVec.ofNat_add]
    rfl
  · have full := Nat.le_of_not_lt free
    rw [Nat.min_eq_right full, if_neg (Nat.lt_irrefl _), if_neg (Nat.lt_irrefl _), if_neg free,
      Nat.min_eq_right (Nat.le_succ_of_le full), decide_eq_false (Nat.lt_irrefl _),
      decide_eq_true (Nat.lt_succ_of_le full), Bool.not_false, Bool.or_true]
    rfl

/-- R173: the failing chunk's record, if it found room. -/
theorem faulted_decoded_record (room : p + 8 ≤ s.ops.limit.toNat) (few : cs.length < 2 ^ 32)
    (free : cs.length < s.cfg.resDepth) :
    resRecord (faulted e (decoded s cs) p).res cs.length
      = (faultRecord e (decoded s cs) p).words := by
  rw [faulted_decoded room few]
  refine resRecord_storeWithin ?_ free s.res
  rw [List.getElem?_append_right (chunkRecords_length ..).le, chunkRecords_length, Nat.sub_self]
  rfl

end

/-! ### FLAGS of a record -/

/-- R48: FLAGS as a sum, where the length is known. -/
theorem flags_eq_sum {r : Rec} (known : r.lenKnown = true) : r.flags =
    BitVec.ofNat 32 (256 * r.kind.num + 4 + (if r.valid then 1 else 0) +
      (if r.trunc then 2 else 0) + (if r.malformed then 8 else 0)) := by
  unfold Rec.flags
  rw [known]
  generalize r.valid = valid, r.trunc = trunc, r.malformed = malformed, r.kind = kind
  revert valid trunc malformed
  cases kind <;> decide

/-! ### The accepted chunks -/

theorem kindsIn_openChunks (h : Option (Word × Word)) (ds : List (List Byte)) (k : Kind) :
    kindsIn (openChunks h ds) k = if h = none then 0 else
      match k with | .ihdr => 1 | .idat => ds.length | .iend => 0 | .other => 0 := by
  cases h with
  | none => rfl
  | some d =>
    rw [openChunks, kindsIn_cons, kindsIn_dataChunks]
    cases k <;> simp [show kindOf tagIhdr = .ihdr from rfl]

/-- R174: the header registers of a default header. -/
theorem latchedHeader_default (width height : Word) : latchedHeader (defaultHeader width height) =
    { width := width, height := height, hparam := 0x00000208, hilace := 0 } := by
  have w : ofBE32 ((defaultHeader width height).take 4) = width := ofBE32_toBE32 width
  have h : ofBE32 (((defaultHeader width height).drop 4).take 4) = height := ofBE32_toBE32 height
  have params : ((8#8).setWidth 32 ||| ((2#8).setWidth 32 <<< 8) ||| ((0#8).setWidth 32 <<< 16) |||
      ((0#8).setWidth 32 <<< 24) : Word) = 0x00000208 := by decide
  rw [latchedHeader, w, h, ← params]
  rfl

theorem chunkHeader_openChunks (h : Option (Word × Word)) (ds : List (List Byte)) :
    chunkHeader (openChunks h ds) = match h with
      | none => { width := 0, height := 0, hparam := 0, hilace := 0 }
      | some d => { width := d.1, height := d.2, hparam := 0x00000208, hilace := 0 } := by
  cases h with
  | none => rfl
  | some d => exact latchedHeader_default d.1 d.2

/-- R186: R_TYPE .. R_END after the accepted chunks. -/
theorem lastChunk_openChunks (s : State) (h : Option (Word × Word)) (ds : List (List Byte))
    (a : Nat) : lastChunk s a (openChunks h ds) = match h, ds.getLast? with
      | none, _ => s.chunk
      | some d, none =>
        builtChunk (a + chunksSize (openChunks h ds) - 25) 0x49484452 (defaultHeader d.1 d.2)
      | some _, some d =>
        builtChunk (a + chunksSize (openChunks h ds) - (12 + d.length)) 0x49444154 d := by
  cases h with
  | none => rfl
  | some d =>
    induction ds using List.reverseRecOn with
    | nil => rfl
    | append_singleton ds x _ =>
      rw [lastChunk, openChunks_data, List.getLast?_concat, List.getLast?_concat]
      rfl

/-- What stands at BASE where DECODE has accepted a header and data chunks (R180). -/
theorem accepted_of_openContainer {s : State} {h : Option (Word × Word)} {ds : List (List Byte)}
    {p : Nat} (shape : h = none → ds = []) (dims : ∀ d ∈ h, d.1 ≠ 0 ∧ d.2 ≠ 0)
    (inside : s.ops.limit.toNat ≤ bufSize s)
    (holds : HoldsAt s.buf s.ops.base.toNat (openContainer h ds))
    (place : p = s.ops.base.toNat + (openContainer h ds).length) (fits : p ≤ s.ops.limit.toNat) :
    Accepted s h ds p := by
  have standard := openChunks_standard h ds
  rw [openContainer_eq, holdsAt_append] at holds
  rw [openContainer_eq, List.length_append, chunksBytes_length standard, ← Nat.add_assoc] at place
  exact ⟨shape, dims, standard, inside, holds.1, holds.2, place, fits⟩

/-! ### Codes -/

theorem misplaced_iff_code {e : CmdError} : misplaced e = true ↔ e.code = 3 ∨ e.code = 7 := by
  cases e <;> decide

theorem truncated_iff_code {e : CmdError} : e = .truncatedBuffer ↔ e.code = 4 := by
  cases e <;> decide

theorem malformed_iff_code {e : CmdError} : e = .malformedHeader ↔ e.code = 3 := by
  cases e <;> decide

section
variable {h : Option (Word × Word)} {ds : List (List Byte)} {s : State} {p : Nat} {e : CmdError}

/-- The errors of DECODE's loop (R182 to R184). -/
theorem nextFault_cases (fault : nextFault h ds s p = some e) :
    e = .invalidTypeTag ∨ e = .truncatedBuffer ∨ summed e = true := by
  unfold nextFault readFault placeFault at fault
  split_ifs at fault <;> cases fault <;> decide

/-- The errors before the checksum is computed (R182). -/
theorem not_summed_iff_code (fault : nextFault h ds s p = some e) :
    summed e = false ↔ e.code = 1 ∨ e.code = 4 := by
  rcases nextFault_cases fault with rfl | rfl | sum
  · decide
  · decide
  · revert sum
    cases e <;> decide

/-- R182: without room for a length and a tag the error is TRUNCATED_BUFFER. -/
theorem nextFault_noRoom (room : s.ops.limit.toNat < p + 8) :
    nextFault h ds s p = some .truncatedBuffer := by
  rw [nextFault, readFault, if_pos room]
  rfl

/-- The order of the errors, as codes. -/
theorem nextFault_of_code {code : BitVec 4} (value : code =
      if s.ops.limit.toNat < p + 8 then 4
      else if ∃ b ∈ fieldTag s p, 0x80 ≤ b.toNat then 1
      else if s.ops.limit.toNat < p + 12 + (fieldLen s p).toNat then 4
      else if fieldStored s p ≠ fieldSum s p then 2
      else if h = none then if DefaultHeaderAt s p then 0 else 3
      else if fieldTag s p = tagIdat then 0
      else if ds ≠ [] ∧ fieldTag s p = tagIend ∧ fieldLen s p = 0 then 0 else 7)
    (some_error : code ≠ 0) : ∃ e, nextFault h ds s p = some e ∧ code = e.code := by
  simp only [nextFault, readFault, placeFault, ascii4_eq_false_iff]
  split_ifs at value with room tag past sums first header data terminal
  · exact ⟨.truncatedBuffer, by rw [if_pos room]; rfl, value⟩
  · exact ⟨.invalidTypeTag, by rw [if_neg room, if_pos tag]; rfl, value⟩
  · exact ⟨.truncatedBuffer, by rw [if_neg room, if_neg tag, if_pos past]; rfl, value⟩
  · exact ⟨.checksumMismatch, by rw [if_neg room, if_neg tag, if_neg past, if_pos sums]; rfl, value⟩
  · exact absurd value some_error
  · refine ⟨.malformedHeader, ?_, value⟩
    rw [if_neg room, if_neg tag, if_neg past, if_neg sums, if_pos first, if_neg header]
    rfl
  · exact absurd value some_error
  · exact absurd value some_error
  · refine ⟨.badStructure, ?_, value⟩
    rw [if_neg room, if_neg tag, if_neg past, if_neg sums, if_neg first,
      if_neg (not_or.2 ⟨data, terminal⟩)]
    rfl

end

/-! ### The words of the failing chunk's record -/

/-- R172: INDEX of a record after the chunks accepted. -/
theorem kindCount_openChunks {h : Option (Word × Word)} {ds : List (List Byte)}
    (shape : h = none → ds = []) (depth : Nat) (tag : List Byte) :
    kindCount (chunkCounts depth (openChunks h ds)) (kindOf tag) =
      if tag = tagIhdr ∧ h ≠ none then 1
      else if tag = tagIdat then BitVec.ofNat 32 ds.length else 0 := by
  simp only [← kindOf_eq_ihdr, ← kindOf_eq_idat]
  cases kind : kindOf tag with
  | other => simp [kindCount]
  | ihdr => cases h <;> simp [kindCount_chunkCounts, kindsIn_openChunks]
  | idat =>
    by_cases first : h = none
    · simp [kindCount_chunkCounts, kindsIn_openChunks, first, shape first]
    · simp [kindCount_chunkCounts, kindsIn_openChunks, first]
  | iend => simp [kindCount_chunkCounts, kindsIn_openChunks]

/-- R47, R48: the record of a chunk that raises `e`, after the chunks accepted. -/
theorem faultRecord_words {h : Option (Word × Word)} {ds : List (List Byte)} {s : State} {p : Nat}
    {e : CmdError} (shape : h = none → ds = []) (fault : nextFault h ds s p = some e) :
    (faultRecord e (decoded s (openChunks h ds)) p).words = {
      tag := ofBE32 (fieldTag s p)
      flags := BitVec.ofNat 32 (256 * (kindOf (fieldTag s p)).num + 4 +
        (if e.code = 3 ∨ e.code = 7 then 1 else 0) + (if e.code = 4 then 2 else 0) +
        (if e.code = 3 ∧ fieldTag s p = tagIhdr then 8 else 0))
      tagAddr := BitVec.ofNat 32 (p + 4)
      len := fieldLen s p
      dataAddr := if e.code = 3 ∨ e.code = 7 then BitVec.ofNat 32 (p + 8) else 0
      stored := if e.code = 1 ∨ e.code = 4 then 0 else fieldStored s p
      computed := if e.code = 1 ∨ e.code = 4 then 0 else fieldSum s p
      index := if fieldTag s p = tagIhdr ∧ h ≠ none then 1
        else if fieldTag s p = tagIdat then BitVec.ofNat 32 ds.length else 0 } := by
  have sums : summed e = true ↔ ¬ (e.code = 1 ∨ e.code = 4) := by
    rw [← not_summed_iff_code fault, Bool.not_eq_false]
  rw [Rec.words, flags_eq_sum rfl, ← kindCount_openChunks shape s.cfg.resDepth]
  simp only [faultRecord, misplaced_iff_code, sums, truncated_iff_code, malformed_iff_code, ite_not,
    decide_eq_true_eq, apply_ite (BitVec.ofNat 32)]
  rfl

/-! ### How a DECODE with an error ends -/

section
variable {h : Option (Word × Word)} {ds : List (List Byte)} {s : State} {p : Nat} {e : CmdError}

theorem Accepted.few (acc : Accepted s h ds p) : (openChunks h ds).length + 1 < 2 ^ 32 := by
  have := length_le_chunksSize (openChunks h ds)
  have := acc.stands.place
  have := acc.stands.small
  omega

/-- R170, R182 to R184, R186: what DECODE leaves where the chunk at `p` raises `e`. -/
theorem Accepted.exec_fault (acc : Accepted s h ds p) (fault : nextFault h ds s p = some e) :
    exec .decode s = .next (complete (.raised e (faulted e (decoded s (openChunks h ds)) p))) := by
  rw [exec_decode, acc.decodeBody_fault fault]

/-- R43, R45: the flags and header registers no error changes. -/
theorem decoded_flags (s : State) (h : Option (Word × Word)) (ds : List (List Byte)) :
    (decoded s (openChunks h ds)).status.termFound = false ∧
      (decoded s (openChunks h ds)).status.hdrFound = h.isSome := by
  constructor
  · exact decide_eq_false (by rw [kindsIn_openChunks]; cases h <;> exact Nat.lt_irrefl 0)
  · have found : (decoded s (openChunks h ds)).status.hdrFound
        = decide (0 < kindsIn (openChunks h ds) .ihdr) := rfl
    rw [found, kindsIn_openChunks]
    cases h <;> rfl

/-- R182: without room for a length and a tag DECODE leaves the state after the accepted chunks. -/
theorem faulted_noRoom {u : State} (room : u.ops.limit.toNat < p + 8) : faulted e u p = u :=
  if_pos room

end

/-- Settles O45: the first checks, then the checks of the chunk that follows the accepted ones. -/
theorem decodeRaisesItsErrorsInOrder : Obligations.DecodeRaisesItsErrorsInOrder := by
  refine ⟨fun s code value some_error => ?_, ?_⟩
  · rw [exec_decode]
    split_ifs at value with window room signed
    · rw [decodeBody_signature window (checkSignature_noRoom room), value]; rfl
    · rw [decodeBody_signature window (checkSignature_other room signed), value]; rfl
    · exact absurd value some_error
    · rw [decodeBody_badWindow window, value]; rfl
  rintro s h ds p _ n made _ _ _ _ code rfl inside shape dims holds place fits rfl rfl rfl rfl value
    some_error count made_eq
  have acc := accepted_of_openContainer shape dims inside holds place fits
  obtain ⟨e, fault, rfl⟩ := nextFault_of_code value some_error
  have length : (openChunks h ds).length = n := (openChunks_length h ds).trans count.symm
  have few : n + 1 < 2 ^ 32 := length ▸ acc.few
  have base : s.ops.base.toNat + 8 + chunksSize (openChunks h ds) = p := acc.stands.place.symm
  obtain ⟨termFound, hdrFound⟩ := decoded_flags s h ds
  have last := base ▸ lastChunk_openChunks s h ds (s.ops.base.toNat + 8)
  refine ⟨_, acc.exec_fault fault, rfl, rfl, rfl, ?_⟩
  by_cases room : s.ops.limit.toNat < p + 8
  · cases (nextFault_noRoom room).symm.trans fault
    rw [faulted_noRoom (show (decoded s _).ops.limit.toNat < p + 8 from room), made_eq,
      if_pos room]
    refine ⟨termFound, hdrFound, chunkHeader_openChunks h ds, ?_, ?_, ?_,
      (if_pos (.inl room)).symm, fun fits => absurd room fits.not_gt,
      fun code => absurd code (by decide), fun _ => last⟩
    · exact (toNat_word (Nat.lt_of_succ_lt acc.few)).trans length
    · exact length ▸ chunkCounts_nrec (Nat.lt_of_succ_lt acc.few)
    · exact length ▸ decide_eq_true_iff
  · have room' := Nat.le_of_not_lt room
    have state := faulted_decoded (e := e) room' (Nat.lt_of_succ_lt acc.few)
    rw [length] at state
    rw [made_eq, if_neg room]
    refine ⟨?_, ?_, ?_, ?_, ?_, ?_, ?_, fun _ free => ?_, fun code => ?_, fun code => ?_⟩
    · rw [state]; exact termFound
    · rw [state]; exact hdrFound
    · rw [state]; exact chunkHeader_openChunks h ds
    · rw [state]
      have count : BitVec.ofNat 32 (openChunks h ds).length + 1 = BitVec.ofNat 32 (n + 1) := by
        rw [length]
        exact (BitVec.ofNat_add ..).symm
      exact (congrArg BitVec.toNat count).trans (toNat_word few)
    · rw [state]; exact toNat_word (Nat.lt_of_le_of_lt (Nat.min_le_left _ _) few)
    · rw [state]; exact decide_eq_true_iff
    · rw [state]
      exact ite_congr (by rw [misplaced_iff_code, or_iff_right room]) (fun _ => rfl) fun _ => rfl
    · have record := faulted_decoded_record (e := e) room' (Nat.lt_of_succ_lt acc.few)
        (length.symm ▸ free)
      rw [length] at record
      exact record.trans (faultRecord_words shape fault)
    · have sum : summed e = true := by
        rw [← Bool.not_eq_false, not_summed_iff_code fault]
        rcases code with code | code | code <;> rw [code] <;> decide
      rw [state]
      exact if_pos sum
    · have noSum : summed e = false := (not_summed_iff_code fault).2 code
      rw [state]
      exact (if_neg (by rw [noSum]; exact Bool.noConfusion)).trans last

end Sys2Proof.Proofs
end

section
/-! PROOF. A successful DECODE (43_scanner.md R185 to R188): it stands for a container at BASE, and
what it leaves is a function of that container. -/

namespace Sys2Proof.Proofs

open Sys2Proof.Machine Sys2Proof.Safety

/-! ### The container at BASE -/

section
variable {s : State} {hdr : List Byte} {ds : List (List Byte)} {z : Nat}

/-- R68: a container that stands at BASE, as signature and chunks. -/
theorem stands_iff_container (length : hdr.length = 13) : Stands s (containerChunks hdr ds) z ↔
    s.ops.limit.toNat ≤ bufSize s ∧ HoldsAt s.buf s.ops.base.toNat (container hdr ds) ∧
      z = s.ops.base.toNat + (container hdr ds).length ∧ z ≤ s.ops.limit.toNat := by
  rw [container_length length, container_eq, holdsAt_append, ← Nat.add_assoc]
  constructor
  · rintro ⟨-, inside, signed, holds, place, fits⟩
    exact ⟨inside, ⟨signed, holds⟩, place, fits⟩
  · rintro ⟨inside, ⟨signed, holds⟩, place, fits⟩
    exact ⟨containerChunks_standard length ds, inside, signed, holds, place, fits⟩

/-- R68: a container fits in 32-bit addresses. -/
theorem Stands.data_few (stands : Stands s (containerChunks hdr ds) z) :
    ds.length + 2 < 2 ^ 32 := by
  have chunks := length_le_chunksSize (containerChunks hdr ds)
  rw [containerChunks_length] at chunks
  have := stands.place
  have := stands.small
  omega

/-- R186: R_TYPE .. R_END after a container are those of its terminal chunk. -/
theorem lastChunk_container (stands : Stands s (containerChunks hdr ds) z) :
    lastChunk s (s.ops.base.toNat + 8) (containerChunks hdr ds) =
      { type := 0x49454E44, len := 0, data := BitVec.ofNat 32 (z - 4), stored := 0xAE426082
        computed := 0xAE426082, endAddr := BitVec.ofNat 32 z } := by
  have last : (containerChunks hdr ds).getLast? = some ⟨tagIend, []⟩ := by
    rw [containerChunks, ← List.cons_append, List.getLast?_concat]
  have size : 12 ≤ z := by
    have := stands.place
    have := chunksSize_containerChunks (hdr := hdr) (ds := ds)
    omega
  rw [lastChunk, last, ← stands.place]
  refine (builtChunk_tagIend (z - 12)).trans ?_
  rw [Nat.sub_add_cancel size, show z - 12 + 8 = z - 4 by omega]

end

/-! ### The state DECODE leaves -/

/-- What DECODE leaves after the container of a default header of dimensions `d` and data `ds`. -/
def decodedContainer (s : State) (d : Word × Word) (ds : List (List Byte)) : State :=
  complete (.finished true (decoded s (containerChunks (defaultHeader d.1 d.2) ds)))

/-- A container with a default header of dimensions other than 0 and some data stands at BASE and
ends at `z`. -/
structure ContainerAt (s : State) (d : Word × Word) (ds : List (List Byte)) (z : Nat) : Prop where
  width : d.1 ≠ 0
  height : d.2 ≠ 0
  some_data : ds ≠ []
  stands : Stands s (containerChunks (defaultHeader d.1 d.2) ds) z

section
variable {s : State} {d : Word × Word} {ds : List (List Byte)} {z : Nat}

/-- R188: DECODE accepts the container. -/
theorem ContainerAt.exec_decode (h : ContainerAt s d ds z) :
    exec .decode s = .next (decodedContainer s d ds) := by
  obtain ⟨width, height, some_data, stands⟩ := h
  obtain ⟨q, rfl⟩ := Stands.last (cs := openChunks (some d) ds) stands
  have before := ((stands_snoc .terminal).1 (openChunks_terminal d ds ▸ stands)).1
  have dims : ∀ x ∈ some d, x.1 ≠ 0 ∧ x.2 ≠ 0 := by
    intro x hx
    cases hx
    exact ⟨width, height⟩
  have acc : Accepted s (some d) ds q :=
    ⟨fun no => absurd no (Option.some_ne_none d), dims, before⟩
  rw [Proofs.exec_decode, acc.decodeBody_terminal some_data stands, decodedContainer]

/-- R188: a DECODE without error met a container. -/
theorem decode_containerAt {t : State} (run : exec .decode s = .next t)
    (ok : t.status.err = false) :
    ∃ d ds z, ContainerAt s d ds z ∧ t = decodedContainer s d ds := by
  rcases decodeEnd s with ⟨body, -⟩ | ⟨acc, fault⟩ | ⟨acc, some_data, stands⟩
  · rw [exec_decode, body] at run
    cases run
    cases ok
  · rw [acc.exec_fault fault] at run
    cases run
    cases ok
  · rename_i d ds p
    obtain ⟨width, height⟩ := acc.dims d rfl
    have h : ContainerAt s d ds (p + 12) := ⟨width, height, some_data, stands⟩
    exact ⟨d, ds, p + 12, h, (Host.Outcome.next.inj (h.exec_decode.symm.trans run)).symm⟩

/-- R43: the counters DECODE leaves. -/
theorem decodedContainer_counts (s : State) (d : Word × Word) (ds : List (List Byte)) :
    (decodedContainer s d ds).counts =
      { nrec := BitVec.ofNat 32 (min (ds.length + 2) s.cfg.resDepth)
        nmatch := BitVec.ofNat 32 (ds.length + 2)
        nbad := 0, nihdr := 1, nidat := BitVec.ofNat 32 ds.length, niend := 1 } :=
  chunkCounts_containerChunks _ _ _

/-- R174, R185: the flags DECODE leaves. -/
theorem decodedContainer_flags (s : State) (d : Word × Word) (ds : List (List Byte)) :
    (decodedContainer s d ds).status.hdrFound = true ∧
      (decodedContainer s d ds).status.termFound = true := by
  have found (k : Kind) := kindsIn_containerChunks (defaultHeader d.1 d.2) ds k
  exact ⟨decide_eq_true (by rw [found]; exact Nat.one_pos),
    decide_eq_true (by rw [found]; exact Nat.one_pos)⟩

/-- R174: the header DECODE latches. -/
theorem decodedContainer_header (s : State) (d : Word × Word) (ds : List (List Byte)) :
    (decodedContainer s d ds).header =
      { width := d.1, height := d.2, hparam := 0x00000208, hilace := 0 } :=
  latchedHeader_default d.1 d.2

/-- R186: the report DECODE leaves. -/
theorem ContainerAt.chunk (h : ContainerAt s d ds z) : (decodedContainer s d ds).chunk =
    { type := 0x49454E44, len := 0, data := BitVec.ofNat 32 (z - 4), stored := 0xAE426082
      computed := 0xAE426082, endAddr := BitVec.ofNat 32 z } := lastChunk_container h.stands

theorem ContainerAt.endAddr (h : ContainerAt s d ds z) :
    (decodedContainer s d ds).chunk.endAddr.toNat = z := by
  rw [h.chunk]
  exact toNat_word h.stands.small

end

/-- Settles O46: the container's chunks are accepted one after another. -/
theorem decodeAcceptsEveryContainer : Obligations.DecodeAcceptsEveryContainer := by
  intro s width height ds z hw hh some_data _ holds place fits inside
  have h : ContainerAt s (width, height) ds z :=
    ⟨hw, hh, some_data, (stands_iff_container rfl).2 ⟨inside, holds, place, fits⟩⟩
  have few := h.stands.data_few
  have counts := decodedContainer_counts s (width, height) ds
  obtain ⟨hdrFound, termFound⟩ := decodedContainer_flags s (width, height) ds
  refine ⟨_, h.exec_decode, rfl, rfl, rfl, hdrFound, termFound, ?_⟩
  rw [counts]
  refine ⟨toNat_word few, rfl, rfl, toNat_word (Nat.lt_of_add_right_lt few), rfl,
    toNat_word ((Nat.min_le_left _ _).trans_lt few),
    decodedContainer_header s (width, height) ds, h.chunk, fun k d hd room => ?_⟩
  have r := committed_describes (containerChunks_standard rfl ds) h.stands.holds
    (h.stands.place ▸ h.stands.small) (containerChunks_data hd) room
  exact ⟨r.len, r.data⟩

/-- Settles O47: a DECODE without error accepted the chunks of a container. -/
theorem decodeSuccessMeansAContainer : Obligations.DecodeSuccessMeansAContainer := by
  intro s t run ok _
  obtain ⟨d, ds, z, h, rfl⟩ := decode_containerAt run ok
  have few := h.stands.data_few
  have data : (BitVec.ofNat 32 ds.length).toNat = ds.length :=
    toNat_word (Nat.lt_of_add_right_lt few)
  have some_data : 1 ≤ ds.length := List.length_pos_iff.2 h.some_data
  have place := h.stands.place
  have endAddr : (BitVec.ofNat 32 z).toNat = z := toNat_word h.stands.small
  have dataAddr : (BitVec.ofNat 32 (z - 4)).toNat = z - 4 :=
    toNat_word ((Nat.sub_le z 4).trans_lt h.stands.small)
  obtain ⟨hdrFound, termFound⟩ := decodedContainer_flags s d ds
  obtain ⟨-, holds, length, fits⟩ := (stands_iff_container rfl).1 h.stands
  rw [h.chunk, decodedContainer_counts, decodedContainer_header, data, endAddr, dataAddr]
  refine ⟨rfl, hdrFound, termFound, rfl, rfl, some_data, rfl, toNat_word few, h.width, h.height,
    rfl, rfl, rfl, rfl, rfl, rfl, Nat.sub_add_cancel (by omega), fits, h.stands.signed, d.1, d.2,
    ds, h.width, h.height, h.some_data, holds, length, rfl, rfl, rfl⟩

/-- R187: the container stands on every memory that agrees up to its end. -/
theorem ContainerAt.setBuf {s : State} {d : Word × Word} {ds : List (List Byte)} {z : Nat}
    (h : ContainerAt s d ds z) {m : Memory} (agree : AgreeOn s.buf m s.ops.base.toNat z) :
    ContainerAt (s.setBuf m) d ds z := by
  obtain ⟨inside, holds, place, fits⟩ := (stands_iff_container rfl).1 h.stands
  have same : memRead m s.ops.base.toNat (container (defaultHeader d.1 d.2) ds).length
      = memRead s.buf s.ops.base.toNat (container (defaultHeader d.1 d.2) ds).length :=
    memRead_congr fun c low high => agree c low (place ▸ high)
  exact ⟨h.width, h.height, h.some_data,
    (stands_iff_container rfl).2 ⟨inside, same.trans holds, place, fits⟩⟩

/-- Settles O51: the same container stands on the other memory, and what DECODE leaves is a function
of the container. -/
theorem decodeIgnoresBytesAfterTheContainer : Obligations.DecodeIgnoresBytesAfterTheContainer := by
  intro s t m run ok _ agree
  obtain ⟨d, ds, z, h, rfl⟩ := decode_containerAt run ok
  rw [h.endAddr] at agree
  exact (h.setBuf agree).exec_decode

end Sys2Proof.Proofs
end

section
/-! PROOF. What the records and the report of a DECODE say (43_scanner.md R182, R186, R188): every
record but the last is that of an accepted chunk, and R_TYPE .. R_END are those of the last record
whose checksum was computed. -/

namespace Sys2Proof.Proofs

open Sys2Proof.Machine Sys2Proof.Safety

/-! ### The records -/

section
variable {s : State} {cs : List Chunk} {p j : Nat} {e : CmdError}

theorem Stands.few (stands : Stands s cs p) : cs.length < 2 ^ 32 := by
  have := length_le_chunksSize cs
  have := stands.place
  have := stands.small
  omega

/-- R188: the records of the accepted chunks. -/
theorem Stands.describes (stands : Stands s cs p) (found : j < cs.length)
    (room : j < s.cfg.resDepth) :
    ∃ c, Describes s.buf (resRecord (decoded s cs).res j) c :=
  ⟨_, committed_describes stands.standard stands.holds (stands.place ▸ stands.small)
    (List.getElem?_eq_getElem found) room⟩

/-- R182: the failing chunk's record leaves those before it. -/
theorem faulted_decoded_before (room : p + 8 ≤ s.ops.limit.toNat) (few : cs.length < 2 ^ 32)
    (before : j < cs.length) (free : j < s.cfg.resDepth) :
    resRecord (faulted e (decoded s cs) p).res j = resRecord (decoded s cs).res j := by
  have record := chunkRecords_getElem? (a := s.ops.base.toNat + 8) []
    (List.getElem?_eq_getElem before)
  rw [faulted_decoded room few]
  refine (resRecord_storeWithin ?_ free s.res).trans
    (resRecord_storeWithin record free s.res).symm
  rw [List.getElem?_append_left (by rwa [chunkRecords_length]), record]

/-- What the counters, the report and the records of `t` are where the chunk at `p` raised `e` after
the accepted chunks `cs`, and its length and tag found room (R173, R182, R186). -/
structure FaultLeft (s : State) (cs : List Chunk) (p : Nat) (e : CmdError) (t : State) : Prop where
  nrec : t.counts.nrec.toNat = min (cs.length + 1) s.cfg.resDepth
  nbad : t.counts.nbad = if misplaced e then 0 else 1
  code : t.status.errcode = e.code
  resOvf : t.status.resOvf = decide (s.cfg.resDepth < cs.length + 1)
  chunk : t.chunk = if summed e then fieldRegs s p else lastChunk s (s.ops.base.toNat + 8) cs
  last : cs.length < s.cfg.resDepth →
    resRecord t.res cs.length = (faultRecord e (decoded s cs) p).words
  before : ∀ j < cs.length, j < s.cfg.resDepth →
    resRecord t.res j = resRecord (decoded s cs).res j

theorem faultLeft_faulted (room : p + 8 ≤ s.ops.limit.toNat) (few : cs.length + 1 < 2 ^ 32) :
    FaultLeft s cs p e (complete (.raised e (faulted e (decoded s cs) p))) := by
  have state := faulted_decoded (e := e) room (Nat.lt_of_succ_lt few)
  rw [complete_raised]
  refine ⟨?_, ?_, rfl, ?_, ?_, faulted_decoded_record room (Nat.lt_of_succ_lt few),
    fun j => faulted_decoded_before room (Nat.lt_of_succ_lt few)⟩
  · rw [state]
    exact toNat_word (Nat.lt_of_le_of_lt (Nat.min_le_left _ _) few)
  · rw [state]
  · rw [state]
    rfl
  · rw [state]

end

/-! ### The bad record -/

/-- What R188 says of the bad records of a DECODE that left `t`. -/
structure OneBadAtMost (t : State) : Prop where
  count : t.counts.nbad = 0 ∨ t.counts.nbad = 1
  before : ∀ j, j + 1 < t.counts.nrec.toNat → (resRecord t.res j).flags.getLsbD 0 = true ∧
    (resRecord t.res j).flags.getLsbD 3 = false
  bad : t.status.resOvf = false → (t.counts.nbad = 1 ↔
    t.status.errcode = 1 ∨ t.status.errcode = 2 ∨ (t.status.errcode = 4 ∧
      0 < t.counts.nrec.toNat ∧
      (resRecord t.res (t.counts.nrec.toNat - 1)).flags.getLsbD 1 = true))

/-- The errors of the first checks (R180, R181). -/
theorem early_code {e : CmdError} (early : e = .addressRange ∨ e = .truncatedBuffer ∨
    e = .badSignature) : e.code = 9 ∨ e.code = 4 ∨ e.code = 6 := by
  rcases early with rfl | rfl | rfl <;> decide

theorem oneBadAtMost_first {s : State} {e : CmdError} (early : e = .addressRange ∨
    e = .truncatedBuffer ∨ e = .badSignature) :
    OneBadAtMost (complete (.raised e (clearResults s))) where
  count := .inl rfl
  before _ h := absurd h (Nat.not_lt_zero _)
  bad _ := by
    refine iff_of_false (by decide : (0 : Word) ≠ 1) ?_
    have code : (complete (.raised e (clearResults s))).status.errcode = e.code := rfl
    rw [code]
    rintro (h | h | ⟨-, none, -⟩)
    · rcases early_code early with h' | h' | h' <;> rw [h'] at h <;> exact absurd h (by decide)
    · rcases early_code early with h' | h' | h' <;> rw [h'] at h <;> exact absurd h (by decide)
    · exact Nat.lt_irrefl 0 none

section
variable {s : State} {cs : List Chunk} {p : Nat} {e : CmdError}

/-- R188: where every record is that of an accepted chunk, none is bad. -/
theorem oneBadAtMost_accepted {t : State} (stands : Stands s cs p)
    (counts : t.counts = chunkCounts s.cfg.resDepth cs) (res : t.res = (decoded s cs).res)
    (code : t.status.errcode = 0 ∨ t.status.errcode = 4) : OneBadAtMost t := by
  have nrec : t.counts.nrec.toNat = min cs.length s.cfg.resDepth := by
    rw [counts]
    exact chunkCounts_nrec stands.few
  have describes {j : Nat} (hj : j < t.counts.nrec.toNat) :
      ∃ c, Describes s.buf (resRecord t.res j) c := by
    rw [nrec, Nat.lt_min] at hj
    rw [res]
    exact stands.describes hj.1 hj.2
  refine ⟨.inl (by rw [counts]; rfl), fun j hj => ?_, fun _ => iff_of_false ?_ ?_⟩
  · obtain ⟨c, r⟩ := describes (Nat.lt_of_succ_lt hj)
    exact ⟨r.valid, r.wellFormed⟩
  · rw [counts]
    exact (by decide : (0 : Word) ≠ 1)
  · rintro (h | h | ⟨-, some_record, truncated⟩)
    · rcases code with h' | h' <;> rw [h'] at h <;> exact absurd h (by decide)
    · rcases code with h' | h' <;> rw [h'] at h <;> exact absurd h (by decide)
    · obtain ⟨c, r⟩ := describes (Nat.sub_one_lt_of_lt some_record)
      rw [r.whole] at truncated
      cases truncated

end

/-- R182: a chunk's record is bad where its tag, its length or its checksum is. -/
theorem not_misplaced_iff_code {h : Option (Word × Word)} {ds : List (List Byte)} {s : State}
    {p : Nat} {e : CmdError} (fault : nextFault h ds s p = some e) :
    misplaced e = false ↔ e.code = 1 ∨ e.code = 2 ∨ e.code = 4 := by
  rcases nextFault_cases fault with rfl | rfl | sum
  · decide
  · decide
  · revert sum
    cases e <;> decide

/-- R188: the bad record is that of the chunk with a fault. -/
theorem FaultLeft.oneBadAtMost {h : Option (Word × Word)} {ds : List (List Byte)} {s t : State}
    {p : Nat} {e : CmdError} (left : FaultLeft s (openChunks h ds) p e t)
    (stands : Stands s (openChunks h ds) p) (fault : nextFault h ds s p = some e) :
    OneBadAtMost t := by
  obtain ⟨nrec, nbad, code, resOvf, -, last, before⟩ := left
  refine ⟨?_, fun j hj => ?_, fun dropped => ?_⟩
  · rw [nbad]
    split
    · exact .inl rfl
    · exact .inr rfl
  · obtain ⟨found, free⟩ : j < (openChunks h ds).length ∧ j < s.cfg.resDepth := by omega
    obtain ⟨c, r⟩ := stands.describes found free
    rw [← before j found free] at r
    exact ⟨r.valid, r.wellFormed⟩
  · have free : (openChunks h ds).length + 1 ≤ s.cfg.resDepth :=
      Nat.le_of_not_lt (of_decide_eq_false (resOvf.symm.trans dropped))
    have trunc : (faultRecord e (decoded s (openChunks h ds)) p).words.flags.getLsbD 1
        = decide (e = .truncatedBuffer) := (flags_getLsbD _ 1).trans (by simp [faultRecord])
    rw [nbad, code, nrec, Nat.min_eq_left free, Nat.add_sub_cancel, last free, trunc,
      decide_eq_true_iff, truncated_iff_code, and_iff_right (Nat.succ_pos _), and_self,
      ← not_misplaced_iff_code fault]
    cases misplaced e <;> decide

/-- R188: the end of DECODE at a chunk with a fault. -/
theorem Accepted.oneBadAtMost {h : Option (Word × Word)} {ds : List (List Byte)} {s : State}
    {p : Nat} {e : CmdError} (acc : Accepted s h ds p) (fault : nextFault h ds s p = some e) :
    OneBadAtMost (complete (.raised e (faulted e (decoded s (openChunks h ds)) p))) := by
  by_cases room : s.ops.limit.toNat < p + 8
  · cases (nextFault_noRoom room).symm.trans fault
    rw [faulted_noRoom (show (decoded s _).ops.limit.toNat < p + 8 from room)]
    exact oneBadAtMost_accepted acc.stands rfl rfl (.inr rfl)
  · exact (faultLeft_faulted (Nat.le_of_not_lt room) acc.few).oneBadAtMost acc.stands fault

/-- Settles O48: only a chunk with a fault has a record that is bad, and that record is the last. -/
theorem decodeMakesAtMostOneBadRecord : Obligations.DecodeMakesAtMostOneBadRecord := by
  intro s t run _
  obtain ⟨count, before, bad⟩ : OneBadAtMost t := by
    rcases decodeEnd s with ⟨body, early⟩ | ⟨acc, fault⟩ | ⟨acc, some_data, stands⟩
    · rw [exec_decode, body] at run
      cases run
      exact oneBadAtMost_first early
    · rw [acc.exec_fault fault] at run
      cases run
      exact acc.oneBadAtMost fault
    · rw [exec_decode, acc.decodeBody_terminal some_data stands] at run
      cases run
      exact oneBadAtMost_accepted stands rfl rfl (.inl rfl)
  exact ⟨count, before, bad⟩

/-! ### The report -/

/-- The report R_TYPE .. R_END of the chunk a record describes (R42, R47). -/
def reportOf (r : ResRecord) : ChunkRegs where
  type := r.tag
  len := r.len
  data := r.tagAddr + 4
  stored := r.stored
  computed := r.computed
  endAddr := r.tagAddr + 8 + r.len

/-- The report of a chunk and its record agree (R182). -/
theorem reportOf_readRecord (s : State) (p : Nat) (r : ResRecord)
    (tag : r.tag = ofBE32 (fieldTag s p)) (len : r.len = fieldLen s p)
    (tagAddr : r.tagAddr = BitVec.ofNat 32 (p + 4)) (stored : r.stored = fieldStored s p)
    (computed : r.computed = fieldSum s p) :
    reportOf r = fieldRegs s p := by
  have data : BitVec.ofNat 32 (p + 4) + 4 = BitVec.ofNat 32 (p + 4 + 4) :=
    (BitVec.ofNat_add ..).symm
  have endAddr : BitVec.ofNat 32 (p + 4) + 8 + fieldLen s p
      = BitVec.ofNat 32 (p + 4 + 8 + (fieldLen s p).toNat) := by
    rw [BitVec.ofNat_add (p + 4 + 8) (fieldLen s p).toNat, BitVec.ofNat_add (p + 4) 8,
      BitVec.ofNat_toNat, BitVec.setWidth_eq]
    rfl
  rw [reportOf, tag, len, tagAddr, stored, computed, data, endAddr, fieldRegs, readChunkRegs]

section
variable {s : State} {cs : List Chunk} {p : Nat} {e : CmdError}

/-- R186: the report is that of the last accepted chunk. -/
theorem Stands.lastChunk_eq (stands : Stands s cs p) (room : cs.length ≤ s.cfg.resDepth) :
    lastChunk s (s.ops.base.toNat + 8) cs =
      if cs.length = 0 then s.chunk
      else reportOf (resRecord (decoded s cs).res (cs.length - 1)) := by
  rcases List.eq_nil_or_concat cs with rfl | ⟨cs, c, rfl⟩
  · rfl
  · rw [List.concat_eq_append] at stands room ⊢
    rw [List.length_append, List.length_singleton] at room ⊢
    obtain ⟨q, rfl⟩ := stands.last
    have std := stands.standard c (by simp)
    obtain ⟨before, here, fits⟩ := (stands_snoc std).1 stands
    have chunk := chunkAt_of_holdsAt std.tag_length here
    have small : q + c.size < 2 ^ 32 := stands.small
    have record : resRecord (decoded s (cs ++ [c])).res cs.length = (chunkRecord cs q c).words := by
      have found : (cs ++ [c])[cs.length]? = some c := by simp
      refine (committed_record found room).trans ?_
      rw [List.take_left, ← before.place]
    rw [if_neg (Nat.succ_ne_zero _), Nat.add_sub_cancel, record, lastChunk_snoc, ← before.place,
      ← fieldRegs_of_chunkAt chunk small]
    refine (reportOf_readRecord s q _ ?_ ?_ rfl ?_ ?_).symm
    · rw [fieldTag_of_chunkAt chunk]; rfl
    · rw [fieldLen_of_chunkAt chunk]; rfl
    · rw [fieldStored_of_chunkAt chunk small]; rfl
    · rw [fieldSum_of_chunkAt chunk small]; rfl

/-- R182: the report of a failing chunk whose checksum was computed. -/
theorem reportOf_faultRecord (sum : summed e = true) :
    reportOf (faultRecord e s p).words = fieldRegs s p :=
  reportOf_readRecord s p _ rfl rfl rfl (if_pos sum) (if_pos sum)

end

/-- What the first part of the claim says of a report `c` (R182, R186): it is that of a chunk of the
window of `s`. -/
structure ReportsChunk (s : State) (c : ChunkRegs) (a : Nat) : Prop where
  low : s.ops.base.toNat + 12 ≤ a
  high : a + 8 + c.len.toNat ≤ s.ops.limit.toNat
  type : c.type = ofBE32 (memRead s.buf a 4)
  len : c.len = ofBE32 (memRead s.buf (a - 4) 4)
  stored : c.stored = ofBE32 (memRead s.buf (a + 4 + c.len.toNat) 4)
  computed : c.computed = crc32 (memRead s.buf a (4 + c.len.toNat))
  endAddr : c.endAddr.toNat = a + 8 + c.len.toNat

/-- The report of a chunk of the window past the signature. -/
theorem fieldRegs_reportsChunk {s : State} {p : Nat} (low : s.ops.base.toNat + 8 ≤ p)
    (high : p + 12 + (fieldLen s p).toNat ≤ s.ops.limit.toNat) :
    ReportsChunk s (fieldRegs s p) ((fieldRegs s p).data.toNat - 4) := by
  have limit := s.ops.limit.isLt
  have data : (fieldRegs s p).data.toNat - 4 = p + 4 := by
    have : (fieldRegs s p).data.toNat = p + 4 + 4 := toNat_word (by omega)
    omega
  rw [data]
  exact ⟨by omega, by show p + 4 + 8 + (fieldLen s p).toNat ≤ _; omega, rfl, rfl, rfl, rfl,
    toNat_word (by omega)⟩

/-- R182: a chunk whose checksum was computed lies in the window; CHECKSUM_MISMATCH is the error of
one whose checksums differ. -/
theorem nextFault_summed {h : Option (Word × Word)} {ds : List (List Byte)} {s : State} {p : Nat}
    {e : CmdError} (fault : nextFault h ds s p = some e) (sum : summed e = true) :
    p + 12 + (fieldLen s p).toNat ≤ s.ops.limit.toNat ∧
      (fieldStored s p ≠ fieldSum s p ↔ e.code = 2) := by
  rcases Option.or_eq_some_iff.1 fault with read | ⟨read, place⟩
  · unfold readFault at read
    split_ifs at read with room tag past sums
    · cases read; cases sum
    · cases read; cases sum
    · cases read; cases sum
    · cases read
      exact ⟨Nat.le_of_not_lt past, iff_of_true sums rfl⟩
  · unfold readFault at read
    split_ifs at read with room tag past sums
    refine ⟨Nat.le_of_not_lt past, iff_of_false sums ?_⟩
    unfold placeFault at place
    split_ifs at place <;> cases place <;> decide

/-- R186: the end of DECODE that has a report of its own. -/
theorem Accepted.reportsChunk {h : Option (Word × Word)} {ds : List (List Byte)} {s : State}
    {p : Nat} {e : CmdError} (acc : Accepted s h ds p) (fault : nextFault h ds s p = some e)
    (sum : summed e = true) :
    (faulted e (decoded s (openChunks h ds)) p).chunk = fieldRegs s p := by
  have fits := (nextFault_summed fault sum).1
  rw [faulted_decoded (Nat.le_trans (by omega) fits) (Nat.lt_of_succ_lt acc.few)]
  exact if_pos sum

/-- R186: a DECODE that ended with one of these codes reports a chunk whose checksum it computed. -/
theorem decode_reports {s t : State} (run : exec .decode s = .next t)
    (code : t.status.errcode ∈ [0#4, 2, 3, 7]) : ∃ p, s.ops.base.toNat + 8 ≤ p ∧
      p + 12 + (fieldLen s p).toNat ≤ s.ops.limit.toNat ∧ t.chunk = fieldRegs s p ∧
      (fieldStored s p ≠ fieldSum s p ↔ t.status.errcode = 2) := by
  rcases decodeEnd s with ⟨body, early⟩ | ⟨acc, fault⟩ | ⟨acc, some_data, stands⟩
  · rename_i e
    rw [exec_decode, body] at run
    cases run
    have code : e.code ∈ [0#4, 2, 3, 7] := code
    rcases early_code early with h | h | h <;> rw [h] at code <;> exact absurd code (by decide)
  · rename_i h ds p e
    rw [acc.exec_fault fault] at run
    cases run
    have code : e.code ∈ [0#4, 2, 3, 7] := code
    have sum : summed e = true := by
      rw [← Bool.not_eq_false, not_summed_iff_code fault]
      rintro (h | h) <;> rw [h] at code <;> exact absurd code (by decide)
    obtain ⟨fits, mismatch⟩ := nextFault_summed fault sum
    exact ⟨p, acc.stands.place ▸ Nat.le_add_right _ _, fits, acc.reportsChunk fault sum, mismatch⟩
  · rename_i d ds p
    rw [exec_decode, acc.decodeBody_terminal some_data stands] at run
    cases run
    have here := ((stands_snoc .terminal).1 (openChunks_terminal d ds ▸ stands)).2.1
    have chunk : ChunkAt s.buf p tagIend [] := chunkAt_of_holdsAt rfl here
    have small : p + (Chunk.mk tagIend []).size < 2 ^ 32 := stands.small
    have len : (fieldLen s p).toNat = 0 :=
      fieldLen_toNat_of_chunkAt (c := ⟨tagIend, []⟩) chunk small
    refine ⟨p, acc.stands.place ▸ Nat.le_add_right _ _, by rw [len]; exact stands.fits, ?_,
      iff_of_false (not_not.2 ?_) (by decide : (0 : BitVec 4) ≠ 2)⟩
    · refine (lastChunk_snoc s _ (openChunks (some d) ds) ⟨tagIend, []⟩).trans ?_
      rw [← acc.stands.place, ← fieldRegs_of_chunkAt (c := ⟨tagIend, []⟩) chunk small]
    · rw [fieldStored_of_chunkAt (c := ⟨tagIend, []⟩) chunk small,
        fieldSum_of_chunkAt (c := ⟨tagIend, []⟩) chunk small]

/-- What the second part of the claim says of a DECODE that left `t` and dropped no record: the
report is that of the last of the records whose checksum was computed (R186). -/
def ReportsLast (s t : State) : Prop :=
  ∃ n, n = (if t.status.errcode = 2 then t.counts.nrec.toNat
      else t.counts.nrec.toNat - t.counts.nbad.toNat) ∧
    t.chunk = (if n = 0 then s.chunk else reportOf (resRecord t.res (n - 1))) ∧
    (t.status.errcode ∈ [0#4, 2, 3, 7] → 0 < n ∧ n = t.counts.nrec.toNat)

/-- R186: where every record is that of an accepted chunk, the report is that of the last. -/
theorem reportsLast_accepted {s t : State} {cs : List Chunk} {p : Nat} (stands : Stands s cs p)
    (room : cs.length ≤ s.cfg.resDepth) (counts : t.counts = chunkCounts s.cfg.resDepth cs)
    (res : t.res = (decoded s cs).res) (report : t.chunk = lastChunk s (s.ops.base.toNat + 8) cs)
    (code : t.status.errcode ∈ [0#4, 2, 3, 7] → 0 < cs.length) : ReportsLast s t := by
  have nrec : t.counts.nrec.toNat = cs.length := by
    rw [counts, chunkCounts_nrec stands.few, Nat.min_eq_left room]
  have nbad : t.counts.nbad.toNat = 0 := by rw [counts]; rfl
  refine ⟨cs.length, ?_, ?_, fun h => ⟨code h, nrec.symm⟩⟩
  · rw [nrec, nbad, Nat.sub_zero, ite_self]
  · rw [report, stands.lastChunk_eq room, res]

section
variable {h : Option (Word × Word)} {ds : List (List Byte)} {s t : State} {p : Nat} {e : CmdError}

/-- R182, R186: where the failing chunk's checksum was computed, its record is the last. -/
theorem FaultLeft.reportsLast_summed (left : FaultLeft s (openChunks h ds) p e t)
    (free : (openChunks h ds).length + 1 ≤ s.cfg.resDepth) (sum : summed e = true) :
    ReportsLast s t := by
  obtain ⟨nrec, nbad, code, -, report, last, -⟩ := left
  rw [Nat.min_eq_left free] at nrec
  have good : e.code ≠ 2 → misplaced e = true := by
    revert sum
    cases e <;> decide
  refine ⟨t.counts.nrec.toNat, ?_, ?_, fun _ => ⟨nrec ▸ Nat.succ_pos _, rfl⟩⟩
  · rw [code]
    split
    · rfl
    · rename_i mismatch
      rw [nbad, good mismatch]
      rfl
  · rw [nrec, if_neg (Nat.succ_ne_zero _), Nat.add_sub_cancel, last free, report, if_pos sum,
      reportOf_faultRecord (s := decoded s (openChunks h ds)) sum]
    rfl

/-- R182, R186: where it was not, the last record but one is that of the last accepted chunk. -/
theorem FaultLeft.reportsLast_unsummed (left : FaultLeft s (openChunks h ds) p e t)
    (stands : Stands s (openChunks h ds) p) (fault : nextFault h ds s p = some e)
    (free : (openChunks h ds).length + 1 ≤ s.cfg.resDepth) (sum : summed e = false) :
    ReportsLast s t := by
  obtain ⟨nrec, nbad, code, -, report, -, before⟩ := left
  rw [Nat.min_eq_left free] at nrec
  have early := (not_summed_iff_code fault).1 sum
  have bad : misplaced e = false := by
    revert sum
    cases e <;> decide
  refine ⟨(openChunks h ds).length, ?_, ?_, fun inList => ?_⟩
  · rw [code, nbad, bad, nrec, if_neg (by rcases early with h | h <;> rw [h] <;> decide)]
    rfl
  · rw [report, sum, if_neg Bool.noConfusion, stands.lastChunk_eq (Nat.le_of_succ_le free)]
    refine ite_congr rfl (fun _ => rfl) fun some_chunk => ?_
    have found := Nat.sub_one_lt some_chunk
    rw [before _ found (Nat.lt_of_lt_of_le found (Nat.le_of_succ_le free))]
  · rw [code] at inList
    rcases early with h | h <;> rw [h] at inList <;> exact absurd inList (by decide)

end

/-- R182, R186: the report of a DECODE that ended at a chunk with a fault. -/
theorem Accepted.reportsLast {h : Option (Word × Word)} {ds : List (List Byte)} {s : State}
    {p : Nat} {e : CmdError} (acc : Accepted s h ds p) (fault : nextFault h ds s p = some e)
    (dropped : (faulted e (decoded s (openChunks h ds)) p).status.resOvf = false) :
    ReportsLast s (complete (.raised e (faulted e (decoded s (openChunks h ds)) p))) := by
  by_cases room : s.ops.limit.toNat < p + 8
  · cases (nextFault_noRoom room).symm.trans fault
    rw [faulted_noRoom (show (decoded s _).ops.limit.toNat < p + 8 from room)] at dropped ⊢
    exact reportsLast_accepted acc.stands (Nat.le_of_not_lt (of_decide_eq_false dropped)) rfl rfl
      rfl fun code => absurd code (by decide : (4 : BitVec 4) ∉ [0#4, 2, 3, 7])
  · have left := faultLeft_faulted (e := e) (Nat.le_of_not_lt room) acc.few
    have free := Nat.le_of_not_lt (of_decide_eq_false (left.resOvf.symm.trans dropped))
    cases sum : summed e with
    | true => exact left.reportsLast_summed free sum
    | false => exact left.reportsLast_unsummed acc.stands fault free sum

/-- R186: the report of every DECODE that dropped no record. -/
theorem decode_reportsLast {s t : State} (run : exec .decode s = .next t)
    (dropped : t.status.resOvf = false) : ReportsLast s t := by
  rcases decodeEnd s with ⟨body, early⟩ | ⟨acc, fault⟩ | ⟨acc, some_data, stands⟩
  · rename_i e
    rw [exec_decode, body] at run
    cases run
    refine ⟨0, ?_, rfl, fun code => ?_⟩
    · exact (ite_self _).symm
    · have code : e.code ∈ [0#4, 2, 3, 7] := code
      rcases early_code early with h | h | h <;> rw [h] at code <;> exact absurd code (by decide)
  · rw [acc.exec_fault fault] at run
    cases run
    exact acc.reportsLast fault dropped
  · rename_i d ds p
    rw [exec_decode, acc.decodeBody_terminal some_data stands] at run
    cases run
    exact reportsLast_accepted stands (Nat.le_of_not_lt (of_decide_eq_false dropped)) rfl rfl rfl
      fun _ => Nat.succ_pos _

/-- Settles O49: the report is that of the last chunk whose checksum was computed. -/
theorem decodeReportsItsLastChunk : Obligations.DecodeReportsItsLastChunk := by
  refine ⟨fun s t a run code place => ?_, fun s t n r run _ dropped count record => ?_⟩
  · obtain ⟨p, low, high, report, mismatch⟩ := decode_reports run code
    obtain ⟨low, high, type, len, stored, computed, endAddr⟩ := fieldRegs_reportsChunk low high
    rw [place, report]
    exact ⟨low, high, type, len, stored, computed, endAddr, mismatch⟩
  · obtain ⟨m, hm, report, last⟩ := decode_reportsLast run dropped
    obtain rfl : n = m := count.trans hm.symm
    subst record
    exact ⟨report, last⟩

end Sys2Proof.Proofs
end

section
/-! PROOF. SCAN after a successful DECODE (43_scanner.md R179, R188): it finds the same chunks,
makes the same records and leaves the same state. -/

namespace Sys2Proof.Proofs

open Sys2Proof.Machine Sys2Proof.Safety

/-! ### A container's bytes determine its chunks -/

/-- R63: the bytes of a chunk tell its tag and its data, and where the chunk ends. -/
theorem chunkBytes_inj {c c' : Chunk} {xs ys : List Byte} (std : c.Standard) (std' : c'.Standard)
    (small : c.data.length < 2 ^ 32) (small' : c'.data.length < 2 ^ 32)
    (h : c.bytes ++ xs = c'.bytes ++ ys) : c = c' ∧ xs = ys := by
  obtain ⟨tag, d⟩ := c
  obtain ⟨tag', d'⟩ := c'
  simp only [Chunk.bytes, chunkBytes, List.append_assoc] at h
  obtain ⟨len, h⟩ := List.append_inj h rfl
  obtain ⟨htag, h⟩ := List.append_inj h (std.tag_length.trans std'.tag_length.symm)
  have words := congrArg (fun bs => (ofBE32 bs).toNat) len
  simp only [ofBE32_toBE32, toNat_word small, toNat_word small'] at words
  obtain ⟨hd, h⟩ := List.append_inj h words
  exact ⟨by rw [htag, hd], (List.append_inj h rfl).2⟩

theorem chunksBytes_inj {cs cs' : List Chunk} (std : ∀ c ∈ cs, c.Standard)
    (std' : ∀ c ∈ cs', c.Standard) (small : chunksSize cs < 2 ^ 32)
    (small' : chunksSize cs' < 2 ^ 32)
    (h : chunksBytes cs = chunksBytes cs') : cs = cs' := by
  have size : chunksSize cs = chunksSize cs' := by
    rw [← chunksBytes_length std, ← chunksBytes_length std', h]
  induction cs generalizing cs' with
  | nil =>
    cases cs' with
    | nil => rfl
    | cons c cs' => rw [chunksSize_cons, Chunk.size, chunksSize_nil] at size; omega
  | cons c cs ih =>
    cases cs' with
    | nil => rw [chunksSize_cons, Chunk.size, chunksSize_nil] at size; omega
    | cons c' cs' =>
      rw [chunksSize_cons] at small small'
      have cSize : c.size = 12 + c.data.length := rfl
      have cSize' : c'.size = 12 + c'.data.length := rfl
      obtain ⟨rfl, rest⟩ := chunkBytes_inj (std c List.mem_cons_self) (std' c' List.mem_cons_self)
        (by omega) (by omega) h
      rw [chunksSize_cons, chunksSize_cons, Nat.add_left_cancel_iff] at size
      rw [ih (fun x hx => std x (List.mem_cons_of_mem _ hx))
        (fun x hx => std' x (List.mem_cons_of_mem _ hx)) (by omega) (by omega) rest size]

theorem mem_containerChunks_data {hdr x : List Byte} {ds : List (List Byte)} :
    ⟨tagIdat, x⟩ ∈ containerChunks hdr ds ↔ x ∈ ds := by
  simp [containerChunks, tagIdat, tagIhdr, tagIend]

section
variable {s : State} {d : Word × Word} {ds : List (List Byte)} {z : Nat}

/-- R68: the container at BASE with a given end is one only. -/
theorem ContainerAt.data_of_container (h : ContainerAt s d ds z) {width height : Word}
    {ds' : List (List Byte)}
    (holds : HoldsAt s.buf s.ops.base.toNat (container (defaultHeader width height) ds'))
    (length : z = s.ops.base.toNat + (container (defaultHeader width height) ds').length) :
    ∀ x ∈ ds, x ∈ ds' := by
  have stands' : Stands s (containerChunks (defaultHeader width height) ds') z :=
    (stands_iff_container rfl).2 ⟨h.stands.inside, holds, length, h.stands.fits⟩
  have place := h.stands.place
  have place' := stands'.place
  have small := h.stands.small
  have bytes := h.stands.holds
  have bytes' := stands'.holds
  rw [HoldsAt, chunksBytes_length h.stands.standard] at bytes
  rw [HoldsAt, chunksBytes_length stands'.standard] at bytes'
  have same : chunksBytes (containerChunks (defaultHeader d.1 d.2) ds)
      = chunksBytes (containerChunks (defaultHeader width height) ds') := by
    rw [← bytes, ← bytes']
    congr 1
    omega
  have chunks := chunksBytes_inj h.stands.standard stands'.standard (by omega) (by omega) same
  intro x hx
  rw [← mem_containerChunks_data (hdr := defaultHeader width height), ← chunks]
  exact mem_containerChunks_data.2 hx

/-- R179: no length field of a container in a memory of at most 2^30 bytes is a tag value. -/
theorem ContainerAt.unambiguous_of_bufAw (h : ContainerAt s d ds z) (narrow : s.cfg.bufAw ≤ 30) :
    ∀ x ∈ ds, (Chunk.mk tagIdat x).Unambiguous := by
  intro x hx
  obtain ⟨j, hj⟩ := List.mem_iff_getElem?.1
    ((mem_containerChunks_data (hdr := defaultHeader d.1 d.2)).2 hx)
  have size := chunksSize_take_le hj
  have place := h.stands.place
  have fits := h.stands.fits
  have inside : s.ops.limit.toNat ≤ 2 ^ 30 :=
    h.stands.inside.trans (Nat.pow_le_pow_right (by decide) narrow)
  simp only [Chunk.size] at size
  simp only [Chunk.Unambiguous]
  omega

/-! ### SCAN again -/

/-- R188: SCAN of the container DECODE accepted, from its signature or from its first chunk. -/
theorem ContainerAt.exec_scan (h : ContainerAt s d ds z)
    (unambiguous : ∀ x ∈ ds, (Chunk.mk tagIdat x).Unambiguous) {o : OperandRegs}
    (limit : o.limit.toNat = z)
    (base : o.base.toNat = s.ops.base.toNat + 8 ∨ o.base.toNat = s.ops.base.toNat) :
    exec .scan ((decodedContainer s d ds).setOps o)
      = .next ((decodedContainer s d ds).setOps o) := by
  have std := containerChunks_standard (hdr := defaultHeader d.1 d.2) rfl ds
  have body := scanBody_chunks (s := (decodedContainer s d ds).setOps o)
    (a := s.ops.base.toNat + 8)
    (fun c hc => ⟨std c hc, containerChunks_unambiguous rfl unambiguous c hc⟩) h.stands.holds
    (by show o.base.toNat ≤ _; omega)
    (fun i hi => by
      have hi : i < s.ops.base.toNat + 8 - o.base.toNat := hi
      rcases base with start | start
      · omega
      · show kindOf (memRead s.buf (o.base.toNat + i) 4) = .other
        rw [start]
        exact signature_no_match h.stands.signed (by omega))
    (limit.trans h.stands.place)
    (by show o.limit.toNat ≤ _; rw [limit]; exact h.stands.fits.trans h.stands.inside)
  have res : storeWithin ((decodedContainer s d ds).setOps o).cfg.resDepth
      (chunkRecords (s.ops.base.toNat + 8) [] (containerChunks (defaultHeader d.1 d.2) ds))
      ((decodedContainer s d ds).setOps o).res = ((decodedContainer s d ds).setOps o).res :=
    storeWithin_again ..
  rw [Proofs.exec_scan, body, complete_finished, committed, res]
  rfl

end

/-- Settles O50: both windows hold exactly the chunks of the container DECODE accepted. -/
theorem scanAgreesWithDecode : Obligations.ScanAgreesWithDecode := by
  intro s t o run ok _ lengths window
  obtain ⟨d, ds, z, h, rfl⟩ := decode_containerAt run ok
  have endAddr := h.endAddr
  have unambiguous : ∀ x ∈ ds, (Chunk.mk tagIdat x).Unambiguous := by
    rcases lengths with narrow | ⟨width, height, ds', holds, length, differ⟩
    · exact h.unambiguous_of_bufAw narrow
    · rw [endAddr] at length
      exact fun x hx => differ x (h.data_of_container holds length x hx)
  have place := h.stands.place
  have small := h.stands.small
  rcases window with rfl | rfl
  · refine h.exec_scan unambiguous endAddr (.inl ?_)
    show (s.ops.base + 8).toNat = _
    rw [BitVec.toNat_add]
    exact Nat.mod_eq_of_lt (by show s.ops.base.toNat + 8 < _; omega)
  · exact h.exec_scan unambiguous endAddr (.inr rfl)

end Sys2Proof.Proofs
end

section
/-! PROOF. Issue, completion and the interrupt (60_exceptions.md R200 to R209): what a write to CMD
does, how every command completes, what moves BUSY and `irq`, and that no step is stuck. -/

namespace Sys2Proof.Proofs

open Sys2Proof.Machine Sys2Proof.Safety

/-! ### ERR, ERRCODE and VALID -/

/-- R200: the error codes are 1 to 10. -/
theorem code_range (e : CmdError) : e.code ≠ 0 ∧ e.code.toNat ≤ 10 := by
  cases e <;> decide

/-- R204: a completion sets ERR, ERRCODE and VALID, whatever they were. -/
theorem complete_errorInv (b : Ended) : ErrorInv (complete b) := by
  cases b with
  | finished v s => exact ⟨Nat.zero_le _, ⟨nofun, fun h => absurd rfl h⟩, nofun⟩
  | raised e s =>
    obtain ⟨nonzero, range⟩ := code_range e
    exact ⟨range, ⟨fun _ => nonzero, fun _ => rfl⟩, fun _ => rfl⟩

/-- Three zeros are consistent: ERR, ERRCODE and VALID after an issue (R203) and a reset (R230). -/
theorem errorInv_of_zero {s : State} (err : s.status.err = false) (code : s.status.errcode = 0) :
    ErrorInv s := by
  simp [ErrorInv, err, code]

/-- R205: an illegal word leaves ERRCODE = 8, ERR = 1 and VALID = 0. -/
theorem refuseWord_errorInv (v : Word) (s : State) : ErrorInv (refuseWord v s) :=
  ⟨(code_range .illegalCommand).2, ⟨fun _ => (code_range .illegalCommand).1, fun _ => rfl⟩,
    fun _ => rfl⟩

theorem storeReg_errorInv (v : Word) {s : State} (r : Reg) (h : ErrorInv s) :
    ErrorInv (storeReg v s r) := by
  rw [storeReg_eq]
  exact h

/-- Settles O53: completions, issues, refusals and resets set the three fields together, and nothing
else writes them. -/
theorem everyStepKeepsErrorInv : Obligations.EveryStepKeepsErrorInv := fun _ _ hs hstep =>
  step_keeps (P := ErrorInv)
    (own := fun _ _ _ _ h => h)
    (performed := fun _ _ _ _ b _ _ _ _ => complete_errorInv b)
    (dropped := fun _ h _ => h)
    (issued := fun _ _ _ _ _ _ => errorInv_of_zero rfl rfl)
    (illegal := fun s v _ _ => refuseWord_errorInv v s)
    (acked := fun _ _ h _ => h)
    (crc := fun _ _ h => h)
    (stored := fun _ v r h => storeReg_errorInv v r h)
    (bufWritten := fun _ _ _ h _ => h)
    (reset := fun _ _ => errorInv_of_zero rfl rfl)
    hs hstep

/-! ### How a command ends -/

/-- R204's table: the VALID of the command `i` that finishes in the state `s`. -/
def verdictOf (i : Instr) (s : State) : Bool :=
  match i with
  | .parseAt => decide (s.chunk.stored = s.chunk.computed)
  | .parseAtS => decide (s.chunk.stored = s.chunk.computed)
  | .scan => decide (s.counts.nbad = 0)
  | .decode => true
  | _ => false

/-- The ends a command's pseudocode has: a raise of one of its errors, or the verdict of R204's
table. -/
inductive CommandEnd (i : Instr) : Ended → Prop where
  | raised {e : CmdError} (s : State) (legal : e ≠ .illegalCommand) : CommandEnd i (.raised e s)
  | finished (s : State) : CommandEnd i (.finished (verdictOf i s) s)

/-- R150: both forms of PARSE_AT finish with the comparison of the checksums. -/
theorem parseAtBody_end {i : Instr} (strict : Bool) (s : State)
    (verdict : ∀ u, verdictOf i u = decide (u.chunk.stored = u.chunk.computed)) :
    CommandEnd i (parseAtBody strict s) := by
  rcases parseAtBody_cases strict s with ⟨_, legal, _, e⟩ | ⟨_, _, e⟩ | ⟨_, e⟩ <;> rw [e]
  · exact .raised _ legal
  · exact .raised _ (by decide)
  · exact verdict (s.setChunk (examinedChunk s)) ▸ .finished (s.setChunk (examinedChunk s))

/-- R171: SCAN finishes with R_NBAD = 0. -/
theorem scanBody_end (s : State) : CommandEnd .scan (scanBody s) := by
  cases window : windowOk s with
  | false => exact scanBody_badWindow window ▸ .raised _ (by decide)
  | true => exact scanBody_window window ▸ .finished _

/-- R182 to R184: a chunk raises no ILLEGAL_COMMAND. -/
theorem nextFault_ne_illegalCommand {h : Option (Word × Word)} {ds : List (List Byte)} {s : State}
    {p : Nat} {e : CmdError} (fault : nextFault h ds s p = some e) : e ≠ .illegalCommand := by
  rcases nextFault_cases fault with rfl | rfl | sum
  · decide
  · decide
  · rintro rfl
    cases sum

/-- R180, R185: DECODE finishes at a container's end only. -/
theorem decodeBody_end (s : State) : CommandEnd .decode (decodeBody s) := by
  cases decodeEnd s with
  | first body early =>
    rw [body]
    exact .raised _ (by rcases early with rfl | rfl | rfl <;> decide)
  | fault acc fault =>
    rw [acc.decodeBody_fault fault]
    exact .raised _ (nextFault_ne_illegalCommand fault)
  | terminal acc some_data stands =>
    rw [acc.decodeBody_terminal some_data stands]
    exact .finished _

/-- R202, R204: how each command ends. -/
theorem commandBody_end {i : Instr} {s : State} {b : Ended} (hb : commandBody i s = some b) :
    CommandEnd i b := by
  cases i with
  | crcRange =>
    cases hb
    rcases crcRangeBody_cases s with e | ⟨_, e⟩ <;> rw [e]
    · exact .raised _ (by decide)
    · exact .finished _
  | frame =>
    cases hb
    rcases frameBody_cases s with ⟨_, legal, e⟩ | ⟨_, _, e⟩ <;> rw [e]
    · exact .raised _ legal
    · exact .finished _
  | frameHdr =>
    cases hb
    rcases frameHdrBody_cases s with ⟨_, legal, e⟩ | ⟨_, e⟩ <;> rw [e]
    · exact .raised _ legal
    · exact .finished _
  | frameEnd =>
    cases hb
    rcases frameEndBody_cases s with ⟨_, legal, e⟩ | ⟨_, e⟩ <;> rw [e]
    · exact .raised _ legal
    · exact .finished _
  | emitSig =>
    cases hb
    rcases emitSigBody_cases s with ⟨_, legal, e⟩ | ⟨_, e⟩ <;> rw [e]
    · exact .raised _ legal
    · exact .finished _
  | parseAt => cases hb; exact parseAtBody_end false s fun _ => rfl
  | parseAtS => cases hb; exact parseAtBody_end true s fun _ => rfl
  | scan => cases hb; exact scanBody_end s
  | decode => cases hb; exact decodeBody_end s
  | crcFeed v => cases hb
  | crcLoad v => cases hb
  | statusAck v => cases hb

/-- R204: the framer commands and CRC_RANGE leave VALID = 0. -/
theorem verdictOf_framer {i : Instr}
    (h : i ∈ [Instr.crcRange, .frame, .frameHdr, .frameEnd, .emitSig]) (s : State) :
    verdictOf i s = false := by
  fin_cases h <;> rfl

/-- R204: the parser commands leave VALID = 1 exactly when the checksums agree. -/
theorem verdictOf_parser {i : Instr} (h : i ∈ [Instr.parseAt, .parseAtS]) (s : State) :
    verdictOf i s = true ↔ s.chunk.stored = s.chunk.computed := by
  fin_cases h <;> exact decide_eq_true_iff

/-- Settles O20: a raise sets ERR, ERRCODE and VALID = 0, and a finish clears ERR and ERRCODE and
sets VALID to the verdict of R204's table. -/
theorem everyCommandCompletes : Obligations.EveryCommandCompletes := by
  intro i s hi
  obtain ⟨b, hb⟩ := commandBody_isSome hi s
  refine ⟨complete b, exec_command hb, ?_⟩
  cases commandBody_end hb with
  | raised u legal =>
    exact ⟨rfl, rfl, rfl, fun _ => ⟨rfl, _, legal, rfl⟩, nofun, fun _ => rfl, fun _ => nofun,
      fun _ => nofun, fun _ => nofun⟩
  | finished u =>
    refine ⟨rfl, rfl, rfl, nofun, fun _ => rfl, fun framer => verdictOf_framer framer u,
      fun parser _ => verdictOf_parser parser u, ?_, ?_⟩
    · rintro rfl -
      exact decide_eq_true_iff
    · rintro rfl -
      rfl

/-! ### Writes to CMD -/

theorem locate_regAddr_cmd (p : Params) : locate p (regAddr 0x000) = .named .cmd :=
  (registersStandAtTheirOffsets p).1 (0x000, .cmd) (by decide)

/-- R76: a register write as the next event. -/
theorem step_regWrite {s : State} {wa : RegAddr} {v : Word} {rest : List Event}
    (h : s.inputs = .regWrite wa v :: rest) : step s = hostRegWrite wa v (s.setInputs rest) := by
  simp only [step, h, performEvent]

/-- R237: a register write while BUSY = 1 is dropped. -/
theorem hostRegWrite_busy {s : State} (wa : RegAddr) (v : Word) (hb : s.status.busy = true) :
    hostRegWrite wa v s = .next (dropWrite s) := if_pos hb

section
variable {s : State} {v : Word} {rest : List Event}

/-- R24: a write to CMD while BUSY = 0. -/
theorem step_cmdWrite (hin : s.inputs = .regWrite (regAddr 0x000) v :: rest)
    (hb : s.status.busy = false) : step s = .next (writeCmd v (s.setInputs rest)) := by
  rw [step_regWrite hin]
  simp [hostRegWrite, hb, locate_regAddr_cmd]

theorem writeCmd_legal {i : Instr} (s : State) (h : decodeCommand v = .ok i) :
    writeCmd v s = issue v s := by
  rw [writeCmd, h]

theorem writeCmd_illegal (s : State) (h : ∀ i, decodeCommand v ≠ .ok i) :
    writeCmd v s = refuseWord v s := by
  unfold writeCmd
  split
  · exact absurd ‹_› (h _)
  · rfl

/-- R83: a word that is not one of the nine decodes as no command. -/
theorem decodeCommand_ne_ok (h : v ∉ [0x00000001#32, 0x00000002, 0x00000003, 0x00000004,
    0x00000005, 0x00000006, 0x00000016, 0x00000007, 0x00000008]) (i : Instr) :
    decodeCommand v ≠ .ok i := fun legal =>
  h (List.mem_map_of_mem (f := Prod.fst) ((legalCommandWordsAreTheNine.1 v i).1 legal))

end

/-- Settles O6: the write is an issue while idle, and is dropped while busy. -/
theorem legalWriteToCmdIssues : Obligations.LegalWriteToCmdIssues := by
  intro s v rest i hin legal
  refine ⟨fun hb => ?_, fun hb => ?_⟩
  · rw [step_cmdWrite hin hb, writeCmd_legal _ legal]
    rfl
  · rw [step_regWrite hin]
    exact hostRegWrite_busy (s := s.setInputs rest) _ _ hb

/-- R205, R207: an illegal word raises the interrupt where DONE_IE is set. -/
theorem irq_refuseWord (v : Word) (s : State) : irq (refuseWord v s) = s.irqen.getLsbD 0 :=
  Bool.true_and _

/-- Settles O7: the word decodes as no command, so its write is a refusal. -/
theorem illegalWriteToCmdCompletesAtOnce : Obligations.IllegalWriteToCmdCompletesAtOnce := by
  intro s v rest hin hb illegal
  rw [step_cmdWrite hin hb, writeCmd_illegal _ (decodeCommand_ne_ok illegal)]
  refine ⟨rfl, fun t h => ?_⟩
  cases h
  exact irq_refuseWord v (s.setInputs rest)

/-! ### BUSY -/

/-- Everything that can change BUSY in one step. -/
inductive BusyChange (s t : State) : Prop where
  /-- The completion of a pending command (R204). -/
  | completed (turn : s.inputs = [] ∨ ∃ rest, s.inputs = .engineTurn :: rest)
      (engine : s.engine ≠ .idle) (busy : t.status.busy = false)
  /-- A reset (R230). -/
  | reset (rest : List Event) (inputs : s.inputs = .reset :: rest) (busy : t.status.busy = false)
  /-- The issue of a legal word (R203). -/
  | issued (v : Word) (rest : List Event) (i : Instr)
      (inputs : s.inputs = .regWrite (regAddr 0x000) v :: rest) (legal : decodeCommand v = .ok i)
      (busy : t.status.busy = true)

theorem complete_busy (b : Ended) : (complete b).status.busy = false := by
  cases b <;> rfl

/-- R204: the engine's turn changes BUSY only by a completion. -/
theorem engineCase_busy {s t : State} (h : EngineCase s t)
    (changed : t.status.busy ≠ s.status.busy) :
    s.engine ≠ .idle ∧ t.status.busy = false := by
  cases h with
  | idle _ eq => exact absurd (congrArg (·.status.busy) eq) changed
  | performed op strict i b engine _ _ eq =>
    exact ⟨engine ▸ Engine.noConfusion, eq ▸ complete_busy b⟩

/-- R203: of the register writes only an issue changes BUSY. -/
theorem regWriteCase_busy {wa : RegAddr} {v : Word} {s t : State} (h : RegWriteCase wa v s t)
    (changed : t.status.busy ≠ s.status.busy) :
    wa = regAddr 0x000 ∧ (∃ i, decodeCommand v = .ok i) ∧ t.status.busy = true := by
  cases h with
  | dropped _ eq => exact absurd (congrArg (·.status.busy) eq) changed
  | issued _ addr i legal eq => exact ⟨addr, ⟨i, legal⟩, congrArg (·.status.busy) eq⟩
  | illegal _ _ _ eq => exact absurd (congrArg (·.status.busy) eq) changed
  | acked _ _ eq => exact absurd (congrArg (·.status.busy) eq) changed
  | loaded _ _ eq => exact absurd (congrArg (·.status.busy) eq) changed
  | fed _ _ eq => exact absurd (congrArg (·.status.busy) eq) changed
  | stored _ r _ eq =>
    rw [eq, storeReg_eq] at changed
    exact absurd rfl changed
  | ignored _ _ eq => exact absurd (congrArg (·.status.busy) eq) changed

theorem hostBufWrite_keeps_busy (a : Word) (b : Byte) (s : State) :
    (hostBufWrite a b s).status.busy = s.status.busy := by
  unfold hostBufWrite
  split
  · rfl
  · split <;> rfl

theorem step_busyChange {s t : State} (h : step s = .next t)
    (changed : t.status.busy ≠ s.status.busy) : BusyChange s t := by
  cases step_cases h with
  | last inputs engine =>
    obtain ⟨pending, busy⟩ := engineCase_busy engine changed
    exact .completed (.inl inputs) pending busy
  | turn rest inputs engine =>
    obtain ⟨pending, busy⟩ := engineCase_busy (s := s.setInputs rest) engine changed
    exact .completed (.inr ⟨rest, inputs⟩) pending busy
  | regWrite wa v rest inputs write =>
    obtain ⟨rfl, ⟨i, legal⟩, busy⟩ := regWriteCase_busy (s := s.setInputs rest) write changed
    exact .issued v rest i inputs legal busy
  | regRead wa rest _ eq => exact absurd (congrArg (·.status.busy) eq) changed
  | bufWrite a b rest _ eq =>
    rw [eq, hostBufWrite_keeps_busy] at changed
    exact absurd rfl changed
  | bufRead a rest _ eq => exact absurd (congrArg (·.status.busy) eq) changed
  | reset rest inputs eq => exact .reset rest inputs (congrArg (·.status.busy) eq)

/-- Settles O21: of the three changes of BUSY a completion and a reset clear it, and an issue sets
it. -/
theorem busyChangesOnlyAtIssueCompletionReset :
    Obligations.BusyChangesOnlyAtIssueCompletionReset := by
  intro s t h
  refine ⟨fun hs ht => ?_, fun hs ht => ?_⟩
  · cases step_busyChange h (by rw [hs, ht]; decide) with
    | completed turn engine _ => exact .inl ⟨turn, engine⟩
    | reset rest inputs _ => exact .inr ⟨rest, inputs⟩
    | issued _ _ _ _ _ busy => exact Bool.noConfusion (ht.symm.trans busy)
  · cases step_busyChange h (by rw [hs, ht]; decide) with
    | completed _ _ busy => exact Bool.noConfusion (ht.symm.trans busy)
    | reset _ _ busy => exact Bool.noConfusion (ht.symm.trans busy)
    | issued v rest i inputs legal _ => exact ⟨v, rest, i, inputs, legal⟩

/-! ### The interrupt -/

theorem irq_of_not_done {s : State} (h : s.status.done = false) : irq s = false := by
  rw [irq, h, Bool.false_and]

/-- R204, R207: a completion raises the interrupt where DONE_IE is set. -/
theorem irq_complete {i : Instr} {s : State} {b : Ended} (hb : commandBody i s = some b) :
    irq (complete b) = s.irqen.getLsbD 0 := by
  have irqen : b.state.irqen = s.irqen := by rw [commandBody_frame hb]
  rw [← irqen]
  cases b <;> exact Bool.true_and _

/-- R203, R205, R207: a legal word lowers the interrupt, an illegal one completes. -/
theorem irq_writeCmd (v : Word) (s : State) :
    irq (writeCmd v s) = (s.irqen.getLsbD 0 && !(decodeCommand v).isOk) := by
  unfold writeCmd
  cases decodeCommand v with
  | ok i => exact (irq_of_not_done rfl).trans (Bool.and_false _).symm
  | error e => exact (irq_refuseWord v s).trans (Bool.and_true _).symm

/-- R27: IRQEN stores bit 0 of the word written. -/
theorem irq_storeReg_irqen {v : Word} (s : State) (h : v.getLsbD 0 = false) :
    irq (storeReg v s .irqen) = false := by
  have cleared : (v &&& 0x00000001).getLsbD 0 = false := by
    rw [BitVec.getLsbD_and, h, Bool.false_and]
  exact (congrArg (s.status.done && ·) cleared).trans (Bool.and_false _)

theorem step_irqenWrite {s : State} {v : Word} {rest : List Event}
    (hin : s.inputs = .regWrite (regAddr 0x008) v :: rest) (hb : s.status.busy = false) :
    step s = .next (storeReg v (s.setInputs rest) .irqen) := by
  rw [step_regWrite hin]
  exact hostRegWrite_plain (s := s.setInputs rest) v hb
    ((registersStandAtTheirOffsets s.cfg).1 (0x008, .irqen) (by decide)) (by decide)

/-- Settles O23: each event leaves `irq` as DONE and DONE_IE leave it. -/
theorem interruptFollowsCompletion : Obligations.InterruptFollowsCompletion := by
  refine ⟨fun s => Bool.and_eq_true_iff, fun i s t hi h => ?completed, fun s t v hb hv h => ?acked,
    fun s t v rest hb hin h => ?cmd, fun s t v rest hb hin h hv => ?irqen,
    fun s t rest hin h => ?reset⟩
  case completed =>
    obtain ⟨b, hb⟩ := commandBody_isSome hi s
    cases (exec_command hb).symm.trans h
    exact irq_complete hb
  case acked =>
    cases (exec_statusAck_idle v hb).symm.trans h
    exact irq_of_not_done (by simp [Status.acked, hv])
  case cmd =>
    cases (step_cmdWrite hin hb).symm.trans h
    exact irq_writeCmd v (s.setInputs rest)
  case irqen =>
    cases (step_irqenWrite hin hb).symm.trans h
    exact ⟨irq_storeReg_irqen (s.setInputs rest) hv, rfl⟩
  case reset =>
    cases (step_reset hin).symm.trans h
    exact ⟨rfl, rfl⟩

/-! ### Every step has a move -/

/-- R82, R216: the engine's turn faults on no legal command, and an idle engine has none. -/
theorem engineStep_next {s : State} (h : EngineInv s) : ∃ t, engineStep s = .next t := by
  cases he : s.engine with
  | idle => exact ⟨s, engineStep_idle he⟩
  | pending op strict =>
    obtain ⟨-, i, hd⟩ := engineInv_pending h he
    obtain ⟨t, performed, -⟩ := engineStep_completes he hd
    exact ⟨t, performed⟩

/-- Settles O58: the engine's turn has a move by the invariant, and a host access and a reset always
have one. -/
theorem everyStepHasAMove : Obligations.EveryStepHasAMove := by
  intro s h
  cases hin : s.inputs with
  | nil =>
    rw [step_of_no_inputs hin]
    exact engineStep_next h
  | cons e rest =>
    cases e with
    | engineTurn =>
      rw [step_engineTurn hin]
      exact engineStep_next (s := s.setInputs rest) h
    | regWrite wa v =>
      rw [step_regWrite hin]
      exact hostRegWrite_next wa v (s.setInputs rest)
    | regRead wa => exact ⟨_, step_regRead hin⟩
    | bufWrite a b => exact ⟨_, step_bufWrite hin⟩
    | bufRead a => exact ⟨_, step_bufRead hin⟩
    | reset => exact ⟨_, step_reset hin⟩

end Sys2Proof.Proofs
end

section
/-! PROOF. Power-on, reset and the two hazards (70_reset_and_hazards.md R230 to R238): what a CFP
holds after power-on and after a reset event, and what becomes of a host access while BUSY = 1. -/

namespace Sys2Proof.Proofs

open Sys2Proof.Machine Sys2Proof.Safety

/-! ### Power-on -/

/-- R230: STATUS after power-on and reset reads 0. -/
theorem statusZero_word : Status.zero.word = 0 := by decide

/-- R232: after power-on the registers other than CRC_ACC, HPARAM and the two parameters read 0. -/
theorem regValue_powerOn (p : Params) {r : Reg}
    (h : r ∉ [Reg.crcAcc, .hparam, .cfgResDepth, .cfgBufLast]) :
    regValue (State.powerOn p) r = 0 := by
  cases r
  case status => exact statusZero_word
  case crcResult => exact BitVec.xor_self
  all_goals simp at h <;> rfl

/-- R231: the words of a record that was never written are its power-on draws. -/
theorem unlistedRecord_word (i : Nat) {w : Nat} (h : w < 8) :
    (unlistedRecord i).word w = Config.powerOnResWord i w := by
  interval_cases w <;> rfl

/-- Settles O18: every register is a constant, and neither memory lists anything. -/
theorem powerOnState : Obligations.PowerOnState :=
  ⟨rfl, fun p => ⟨rfl, statusZero_word, rfl, rfl, fun _ => regValue_powerOn p, fun _ => rfl,
    fun i _ => unlistedRecord_word i⟩⟩

theorem powerOn_storageInv (p : Params) : StorageInv (State.powerOn p) :=
  ⟨List.Pairwise.nil, nofun, List.Pairwise.nil, nofun⟩

/-- Settles O57: the engine is idle, STATUS and the masked registers are 0, and neither memory lists
anything. -/
theorem powerOnMeetsTheInvariants : Obligations.PowerOnMeetsTheInvariants :=
  ⟨fun p => ⟨engineInv_of_idle rfl rfl, errorInv_of_zero rfl rfl,
    ⟨BitVec.zero_and, BitVec.zero_and, BitVec.zero_and⟩, powerOn_storageInv p,
    ⟨Nat.zero_le _, nofun, fun _ => rfl⟩⟩, rfl⟩

/-! ### The write hazard -/

/-- Settles O14: both kinds of write are dropped, and a drop sets VIOL. -/
theorem writeWhileBusyIsDropped : Obligations.WriteWhileBusyIsDropped := by
  rintro s e rest hin hb (⟨wa, v, rfl⟩ | ⟨a, b, rfl⟩)
  · exact (step_regWrite hin).trans (hostRegWrite_busy (s := s.setInputs rest) wa v hb)
  · exact (step_bufWrite hin).trans
      (congrArg _ (hostBufWrite_busy (s := s.setInputs rest) (a := a) b hb))

/-! ### Write sets -/

/-- The registers of R85's "writes" column. -/
def writtenRegs : Instr → List Reg
  | .crcRange => [.crcAcc, .crcResult]
  | .frame | .frameHdr | .frameEnd | .parseAt | .parseAtS =>
    [.rType, .rLen, .rData, .rStored, .rCalc, .rEnd]
  | .emitSig => [.rEnd]
  | .scan => [.rNrec, .rNmatch, .rNbad, .rNihdr, .rNidat, .rNiend, .rWidth, .rHeight, .rHparam,
      .rHilace]
  | .decode => [.rNrec, .rNmatch, .rNbad, .rNihdr, .rNidat, .rNiend, .rWidth, .rHeight, .rHparam,
      .rHilace, .rType, .rLen, .rData, .rStored, .rCalc, .rEnd]
  | .crcFeed _ | .crcLoad _ | .statusAck _ => []

theorem mem_writtenRegs (i : Instr) (r : Reg) : r ∈ writtenRegs i ↔ regInWrites i r = true := by
  cases i <;> simp [writtenRegs, regInWrites, Reg.isChunk, Reg.isScan, or_assoc]

/-- R238: STATUS is in no "writes" column; a read of it has a rule of its own. -/
theorem status_not_written (i : Instr) : .status ∉ writtenRegs i := by
  rw [mem_writtenRegs]
  cases i <;> exact Bool.false_ne_true

theorem writesRes_iff (i : Instr) : writesRes i = true ↔ i = .scan ∨ i = .decode := by
  simp [writesRes]

/-- R85: SCAN and DECODE write no byte of BUF. -/
theorem outLength_of_writesRes {i : Instr} (s : State) (h : writesRes i = true) :
    outLength i s = 0 := by
  rcases (writesRes_iff i).1 h with rfl | rfl <;> rfl

theorem outRange_of_writesRes {i : Instr} (s : State) (h : writesRes i = true) :
    outRange i s = 0 := by
  rw [outRange, outLength_of_writesRes s h, ite_self]

theorem writeSetEmpty_iff (i : Instr) (s : State) : writeSetEmpty i s = true ↔
    0 < outLength i s ∧ bufSize s < s.ops.dst.toNat + outLength i s := by
  simp [writeSetEmpty]

theorem byteInWriteSet_iff_outRange (i : Instr) (s : State) (a : Nat) :
    byteInWriteSet i s a = true ↔
      s.ops.dst.toNat ≤ a ∧ a < s.ops.dst.toNat + outRange i s := by
  simp [byteInWriteSet]

/-- R85: the bytes of a write set are those of the output range, if that lies inside BUF. -/
theorem byteInWriteSet_iff (i : Instr) (s : State) (a : Nat) :
    byteInWriteSet i s a = true ↔ s.ops.dst.toNat + outLength i s ≤ bufSize s ∧
      s.ops.dst.toNat ≤ a ∧ a < s.ops.dst.toNat + outLength i s := by
  have empty := writeSetEmpty_iff i s
  rw [byteInWriteSet_iff_outRange, outRange]
  split
  · have := empty.1 ‹_›
    omega
  · have := empty.not.1 ‹_›
    omega

/-! ### The reset event -/

/-- R232: a reset sets every register to its power-on value. -/
theorem regValue_resetEvent (s : State) (r : Reg) :
    regValue (resetEvent s) r = regValue (State.powerOn s.cfg) r := by
  cases r <;> rfl

section
variable {s : State} {i : Instr} (hp : pendingInstr s = some i)
include hp

/-- R233: the bytes of the abandoned command's write set become draws. -/
theorem resetEvent_buf :
    (resetEvent s).buf = memDraw s.buf s.ops.dst.toNat (outRange i s) s.draws := by
  show bufAfterReset s = _
  rw [bufAfterReset, hp]

/-- R235: an abandoned SCAN or DECODE makes the result table draws. -/
theorem resetEvent_res :
    (resetEvent s).res = if writesRes i then drawnTable 0 s.cfg.resDepth s.draws else s.res := by
  show resAfterReset s = _
  rw [resAfterReset, hp]

theorem resetEvent_draws : (resetEvent s).draws =
    s.draws + if writesRes i then 8 * s.cfg.resDepth else outRange i s := by
  show s.draws + resetDraws s = _
  rw [resetDraws, hp]

/-- R233: a byte outside the abandoned command's write set is kept. -/
theorem resetEvent_byte_kept {a : Nat} (out : byteInWriteSet i s a = false) :
    bufByte (resetEvent s).buf a = bufByte s.buf a := by
  have outside := (byteInWriteSet_iff_outRange i s a).not.1 (ne_true_of_eq_false out)
  rw [resetEvent_buf hp, bufByte_memDraw_outside _ _ _ _ (by omega)]

/-- R233: a byte of the abandoned command's write set is the draw of its place in it, which the
reset counts. -/
theorem resetEvent_byte_drawn {a : Nat} (written : byteInWriteSet i s a = true) :
    s.draws + (a - s.ops.dst.toNat) < (resetEvent s).draws ∧
      bufByte (resetEvent s).buf a = Config.drawByte (s.draws + (a - s.ops.dst.toNat)) := by
  obtain ⟨low, high⟩ := (byteInWriteSet_iff_outRange i s a).1 written
  have noRes : ¬ writesRes i = true := fun h => by
    rw [outRange_of_writesRes s h] at high
    omega
  rw [resetEvent_draws hp, if_neg noRes, resetEvent_buf hp]
  exact ⟨by omega, bufByte_memDraw_inside _ _ _ _ low high⟩

/-- R235: a word of the result table of an abandoned SCAN or DECODE is the draw of its place in it,
which the reset counts. -/
theorem resetEvent_record_drawn {j w : Nat} (table : writesRes i = true) (hj : j < s.cfg.resDepth)
    (hw : w < 8) : s.draws + 8 * j + w < (resetEvent s).draws ∧
      (resRecord (resetEvent s).res j).word w = Config.drawWord (s.draws + 8 * j + w) := by
  rw [resetEvent_draws hp, if_pos table, resetEvent_res hp, if_pos table,
    resRecord_drawnTable (Nat.zero_le j) (by omega), drawnRecord_word _ hw]
  exact ⟨by omega, rfl⟩

/-- R235: an abandoned SCAN or DECODE leaves BUF alone. -/
theorem resetEvent_buf_kept (table : writesRes i = true) : (resetEvent s).buf = s.buf := by
  rw [resetEvent_buf hp, outRange_of_writesRes s table]
  rfl

end

/-- R235: with no command pending a reset keeps both memories. -/
theorem resetEvent_memories_kept {s : State} (h : pendingInstr s = none) :
    (resetEvent s).buf = s.buf ∧ (resetEvent s).res = s.res := by
  show bufAfterReset s = s.buf ∧ resAfterReset s = s.res
  rw [bufAfterReset, resAfterReset, h]
  exact ⟨rfl, rfl⟩

/-- Settles O17: the registers take their power-on values, and what each memory holds depends on the
command abandoned. -/
theorem resetEventResetsAndAbandons : Obligations.ResetEventResetsAndAbandons := by
  intro s rest hin
  refine ⟨_, step_reset hin, rfl, statusZero_word, rfl, rfl, rfl, rfl, rfl, fun r hr => ?_, rfl, rfl,
    fun hp => resetEvent_memories_kept (s := s.setInputs rest) hp, fun i hp => ?_⟩
  · rw [regValue_resetEvent]
    exact regValue_powerOn s.cfg hr
  · refine ⟨fun a => resetEvent_byte_kept (s := s.setInputs rest) hp, fun a n written hn => ?_,
      fun scan decode => ?_, fun table => ?_⟩
    · subst hn
      exact resetEvent_byte_drawn (s := s.setInputs rest) hp written
    · have noRes : ¬ writesRes i = true := by simp [writesRes_iff, scan, decode]
      rw [resetEvent_res (s := s.setInputs rest) hp, if_neg noRes]
      rfl
    · have table := (writesRes_iff i).2 table
      refine ⟨resetEvent_buf_kept (s := s.setInputs rest) hp table, fun j w n hj hw hn => ?_⟩
      subst hn
      exact resetEvent_record_drawn (s := s.setInputs rest) hp table hj hw

/-! ### The STATUS word -/

/-- R238: bits 6:4 come from the draw, the others from STATUS. -/
theorem statusWithDraw_getLsbD (st : Status) (d : Word) (n : Nat) :
    (statusWithDraw st d).getLsbD n =
      if 4 ≤ n ∧ n < 7 then d.getLsbD n else st.word.getLsbD n := by
  have masks : ∀ n < 32, (0xFFFFFF8F : Word).getLsbD n = !decide (4 ≤ n ∧ n < 7) ∧
      (0x00000070 : Word).getLsbD n = decide (4 ≤ n ∧ n < 7) := by decide
  by_cases hn : n < 32
  · obtain ⟨kept, drawn⟩ := masks n hn
    rw [statusWithDraw, BitVec.getLsbD_or, BitVec.getLsbD_and, BitVec.getLsbD_and, kept, drawn]
    by_cases flag : 4 ≤ n ∧ n < 7
    · simp only [if_pos flag, decide_eq_true flag, Bool.not_true, Bool.and_false, Bool.and_true,
        Bool.false_or]
    · simp only [if_neg flag, decide_eq_false flag, Bool.not_false, Bool.and_true, Bool.and_false,
        Bool.or_false]
  · rw [BitVec.getLsbD_of_ge _ _ (by omega), if_neg (by omega), BitVec.getLsbD_of_ge _ _ (by omega)]

/-- Words that agree on a field's bits agree on the field. -/
theorem extractLsb'_congr {x y : Word} {start len : Nat}
    (h : ∀ j < len, x.getLsbD (start + j) = y.getLsbD (start + j)) :
    x.extractLsb' start len = y.extractLsb' start len := by
  apply BitVec.eq_of_getLsbD_eq
  intro j hj
  simp [-BitVec.getLsbD_eq_getElem, BitVec.getLsbD_extractLsb', hj, h j hj]

/-- R25: bits 31:12 of STATUS read 0. -/
theorem statusWord_reserved (st : Status) : st.word.extractLsb' 12 20 = 0 := by
  apply BitVec.eq_of_getLsbD_eq
  intro j hj
  have past : st.errcode.getLsbD (12 + j - 8) = false := BitVec.getLsbD_of_ge _ _ (by omega)
  simp [Status.word, flagBit_getLsbD, -BitVec.getLsbD_eq_getElem, BitVec.getLsbD_or,
    BitVec.getLsbD_extractLsb', hj, past]
  omega

/-- R238: a word that is STATUS but for bits 6:4 shows the other fields of STATUS. -/
theorem statusFields_of_agree {st : Status} {w : Word}
    (h : ∀ n, n < 4 ∨ 7 ≤ n → w.getLsbD n = st.word.getLsbD n) :
    w.getLsbD 0 = st.busy ∧ w.getLsbD 1 = st.done ∧ w.getLsbD 2 = st.err ∧
      w.getLsbD 3 = st.valid ∧ w.getLsbD 7 = st.viol ∧ w.extractLsb' 8 4 = st.errcode ∧
      w.extractLsb' 12 20 = 0 := by
  obtain ⟨busy, done, err, valid, -, -, -, viol⟩ := statusWord_bits st
  exact ⟨(h 0 (by decide)).trans busy, (h 1 (by decide)).trans done, (h 2 (by decide)).trans err,
    (h 3 (by decide)).trans valid, (h 7 (by decide)).trans viol,
    (extractLsb'_congr fun j _ => h (8 + j) (by omega)).trans (statusWord_errcode st),
    (extractLsb'_congr fun j _ => h (12 + j) (by omega)).trans (statusWord_reserved st)⟩

/-! ### The read hazard -/

theorem regReadValue_setInputs (wa : RegAddr) (s : State) (es : List Event) :
    regReadValue wa (s.setInputs es) = regReadValue wa s := by
  unfold regReadValue
  simp only [locValue_setInputs]
  rfl

theorem bufReadValue_setInputs (a : Word) (s : State) (es : List Event) :
    bufReadValue a (s.setInputs es) = bufReadValue a s := rfl

section
variable {s : State} {i : Instr} {wa : RegAddr} (hb : s.status.busy = true)
  (hp : pendingInstr s = some i)
include hb hp

/-- R238: what a named register other than STATUS reads as. -/
theorem regReadValue_named {r : Reg} (status : r ≠ .status) (hl : locate s.cfg wa = .named r) :
    regReadValue wa s =
      if regInWrites i r = true ∧ writeSetEmpty i s = false then Config.drawWord s.draws
      else regValue s r := by
  simp [regReadValue_pending hb hp, hl, locInWriteSet, status, locValue]

/-- R238, R85: a register of the "writes" column reads as a draw, unless the output range passes
BUF_SIZE. -/
theorem regReadValue_written {r : Reg} (hr : r ∈ writtenRegs i)
    (hl : locate s.cfg wa = .named r) :
    (outLength i s = 0 ∨ s.ops.dst.toNat + outLength i s ≤ bufSize s →
      regReadValue wa s = Config.drawWord s.draws) ∧
    (0 < outLength i s → bufSize s < s.ops.dst.toNat + outLength i s →
      regReadValue wa s = regValue s r) := by
  have status : r ≠ .status := by
    rintro rfl
    exact status_not_written i hr
  have empty := writeSetEmpty_iff i s
  rw [regReadValue_named hb hp status hl]
  constructor
  · intro fits
    have nonempty : writeSetEmpty i s = false := eq_false_of_ne_true fun h => by
      have := empty.1 h
      omega
    exact if_pos ⟨(mem_writtenRegs i r).1 hr, nonempty⟩
  · intro some past
    exact if_neg fun written => ne_false_of_eq_true (empty.2 ⟨some, past⟩) written.2

/-- R238: a register that is in no "writes" column reads as its value. -/
theorem regReadValue_not_written {r : Reg} (hr : r ∉ writtenRegs i) (status : r ≠ .status)
    (hl : locate s.cfg wa = .named r) : regReadValue wa s = regValue s r := by
  rw [regReadValue_named hb hp status hl,
    if_neg fun written => hr ((mem_writtenRegs i r).2 written.1)]

/-- R238: a record's word reads as a draw under SCAN and DECODE. -/
theorem regReadValue_record {j k : Nat} (hl : locate s.cfg wa = .record j k) :
    regReadValue wa s =
      if writesRes i then Config.drawWord s.draws else (resRecord s.res j).word k := by
  simp [regReadValue_pending hb hp, hl, locInWriteSet, locValue]

/-- R46: a reserved offset reads 0, also while a command is pending. -/
theorem regReadValue_reserved (hl : locate s.cfg wa = .reserved) : regReadValue wa s = 0 := by
  simp [regReadValue_pending hb hp, hl, locInWriteSet, locValue]

/-- R238: STATUS reads as stored, with the scan flags drawn under SCAN and DECODE. -/
theorem regReadValue_status (hl : locate s.cfg wa = .named .status) :
    regReadValue wa s =
      if writesRes i then statusWithDraw s.status (Config.drawWord s.draws)
      else s.status.word := by
  simp [regReadValue_pending hb hp, hl, status_not_inWriteSet, locValue, regValue]

/-- R238: STATUS as read is STATUS as stored, but for bits 6:4. -/
theorem regReadValue_status_agrees (hl : locate s.cfg wa = .named .status) {n : Nat}
    (h : n < 4 ∨ 7 ≤ n) : (regReadValue wa s).getLsbD n = s.status.word.getLsbD n := by
  rw [regReadValue_status hb hp hl]
  split
  · rw [statusWithDraw_getLsbD, if_neg (by omega)]
  · rfl

/-- R238: the three scan flags are drawn under SCAN and DECODE, and as stored otherwise. -/
theorem regReadValue_status_flags (hl : locate s.cfg wa = .named .status) :
    (regReadValue wa s).extractLsb' 4 3 =
      if i = .scan ∨ i = .decode then (Config.drawWord s.draws).extractLsb' 4 3
      else s.status.word.extractLsb' 4 3 := by
  rw [regReadValue_status hb hp hl]
  by_cases table : writesRes i = true
  · rw [if_pos table, if_pos ((writesRes_iff i).1 table)]
    exact extractLsb'_congr fun j hj => by rw [statusWithDraw_getLsbD, if_pos (by omega)]
  · rw [if_neg table, if_neg fun h => table ((writesRes_iff i).2 h)]

/-- R238, R85: a byte of the output range reads as a draw, if the range lies inside BUF, and every
other byte of BUF as it stands. -/
theorem bufReadValue_writeSet {a : Word} (inside : a.toNat < bufSize s) :
    (s.ops.dst.toNat + outLength i s ≤ bufSize s → s.ops.dst.toNat ≤ a.toNat →
      a.toNat < s.ops.dst.toNat + outLength i s →
      bufReadValue a s = Config.drawByte s.draws) ∧
    (bufSize s < s.ops.dst.toNat + outLength i s ∧ 0 < outLength i s ∨
      a.toNat < s.ops.dst.toNat ∨ s.ops.dst.toNat + outLength i s ≤ a.toNat →
      bufReadValue a s = bufByte s.buf a.toNat) := by
  have written := byteInWriteSet_iff i s a.toNat
  rw [bufReadValue_pending hb hp inside]
  refine ⟨fun fits low high => if_pos (written.2 ⟨fits, low, high⟩), fun out => if_neg fun h => ?_⟩
  have := written.1 h
  omega

end

/-- Settles O15: what a register read returns follows from its location, and what a buffer read
returns from the output range. -/
theorem readsWhileBusy : Obligations.ReadsWhileBusy := by
  intro s rest op strict i n regs inv he hd hn hregs
  obtain rfl : n = outLength i s := by rw [hn]; cases i <;> rfl
  obtain rfl : regs = writtenRegs i := by rw [hregs]; cases i <;> rfl
  have hp := pendingInstr_eq he hd
  simp only [EngineInv, he] at inv
  obtain ⟨hb, hdone, herr, hvalid, hcode, -, -⟩ := inv
  refine ⟨fun wa hin => ⟨regReadValue wa s, ?_, fun r => regReadValue_written hb hp,
    fun r => regReadValue_not_written hb hp, fun j k hl => ?_, regReadValue_reserved hb hp,
    fun hl => ?_⟩,
    fun a hin inside => ⟨bufReadValue a s, ?_, bufReadValue_writeSet hb hp inside⟩⟩
  · rw [step_regRead hin, regReadValue_setInputs]
  · simp only [regReadValue_record hb hp hl, writesRes_iff]
  · obtain ⟨busy, done, err, valid, viol, code, reserved⟩ :=
      statusFields_of_agree fun _ => regReadValue_status_agrees hb hp hl
    exact ⟨busy.trans hb, done.trans hdone, err.trans herr, valid.trans hvalid, viol,
      code.trans hcode, reserved, regReadValue_status_flags hb hp hl⟩
  · rw [step_bufRead hin, bufReadValue_setInputs]

end Sys2Proof.Proofs
end
